-- ==== Sys2Proof/Word.lean ====
section
/-! DEFINITION. The word types of VGA16-PPM and bit fields of a word, in the notation of 00_scope.md rule R8. -/

namespace Sys2Proof

/-- A byte: a VGA register, a VRAM byte, a mask (R8 `u8`). -/
abbrev Byte := BitVec 8

/-- A palette slot, one 16-bit channel value (R30). -/
abbrev Slot := BitVec 16

/-- A surface word in ARGB layout (R67). -/
abbrev Pixel := BitVec 32

/-- A command word (R90). -/
abbrev Word := BitVec 64

end Sys2Proof
end

