-- ==== Sys2Proof/Config.lean ====
section
/-! DEFINITION. The parameters of 00_scope.md rule R6: what a launch sets, with the spec's defaults and demands, and the
free values: what the spec calls a draw or leaves OPEN, as constants without a body. -/

namespace Sys2Proof

/-- A rectangle (x, y, w, h) of the dirty region (10_state.md R33); it covers columns x..x+w-1 and rows y..y+h-1 (R93). -/
structure Rect where
  x : Nat
  y : Nat
  w : Nat
  h : Nat
  deriving DecidableEq, Repr

/-! ### Parameters (R6)

A launch gives them (R292); REGION_RECTS and SURFACE_INIT, which R6 leaves OPEN, stand in the launch beside them. Log
entry 7. -/

/-- The parameters of R6 that have a default, under the spec's names. -/
structure Params where
  paletteCapacity : Nat
  shiftFirst : Nat
  shiftLast : Nat
  slotShift : Nat
  planes : Nat
  pixelsPerByte : Nat
  maskBit0 : Byte
  rmwOrValue : Byte
  baseEsr : Byte
  baseMode : Byte
  baseRotate : Byte
  baseMapMask : Byte
  reqBpp : Nat
  /-- Its default is [from general knowledge, not in source]: Linux `FB_TYPE_VGA_PLANES` (GK2). Log entry 13. -/
  typeVgaPlanes : Nat
  /-- Its default is [from general knowledge, not in source]: Linux `FB_AUX_VGA_PLANES_VGA4` (GK2). Log entry 13. -/
  auxVga4 : Nat
  /-- Its default is [from general knowledge, not in source]: Linux `FB_VISUAL_PSEUDOCOLOR` (GK2). Log entry 13. -/
  visualPseudocolor : Nat
  /-- Its default is [from general knowledge, not in source]: bytes per VGA plane (GK5). Log entry 13. -/
  vramPlaneBytes : Nat
  deriving DecidableEq, Repr

/-- The defaults of R6. -/
def Params.default : Params :=
  { paletteCapacity := 16, shiftFirst := 6, shiftLast := 7, slotShift := 8, planes := 4, pixelsPerByte := 8,
    maskBit0 := 0x80, rmwOrValue := 0x01, baseEsr := 0x0F, baseMode := 0x00, baseRotate := 0x00, baseMapMask := 0x0F,
    reqBpp := 4, typeVgaPlanes := 4, auxVga4 := 0, visualPseudocolor := 3, vramPlaneBytes := 65536 }

/-- What the parameters must hold: R6's three demands (the first four fields); what fits the widths the other rules fix:
the four planes of R44, `/` and `mod` by 8 only (R9), a slot of 16 bits (R30, R9) and a size of 17 (R29); and R97's and
D28's of the compatibility constants, that they fit QUERY's 4-bit fields and that 0xF matches none. Log entry 18. -/
structure Params.Ok (k : Params) : Prop where
  capacity_pos : 1 ≤ k.paletteCapacity
  capacity_le : k.paletteCapacity ≤ 2 ^ k.planes
  shifts : k.shiftFirst ≤ k.shiftLast
  shift_last : k.shiftLast ≤ 7
  planes_le : k.planes ≤ 4
  pixels : k.pixelsPerByte = 8
  slot : k.slotShift ≤ 8
  plane_bytes : k.vramPlaneBytes < 2 ^ 17
  type_lt : k.typeVgaPlanes < 0xF
  aux_lt : k.auxVga4 < 0xF
  visual_lt : k.visualPseudocolor < 0xF

/-- The base values R65 defines the VRAM write for: ESR = 0x0F, MODE = 0x00, ROT = 0x00, MAPMASK = 0x0F. -/
def Params.standardBase (k : Params) : Bool :=
  k.baseEsr == 0x0F && k.baseMode == 0x00 && k.baseRotate == 0x00 && k.baseMapMask == 0x0F

/-- The parameters a claim about pixels presupposes: the base values of R65, the leftmost pixel in bit 7 (R61, R69), and a
data byte whose bit 0 is set (R182). -/
structure Params.Standard (k : Params) : Prop where
  base : k.standardBase = true
  mask_bit : k.maskBit0 = 0x80
  or_value : k.rmwOrValue.getLsbD 0 = true

namespace Config

/-- COORD_BITS (R6): the width R91's formats give every coordinate and size field, so no launch sets it. Log entry 7. -/
def coordBits : Nat := 12

/-- How many mask rows there are, one per 4-bit colour index (R34, R220). -/
def maskRows : Nat := 16

/-! ### Free values: the draws of R10 and R292 (log entries 2 to 4 and 6) -/

/-- The draw `open_ok` of OPEN (R121, I8), by draw number. -/
opaque openOk : Nat → Bool

/-- The draw `map_ok` of MAP (R127, I9), by draw number. -/
opaque mapOk : Nat → Bool

/-- The draw `vt_is_active` of MAP (R127, I10), by draw number. -/
opaque vtIsActive : Nat → Bool

/-- The draw `vram_read_data` of the VRAM read (R64, I1), by draw number. -/
opaque vramReadData : Nat → Byte

/-- The byte at a VRAM address nothing has written (R44, I3), by the draw of the whole memory and by address. -/
opaque initialVram : Nat → Nat → Byte

/-- SURFACE_INIT left open: the word of a pixel nothing has written (R200, I6), by the surface's draw, x and y. -/
opaque surfaceInit : Nat → Nat → Nat → Pixel

/-- The value behind a VGA register or latch whose condition is `unknown` (R35, R43, I4), by draw number and by which
one it is (0 SR, 1 BM, 2 to 5 the latches). -/
opaque unknownByte : Nat → Nat → Byte

/-- A plane's byte after a VRAM write in a base state other than the one R65 is defined for, which only a launch with
other base values reaches, by draw number and plane. Log entry 17. -/
opaque otherBaseByte : Nat → Nat → Byte

/-- An unconstrained choice of rectangle list; `Config.regionRects` keeps of it what R205 admits. -/
opaque rawRegionRects : List Rect → List Rect

end Config

/-! ### REGION_RECTS (44_surface_region.md rule R205) -/

/-- Pixel (x, y) lies in the rectangle (R93). -/
def Rect.covers (r : Rect) (x y : Nat) : Bool :=
  decide (r.x ≤ x) && decide (x < r.x + r.w) && decide (r.y ≤ y) && decide (y < r.y + r.h)

/-- Pixel (x, y) lies in some rectangle of the list. -/
def coveredBy (rs : List Rect) (x y : Nat) : Bool := rs.any fun r => r.covers x y

/-- The right edge of the smallest head that holds every rectangle of the list. -/
def rightEdge (rs : List Rect) : Nat := rs.foldl (fun m r => max m (r.x + r.w)) 0

/-- The lower edge of the smallest head that holds every rectangle of the list. -/
def lowerEdge (rs : List Rect) : Nat := rs.foldl (fun m r => max m (r.y + r.h)) 0

/-- `out` is a list R205 admits for the dirty list `dirty`: (b) every rectangle inside every head that holds the dirty
ones, which is to say inside the smallest; (c) the same pixels. -/
def conformingRects (dirty out : List Rect) : Bool :=
  out.all (fun r => decide (r.x + r.w ≤ rightEdge dirty) && decide (r.y + r.h ≤ lowerEdge dirty))
    && (List.range (rightEdge dirty)).all fun x =>
        (List.range (lowerEdge dirty)).all fun y => coveredBy out x y == coveredBy dirty x y

/-- REGION_RECTS left open (R205): any conforming choice, a function of the dirty list alone. Where the free choice does
not conform, the reference choice (the identity) stands in, so exactly the conforming choices are allowed. Log entry 6. -/
def Config.regionRects (dirty : List Rect) : List Rect :=
  bif conformingRects dirty (Config.rawRegionRects dirty) then Config.rawRegionRects dirty else dirty

end Sys2Proof
end

