-- ==== Sys2Proof/Syntax.lean ====
section
/-! DEFINITION. The commands of VGA16-PPM: one constructor per row of spec/opcode_table.json (30_encoding.md rule R95),
with the operands of rule R91, each read as an unsigned number or as bits (R93). -/

namespace Sys2Proof

/-- A decoded command. Coordinates, sizes and offsets are numbers (R9 computes with them on unbounded naturals); their
field widths are `Instr.WellFormed` (log entry 16). Colours, masks and pixels are bits. -/
inductive Instr where
  | openDevice
  | closeDevice
  | query (w h stride type aux visual bpp : Nat)
  | mapDevice
  | unmapDevice
  | activate
  | deactivate
  | pixWrite (x y : Nat) (pixel : Pixel)
  | pixRead (x y : Nat)
  | dirtyAdd (x y w h : Nat)
  | dirtyClear
  | palAssign (pixel : Pixel)
  | palPush
  | palRead (index : Fin 16)
  | pwBase
  | pwWrite (color : BitVec 4) (mask : Byte) (offset : Nat)
  | rastArea (x y w h : Nat)
  | flush
  deriving DecidableEq, Repr

/-- The operand formats of R91. -/
inductive Format where
  | n | q | xyp | xy | rect | p | idx | pw
  deriving DecidableEq, Repr

/-- The assigned opcodes of R95, in the map's order. -/
inductive Opcode where
  | openDevice | closeDevice | query | mapDevice | unmapDevice | activate | deactivate
  | pixWrite | pixRead | dirtyAdd | dirtyClear
  | palAssign | palPush | palRead
  | pwBase | pwWrite
  | rastArea | flush
  deriving DecidableEq, Repr

end Sys2Proof
end

