-- ==== Sys2Proof/WellFormed.lean ====
section
/-! DEFINITION. Which commands have an encoding: every operand fits its field (30_encoding.md rules R91 and R94).
R97: a value outside what a command's rule admits is no matter of form. -/

namespace Sys2Proof

/-- A coordinate or size is below 2^COORD_BITS (R94). -/
def fitsCoord (v : Nat) : Bool := decide (v < 2 ^ Config.coordBits)

/-- Every operand of the command fits the field R91 gives it. -/
def Instr.wellFormed : Instr → Bool
  | .query w h stride type aux visual bpp =>
    fitsCoord w && fitsCoord h && fitsCoord stride && decide (type < 16) && decide (aux < 16) && decide (visual < 16)
      && decide (bpp < 256)
  | .pixWrite x y _ => fitsCoord x && fitsCoord y
  | .pixRead x y => fitsCoord x && fitsCoord y
  | .dirtyAdd x y w h => fitsCoord x && fitsCoord y && fitsCoord w && fitsCoord h
  | .rastArea x y w h => fitsCoord x && fitsCoord y && fitsCoord w && fitsCoord h
  | .pwWrite _ _ offset => decide (offset < 2 ^ 32)
  | .openDevice => true
  | .closeDevice => true
  | .mapDevice => true
  | .unmapDevice => true
  | .activate => true
  | .deactivate => true
  | .dirtyClear => true
  | .palAssign _ => true
  | .palPush => true
  | .palRead _ => true
  | .pwBase => true
  | .flush => true

/-- The proposition that a command is well formed. -/
abbrev Instr.WellFormed (i : Instr) : Prop := i.wellFormed = true

end Sys2Proof
end

