-- ==== Sys2Proof/Decode.lean ====
section
/-! DEFINITION. Decoding of command words (30_encoding.md rules R90 to R97) and the encoder written from the same tables.
Decoding is total: every 64-bit word is a command or is refused by name. -/

namespace Sys2Proof

/-- `w[hi:lo]` as an unsigned number (R8, R93). -/
def bitField (w : Word) (hi lo : Nat) : Nat := w.toNat / 2 ^ lo % 2 ^ (hi + 1 - lo)

/-- The opcode's number OP (R95). -/
def Opcode.code : Opcode → Nat
  | .openDevice => 0x01
  | .closeDevice => 0x02
  | .query => 0x03
  | .mapDevice => 0x04
  | .unmapDevice => 0x05
  | .activate => 0x06
  | .deactivate => 0x07
  | .pixWrite => 0x10
  | .pixRead => 0x11
  | .dirtyAdd => 0x12
  | .dirtyClear => 0x13
  | .palAssign => 0x20
  | .palPush => 0x21
  | .palRead => 0x22
  | .pwBase => 0x30
  | .pwWrite => 0x31
  | .rastArea => 0x40
  | .flush => 0x41

/-- The opcode's format (R95). -/
def Opcode.format : Opcode → Format
  | .query => .q
  | .pixWrite => .xyp
  | .pixRead => .xy
  | .dirtyAdd => .rect
  | .rastArea => .rect
  | .palAssign => .p
  | .palRead => .idx
  | .pwWrite => .pw
  | .openDevice => .n
  | .closeDevice => .n
  | .mapDevice => .n
  | .unmapDevice => .n
  | .activate => .n
  | .deactivate => .n
  | .dirtyClear => .n
  | .palPush => .n
  | .pwBase => .n
  | .flush => .n

/-- Every assigned opcode (R95). -/
def Opcode.all : List Opcode :=
  [.openDevice, .closeDevice, .query, .mapDevice, .unmapDevice, .activate, .deactivate,
   .pixWrite, .pixRead, .dirtyAdd, .dirtyClear, .palAssign, .palPush, .palRead,
   .pwBase, .pwWrite, .rastArea, .flush]

/-- The assigned opcode with this number, if any (R95, R96). -/
def Opcode.ofCode (op : Nat) : Option Opcode := Opcode.all.find? fun o => o.code == op

/-- The reserved bit ranges (hi, lo) of each format (R91). -/
def Format.reserved : Format → List (Nat × Nat)
  | .n => [(55, 0)]
  | .q => []
  | .xyp => []
  | .xy => [(31, 0)]
  | .rect => [(7, 0)]
  | .p => [(55, 32)]
  | .idx => [(55, 4)]
  | .pw => [(55, 52), (39, 32)]

/-- Every reserved bit of the format is 0 in the word (R92, R96). -/
def Format.reservedClear (f : Format) (w : Word) : Bool :=
  f.reserved.all fun r => bitField w r.1 r.2 == 0

/-- A format's reserved mask, the set of bits that must be 0 (R92), from its ranges. -/
def Format.reservedMask (f : Format) : Nat :=
  f.reserved.foldl (fun m r => m + (2 ^ (r.1 + 1) - 2 ^ r.2)) 0

/-- A format's decode mask, OP plus reserved (R92), as the table of R92 gives it. -/
def Format.decodeMask : Format → Nat
  | .n => 0xFFFFFFFFFFFFFFFF
  | .q => 0xFF00000000000000
  | .xyp => 0xFF00000000000000
  | .xy => 0xFF000000FFFFFFFF
  | .rect => 0xFF000000000000FF
  | .p => 0xFFFFFFFF00000000
  | .idx => 0xFFFFFFFFFFFFFFF0
  | .pw => 0xFFF000FF00000000

/-- The command an opcode and a word's fields make (R91, R93). -/
def Opcode.assemble (o : Opcode) (w : Word) : Instr :=
  match o with
  | .openDevice => .openDevice
  | .closeDevice => .closeDevice
  | .query =>
    .query (bitField w 55 44) (bitField w 43 32) (bitField w 31 20) (bitField w 19 16) (bitField w 15 12)
      (bitField w 11 8) (bitField w 7 0)
  | .mapDevice => .mapDevice
  | .unmapDevice => .unmapDevice
  | .activate => .activate
  | .deactivate => .deactivate
  | .pixWrite => .pixWrite (bitField w 55 44) (bitField w 43 32) (BitVec.ofNat 32 (bitField w 31 0))
  | .pixRead => .pixRead (bitField w 55 44) (bitField w 43 32)
  | .dirtyAdd => .dirtyAdd (bitField w 55 44) (bitField w 43 32) (bitField w 31 20) (bitField w 19 8)
  | .dirtyClear => .dirtyClear
  | .palAssign => .palAssign (BitVec.ofNat 32 (bitField w 31 0))
  | .palPush => .palPush
  | .palRead => .palRead (Fin.ofNat 16 (bitField w 3 0))
  | .pwBase => .pwBase
  | .pwWrite => .pwWrite (BitVec.ofNat 4 (bitField w 51 48)) (BitVec.ofNat 8 (bitField w 47 40)) (bitField w 31 0)
  | .rastArea => .rastArea (bitField w 55 44) (bitField w 43 32) (bitField w 31 20) (bitField w 19 8)
  | .flush => .flush

/-- Why a word is no command (R96); both record the fault ILLEGAL. -/
inductive DecodeError where
  /-- the opcode is not in the map of R95 -/
  | unassignedOpcode
  /-- a reserved bit of the opcode's format is 1 -/
  | reservedBit
  deriving DecidableEq, Repr

/-- The opcode field OP of a word (R90). -/
def opField (w : Word) : Nat := bitField w 63 56

/-- Decode a command word, in the order of R96. -/
def decode (w : Word) : Except DecodeError Instr :=
  match Opcode.ofCode (opField w) with
  | none => .error .unassignedOpcode
  | some o => bif o.format.reservedClear w then .ok (o.assemble w) else .error .reservedBit

/-- The opcode of a command (R95). -/
def Instr.opcode : Instr → Opcode
  | .openDevice => .openDevice
  | .closeDevice => .closeDevice
  | .query .. => .query
  | .mapDevice => .mapDevice
  | .unmapDevice => .unmapDevice
  | .activate => .activate
  | .deactivate => .deactivate
  | .pixWrite .. => .pixWrite
  | .pixRead .. => .pixRead
  | .dirtyAdd .. => .dirtyAdd
  | .dirtyClear => .dirtyClear
  | .palAssign _ => .palAssign
  | .palPush => .palPush
  | .palRead _ => .palRead
  | .pwBase => .pwBase
  | .pwWrite .. => .pwWrite
  | .rastArea .. => .rastArea
  | .flush => .flush

/-- The operand bits [55:0] of a command's word (R91). -/
def Instr.operandBits : Instr → Nat
  | .query w h stride type aux visual bpp =>
    w * 2 ^ 44 + h * 2 ^ 32 + stride * 2 ^ 20 + type * 2 ^ 16 + aux * 2 ^ 12 + visual * 2 ^ 8 + bpp
  | .pixWrite x y pixel => x * 2 ^ 44 + y * 2 ^ 32 + pixel.toNat
  | .pixRead x y => x * 2 ^ 44 + y * 2 ^ 32
  | .dirtyAdd x y w h => x * 2 ^ 44 + y * 2 ^ 32 + w * 2 ^ 20 + h * 2 ^ 8
  | .rastArea x y w h => x * 2 ^ 44 + y * 2 ^ 32 + w * 2 ^ 20 + h * 2 ^ 8
  | .palAssign pixel => pixel.toNat
  | .palRead index => index.val
  | .pwWrite color mask offset => color.toNat * 2 ^ 48 + mask.toNat * 2 ^ 40 + offset
  | .openDevice => 0
  | .closeDevice => 0
  | .mapDevice => 0
  | .unmapDevice => 0
  | .activate => 0
  | .deactivate => 0
  | .dirtyClear => 0
  | .palPush => 0
  | .pwBase => 0
  | .flush => 0

/-- The command word of a well-formed command (R91, R95). -/
def encode (i : Instr) : Word := BitVec.ofNat 64 (i.opcode.code * 2 ^ 56 + i.operandBits)

/-- The command the decoder reads from a table row's bits: one 64-bit word, the bits above `nbits` 0 (R90). -/
def decodeTableWord (nbits w : Nat) : Option Instr :=
  match decode (BitVec.ofNat 64 (w % 2 ^ nbits)) with
  | .ok i => some i
  | .error _ => none

end Sys2Proof
end

