-- ==== Sys2Proof/Machine/State.lean ====
section
/-! DEFINITION. The state of VGA16-PPM as plain data (10_state.md), the reasons a step can stop, and the state after
reset (70_reset_and_hazards.md rule R281). `none` in a VGA-side field is the spec's own condition `unknown`
(R35, R43, R45). -/

namespace Sys2Proof.Machine

/-- Sparse storage in one canonical form: (key, value) pairs, keys strictly rising. -/
abbrev Assoc (α : Type) := List (Nat × α)

/-- Video memory: the cell of plane p at offset off has the address off * 4 + p (R44, R62). -/
abbrev Memory := List Host.Cell

/-- The six VGA registers (R35). -/
inductive VgaReg where
  | sr | esr | mode | rot | mapMask | bm
  deriving DecidableEq, Repr

/-- A palette entry's three slots (R30, R45). -/
structure Slots where
  red : Slot
  green : Slot
  blue : Slot
  deriving DecidableEq, Repr

/-- The events of the output trace (R47). -/
inductive Event where
  | regWrite (r : VgaReg) (v : Byte)
  | vramRead (off : Nat)
  | vramWrite (off : Nat) (d : Byte)
  | palLoad (n : Nat) (entries : List Slots)
  | ttyGraphics
  deriving DecidableEq, Repr

/-- The palette mirror (R30, R31). -/
structure Palette where
  red : Vector Slot 16
  green : Vector Slot 16
  blue : Vector Slot 16
  /-- `palette_size`, at most PALETTE_CAPACITY in every state a run reaches (R162) -/
  size : Nat
  deriving DecidableEq, Repr

/-- The pixel surface while it exists (R32): the words written since QUERY, keyed y * width + x, and which draw of
SURFACE_INIT the other pixels hold (R200). -/
structure Surface where
  words : Assoc Pixel
  /-- the model's own: the draw number of the fresh contents (log entry 3) -/
  tag : Nat
  deriving DecidableEq, Repr

/-- The VGA-side state the block drives (R35 to R45); `none` is the spec's own `unknown` (log entry 14). -/
structure Vga where
  sr : Option Byte
  esr : Option Byte
  mode : Option Byte
  rot : Option Byte
  mapMask : Option Byte
  bm : Option Byte
  /-- `latch[0..3]` (R43) -/
  latch : Vector (Option Byte) 4
  /-- the four planes (R44) -/
  vram : Memory
  /-- the model's own: the draw number of the video memory's unwritten bytes (log entry 4) -/
  vramTag : Nat
  /-- the hardware palette (R45) -/
  dac : Vector (Option Slots) 16
  deriving DecidableEq, Repr

/-- The model's own record of a run's launch (R292): the parameter values of R6, the OPEN ones where the launch fixes them,
and the launch's answers to draws, oldest first. Whatever it leaves open is a free value of Config (log entries 2 and 7). -/
structure Launch where
  /-- the parameters of R6 that have a default -/
  params : Params
  /-- SURFACE_INIT, where fixed (R283) -/
  surfaceInit : Option Pixel
  /-- REGION_RECTS is the reference choice, the identity (R205) -/
  identityRects : Bool
  openOk : List Bool
  mapOk : List Bool
  vtIsActive : List Bool
  vramReadData : List Byte
  deriving DecidableEq, Repr

/-- What reaches the block or its VGA from outside, at a command boundary. -/
inductive Move where
  /-- the host writes a word to CMD (R22) -/
  | write (w : Word)
  /-- the environment resets the VGA (R261), at any boundary -/
  | vgaReset
  /-- the environment changes a plane byte (R261), only while inactive -/
  | vramChange (plane : Fin 4) (off : Nat) (b : Byte)
  /-- a VGA register becomes unknown (R261), only while inactive -/
  | regChange (r : VgaReg)
  /-- a DAC entry becomes unknown (R261), only while inactive -/
  | dacChange (i : Fin 16)
  /-- power-on, the block's one reset event (R280) -/
  | powerOn
  deriving DecidableEq, Repr

/-- The whole state. -/
structure State where
  /-- RESULT (R23) -/
  result : BitVec 64
  /-- `open` (R28) -/
  isOpen : Bool
  queried : Bool
  mapped : Bool
  active : Bool
  /-- geometry (R29) -/
  width : Nat
  height : Nat
  rowStride : Nat
  size : Nat
  palette : Palette
  surface : Option Surface
  /-- the dirty list, oldest first (R33) -/
  dirty : List Rect
  /-- the 16 mask rows of the last rasterized scanline (R34) -/
  mask : List (List Byte)
  vga : Vga
  /-- fault state (R46) -/
  fault : Bool
  faultCode : BitVec 4
  faultOpcode : BitVec 8
  /-- the output trace, oldest first (R47) -/
  trace : List Event
  /-- the model's own: the host's words and the environment's moves still to come (R292; log entry 1) -/
  inbox : List Move
  /-- the model's own (log entry 2) -/
  launch : Launch
  /-- the model's own: how many draws were made (log entry 2) -/
  draws : Nat
  deriving DecidableEq, Repr

/-- The reasons the model itself stops. The spec's faults (60_exceptions.md) are no stops: they are next states with
`fault` set (R256). -/
inductive Fault where
  /-- Raised by the VRAM access of a planar write at an offset no plane has (R60: a plane has VRAM_PLANE_BYTES bytes).
  Only in states no run reaches, where `size` exceeds a plane. Safe: the model stops. Log entry 11. -/
  | vramOutside (off : Nat)
  /-- Raised by a surface access while `queried` or `mapped` is set and no surface exists (R32: it exists while
  queried = 1). Only in states no run reaches. Safe: the model stops. Log entry 11. -/
  | noSurface
  deriving DecidableEq, Repr

/-- The reasons the model refuses. -/
inductive Refusal where
  /-- Raised by exec for a command that has no meaning yet. Safe. -/
  | notModelled (mnemonic : String)
  /-- Raised by the step at an environment move that R261 excludes: a VRAM, register or DAC change while active = 1
  (I27: 'no move in the model'). Safe: nothing is claimed past it. Log entry 9. -/
  | environmentWhileActive
  /-- Raised by the step at an environment's VRAM change at an offset no plane has (R44: a plane has VRAM_PLANE_BYTES
  bytes), which is no move of R261. Safe: nothing is claimed past it. Log entry 9. -/
  | noSuchByte (off : Nat)
  deriving DecidableEq, Repr

/-- The spec's fault codes (R250). -/
inductive FaultCode where
  | illegal | sequence | unmapped | outOfArea | outOfMap | baseState | geometry
  deriving DecidableEq, Repr

/-- How an internal function of a command ends: with a value, with `raise FAULT(code)` (R256: what was done before the
raise stands), or with a stop of the model. -/
inductive Run (α : Type) where
  | done (a : α) (s : State)
  | raised (c : FaultCode) (s : State)
  | stuck (f : Fault)
  deriving DecidableEq, Repr

/-- The palette after reset (R281). -/
def Palette.empty : Palette :=
  { red := Vector.replicate 16 0, green := Vector.replicate 16 0, blue := Vector.replicate 16 0, size := 0 }

/-- The VGA side as reset records it: everything unknown (R281). -/
def Vga.unknown (tag : Nat) : Vga :=
  { sr := none, esr := none, mode := none, rot := none, mapMask := none, bm := none,
    latch := Vector.replicate 4 none, vram := [], vramTag := tag, dac := Vector.replicate 16 none }

/-- A launch with the parameters' defaults that leaves the OPEN parameters and every draw open. -/
def Launch.allOpen : Launch :=
  { params := Params.default, surfaceInit := none, identityRects := false, openOk := [], mapOk := [],
    vtIsActive := [], vramReadData := [] }

/-- The state after reset (R281); the fields marked as the model's own in the type at the values of log entries 1, 2, 4,
5 and 7. -/
def State.reset : State :=
  { result := 0, isOpen := false, queried := false, mapped := false, active := false,
    width := 0, height := 0, rowStride := 0, size := 0,
    palette := Palette.empty, surface := none, dirty := [], mask := List.replicate 16 [],
    vga := Vga.unknown 0, fault := false, faultCode := 0, faultOpcode := 0, trace := [],
    inbox := [], launch := Launch.allOpen, draws := 0 }

/-- Where a run starts (R292): the reset state, a launch, and what the host and the environment will send. -/
def State.start (launch : Launch) (inbox : List Move) : State := { State.reset with launch := launch, inbox := inbox }

end Sys2Proof.Machine
end

