-- ==== Sys2Proof/Machine/Flags.lean ====
section
/-! DEFINITION. The flags: base_valid (10_state.md rule R42) and the STATUS register, a live view of the state
(R24, R25). -/

namespace Sys2Proof.Machine

/-- base_valid (R42): the four base-state registers are known to hold their base values. -/
def Vga.baseValid (k : Params) (v : Vga) : Bool :=
  v.esr == some k.baseEsr && v.mode == some k.baseMode && v.rot == some k.baseRotate && v.mapMask == some k.baseMapMask

/-- STATUS bit 4, BASE_VALID. -/
def State.baseValid (s : State) : Bool := s.vga.baseValid s.launch.params

/-- palette_full (R31). -/
def Palette.full (k : Params) (p : Palette) : Bool := p.size == k.paletteCapacity

/-- STATUS (R24): FAULT_OPCODE [31:24], FAULT_CODE [19:16], PSIZE [12:8], FAULT 5, BASE_VALID 4, ACTIVE 3, MAPPED 2,
QUERIED 1, OPEN 0; every other bit 0. -/
def State.status (s : State) : BitVec 32 :=
  s.faultOpcode ++ 0#4 ++ s.faultCode ++ 0#3 ++ BitVec.ofNat 5 s.palette.size ++ 0#2
    ++ BitVec.ofBool s.fault ++ BitVec.ofBool s.baseValid ++ BitVec.ofBool s.active ++ BitVec.ofBool s.mapped
    ++ BitVec.ofBool s.queried ++ BitVec.ofBool s.isOpen

/-- FAULT_CODE's number of each fault (60_exceptions.md rule R250). -/
def FaultCode.number : FaultCode → BitVec 4
  | .illegal => 1
  | .sequence => 2
  | .unmapped => 3
  | .outOfArea => 4
  | .outOfMap => 5
  | .baseState => 6
  | .geometry => 7

end Sys2Proof.Machine
end

