-- ==== Sys2Proof/Machine/Memory.lean ====
section
/-! DEFINITION. The storages: sparse lists in canonical form, the video memory's planes (20_memory.md rules R60 to R63)
and the pixel surface (44_surface_region.md rule R200). -/

namespace Sys2Proof.Machine

/-- The value stored under a key, if any. -/
def Assoc.lookup {α : Type} : Assoc α → Nat → Option α
  | [], _ => none
  | (k, v) :: rest, key => bif k == key then some v else Assoc.lookup rest key

/-- Store a value under a key, keeping the keys strictly rising. -/
def Assoc.store {α : Type} : Assoc α → Nat → α → Assoc α
  | [], key, v => [(key, v)]
  | (k, u) :: rest, key, v =>
    bif key == k then (key, v) :: rest
    else bif Nat.blt key k then (key, v) :: (k, u) :: rest
    else (k, u) :: Assoc.store rest key v

/-- Every key is at least `low`, the keys rise strictly, and every key is below `high`. -/
def Assoc.within {α : Type} (low high : Nat) : Assoc α → Bool
  | [] => true
  | (k, _) :: rest => decide (low ≤ k) && decide (k < high) && Assoc.within (k + 1) high rest

/-- The canonical form of the video memory: addresses strictly rising, each of a byte that exists in planes of
`planeBytes` bytes. An unlisted byte reads as a free value (`Vga.planeByte`), which no listed byte is known to equal. Log
entry 4. -/
def Memory.wf (planeBytes : Nat) (m : Memory) : Bool := Assoc.within 0 (planeBytes * 4) m

/-- The canonical form of a surface's words in a width x height head. -/
def Surface.wf (width height : Nat) (sf : Surface) : Bool := Assoc.within 0 (height * width) sf.words

/-- Where plane `p`, one of four, holds the byte at offset `off`. -/
def planeAddress (p off : Nat) : Nat := off * 4 + p

/-- `plane[p][off]` (R44): the byte last stored there, or the draw of the initial contents (I3). -/
def Vga.planeByte (v : Vga) (p off : Nat) : Byte :=
  match Assoc.lookup v.vram (planeAddress p off) with
  | some b => b
  | none => Config.initialVram v.vramTag (planeAddress p off)

/-- `plane[p][off] <- b`. -/
def Vga.setPlaneByte (v : Vga) (p off : Nat) (b : Byte) : Vga :=
  { v with vram := Assoc.store v.vram (planeAddress p off) b }

/-- Where the surface of a head of this width holds pixel (x, y): row by row. -/
def pixelKey (width x y : Nat) : Nat := y * width + x

/-- `Surf(x, y)` (R200): the word last written, or SURFACE_INIT, fixed by the launch or free. -/
def State.surf (s : State) (sf : Surface) (x y : Nat) : Pixel :=
  match Assoc.lookup sf.words (pixelKey s.width x y) with
  | some p => p
  | none => match s.launch.surfaceInit with
    | some p => p
    | none => Config.surfaceInit sf.tag x y

/-- `surface[y][x] <- pixel`. -/
def Surface.write (sf : Surface) (width x y : Nat) (pixel : Pixel) : Surface :=
  { sf with words := Assoc.store sf.words (pixelKey width x y) pixel }

end Sys2Proof.Machine
end

