-- ==== Sys2Proof/Machine/Operands.lean ====
section
/-! DEFINITION. What the operands denote: a pixel's channels, places in video memory, and what lies inside the head
(20_memory.md rules R61, R67, R69; 30_encoding.md rule R93; 42_palette.md rule R150). -/

namespace Sys2Proof.Machine

/-- A pixel's red channel, p[23:16] (R67, R150). -/
def redOf (p : Pixel) : Byte := p.extractLsb' 16 8

/-- A pixel's green channel, p[15:8]. -/
def greenOf (p : Pixel) : Byte := p.extractLsb' 8 8

/-- A pixel's blue channel, p[7:0]. -/
def blueOf (p : Pixel) : Byte := p.extractLsb' 0 8

/-- The byte column of pixel column x: x / 8, at PIXELS_PER_BYTE = 8 (R61). -/
def byteColumn (k : Params) (x : Nat) : Nat := x / k.pixelsPerByte

/-- The mask bit of pixel column x: MASK_BIT0 >> (x mod 8) (R69). -/
def pixelBit (k : Params) (x : Nat) : Byte := k.maskBit0 >>> (x % k.pixelsPerByte)

/-- off(x, y), the VRAM offset of pixel (x, y) (R61). -/
def State.vramOffset (s : State) (x y : Nat) : Nat := y * s.rowStride + byteColumn s.launch.params x

/-- Pixel (x, y) is inside the head (R201). -/
def State.pixelInArea (s : State) (x y : Nat) : Bool := decide (x < s.width) && decide (y < s.height)

/-- The rectangle is inside the head (R203, R220). -/
def State.rectInArea (s : State) (x y w h : Nat) : Bool := decide (x + w ≤ s.width) && decide (y + h ≤ s.height)

/-- The full area of the head (R129). -/
def State.fullArea (s : State) : Rect := { x := 0, y := 0, w := s.width, h := s.height }

end Sys2Proof.Machine
end

