-- ==== Sys2Proof/Machine/Ops.lean ====
section
/-! DEFINITION. The operations the commands share: events, register writes, draws, VRAM reads and writes (20_memory.md
rules R64, R65), the fault entry and the reset event (60_exceptions.md rule R256, 70_reset_and_hazards.md rule R280), and
how a command starts and ends (10_state.md rule R23). -/

namespace Sys2Proof.Machine

/-! ### Sequencing -/

/-- Go on with `f` where the first part ended with a value; a raise or a stop ends the whole. -/
def Run.andThen {α β : Type} (r : Run α) (f : α → State → Run β) : Run β :=
  match r with
  | .done a s => f a s
  | .raised c s => .raised c s
  | .stuck e => .stuck e

/-! ### Events and registers -/

/-- Emit(e) (R10, R47). -/
def State.emit (s : State) (e : Event) : State := { s with trace := s.trace ++ [e] }

/-- The condition of a VGA register. -/
def Vga.reg (v : Vga) : VgaReg → Option Byte
  | .sr => v.sr
  | .esr => v.esr
  | .mode => v.mode
  | .rot => v.rot
  | .mapMask => v.mapMask
  | .bm => v.bm

/-- Put a VGA register into a condition: a known byte or unknown (R35). -/
def Vga.setReg (v : Vga) (r : VgaReg) (c : Option Byte) : Vga :=
  match r with
  | .sr => { v with sr := c }
  | .esr => { v with esr := c }
  | .mode => { v with mode := c }
  | .rot => { v with rot := c }
  | .mapMask => { v with mapMask := c }
  | .bm => { v with bm := c }

/-- reg.R <- v (R10): the event and the register. -/
def State.writeReg (s : State) (r : VgaReg) (v : Byte) : State :=
  { s with vga := s.vga.setReg r (some v), trace := s.trace ++ [.regWrite r v] }

/-! ### Draws (R10, R292): the launch's next answer, or a free value where it has none (log entry 2) -/

/-- The answer to the draw `open_ok`. -/
def State.openAnswer (s : State) : Bool :=
  match s.launch.openOk with
  | a :: _ => a
  | [] => Config.openOk s.draws

/-- The answer to the draw `map_ok`. -/
def State.mapAnswer (s : State) : Bool :=
  match s.launch.mapOk with
  | a :: _ => a
  | [] => Config.mapOk s.draws

/-- The answer to the draw `vt_is_active`. -/
def State.vtAnswer (s : State) : Bool :=
  match s.launch.vtIsActive with
  | a :: _ => a
  | [] => Config.vtIsActive s.draws

/-- The answer to the draw `vram_read_data`. -/
def State.readDataAnswer (s : State) : Byte :=
  match s.launch.vramReadData with
  | a :: _ => a
  | [] => Config.vramReadData s.draws

/-- The state after the draw `open_ok`. -/
def State.afterOpenDraw (s : State) : State :=
  { s with launch := { s.launch with openOk := s.launch.openOk.tail }, draws := s.draws + 1 }

/-- The state after the draw `map_ok`. -/
def State.afterMapDraw (s : State) : State :=
  { s with launch := { s.launch with mapOk := s.launch.mapOk.tail }, draws := s.draws + 1 }

/-- The state after the draw `vt_is_active`. -/
def State.afterVtDraw (s : State) : State :=
  { s with launch := { s.launch with vtIsActive := s.launch.vtIsActive.tail }, draws := s.draws + 1 }

/-- The state after the draw `vram_read_data`. -/
def State.afterReadDraw (s : State) : State :=
  { s with launch := { s.launch with vramReadData := s.launch.vramReadData.tail }, draws := s.draws + 1 }

/-! ### The two VRAM accesses -/

/-- The latches after a read at `off`: one byte of each plane (R64). -/
def Vga.loadLatches (v : Vga) (off : Nat) : Vga :=
  { v with latch := #v[some (v.planeByte 0 off), some (v.planeByte 1 off), some (v.planeByte 2 off),
      some (v.planeByte 3 off)] }

/-- MemRead(off, 1) (R64): the state it leaves; the byte it returns is `State.readDataAnswer` before it. -/
def State.vramRead (s : State) (off : Nat) : State :=
  State.afterReadDraw { s with vga := s.vga.loadLatches off, trace := s.trace ++ [.vramRead off] }

/-- What one plane takes in a VRAM write in base state (R65): (src & BM) | (latch & ~BM), src from the SR bit. -/
def planeWriteValue (srBit : Bool) (bm latch : Byte) : Byte :=
  ((if srBit then 0xFF else 0x00) &&& bm) ||| (latch &&& ~~~bm)

/-- The byte behind a register or latch: the known byte, or a free value where it is unknown (R35, R43, I4);
`which` tells the registers and latches apart. -/
def State.knownOr (s : State) (which : Nat) (c : Option Byte) : Byte :=
  match c with
  | some b => b
  | none => Config.unknownByte s.draws which

/-- plane[p][off] after a VRAM write at `off` (R65), or a free value where the launch's base values are not those the rule
is defined for (log entry 17). -/
def State.writtenByte (s : State) (p : Fin 4) : Byte :=
  bif s.launch.params.standardBase then
    planeWriteValue ((s.knownOr 0 s.vga.sr).getLsbD p.val) (s.knownOr 1 s.vga.bm) (s.knownOr (2 + p.val) s.vga.latch[p])
  else Config.otherBaseByte s.draws p.val

/-- MemWrite(off, 1, d) in base state (R65): all four planes; the data byte reaches only the event. -/
def State.vramWrite (s : State) (off : Nat) (d : Byte) : State :=
  { s with
    vga := (((s.vga.setPlaneByte 0 off (s.writtenByte 0)).setPlaneByte 1 off (s.writtenByte 1)).setPlaneByte 2 off
      (s.writtenByte 2)).setPlaneByte 3 off (s.writtenByte 3)
    trace := s.trace ++ [.vramWrite off d] }

/-! ### Fault entry, and the reset event beside it -/

/-- FaultEntry(code) for the command with opcode field `op` (R252, R256): what was done before stands. -/
def State.enterFault (s : State) (c : FaultCode) (op : BitVec 8) : State :=
  { s with fault := true, faultCode := c.number, faultOpcode := op }

/-- Power-on (R280, R281): the only way out of a fault (R257; there is no trap return). Every element of the block takes
its reset value and the trace starts empty; the VGA side, which reset does not touch, is from now on unknown, its memory a
fresh draw. What the host and the environment still send, and the launch's answers, stay. Log entry 8. -/
def State.powerOn (s : State) : State :=
  { State.reset with
    inbox := s.inbox, launch := s.launch, draws := s.draws + 1, vga := Vga.unknown (s.draws + 1) }

/-! ### A command's start and end -/

/-- How a command ends: the next state, the state of the fault entry (R256), or a stop of the model. -/
def finish (op : BitVec 8) (r : Run Unit) : Host.Outcome State Fault Refusal :=
  match r with
  | .done _ s => .next s
  | .raised c s => .next (s.enterFault c op)
  | .stuck e => .fault e

/-- The opcode field of a command's word, w[63:56] (R252). -/
def opcodeByte (i : Instr) : BitVec 8 := BitVec.ofNat 8 i.opcode.code

/-- Execute a decoded command: RESULT <- 0 (R23; log entry 15), its rule, and the fault entry where the rule raises. -/
def runCommand (i : Instr) (body : State → Run Unit) (s : State) : Host.Outcome State Fault Refusal :=
  finish (opcodeByte i) (body { s with result := 0 })

end Sys2Proof.Machine
end

