-- ==== Sys2Proof/Machine/Drawing.lean ====
section
/-! DEFINITION. The pixel surface and the dirty region (44_surface_region.md): PIX_WRITE, PIX_READ, DIRTY_ADD,
DIRTY_CLEAR and REGION_RECTS. -/

namespace Sys2Proof.Machine

/-- REGION_RECTS(dirty) (R205): the identity where the launch names it, else any conforming choice. -/
def State.regionRects (s : State) : List Rect :=
  bif s.launch.identityRects then s.dirty else Config.regionRects s.dirty

/-- The surface commands' checks (R201, R202): SEQUENCE with no surface, OUT_OF_AREA outside the head; then the rule,
given the surface. -/
def State.withPixel (s : State) (x y : Nat) (rule : Surface → State) : Run Unit :=
  bif !s.queried then .raised .sequence s
  else bif !s.pixelInArea x y then .raised .outOfArea s
  else match s.surface with
    | none => .stuck .noSurface
    | some sf => .done () (rule sf)

/-- PIX_WRITE's rule (R201). -/
def State.pixWrite (s : State) (x y : Nat) (pixel : Pixel) : Run Unit :=
  s.withPixel x y fun sf => { s with surface := some (sf.write s.width x y pixel) }

/-- PIX_READ's rule (R202). -/
def State.pixRead (s : State) (x y : Nat) : Run Unit :=
  s.withPixel x y fun sf => { s with result := (s.surf sf x y).setWidth 64 }

/-- DIRTY_ADD's rule (R203). -/
def State.dirtyAdd (s : State) (x y w h : Nat) : Run Unit :=
  bif !s.queried then .raised .sequence s
  else bif !s.rectInArea x y w h then .raised .outOfArea s
  else .done () { s with dirty := s.dirty ++ [{ x := x, y := y, w := w, h := h }] }

/-- DIRTY_CLEAR's rule (R204). -/
def State.dirtyClear (s : State) : Run Unit :=
  bif !s.queried then .raised .sequence s else .done () { s with dirty := [] }

/-- PIX_WRITE (R201). -/
def execPixWrite (x y : Nat) (pixel : Pixel) (s : State) : Host.Outcome State Fault Refusal :=
  runCommand (.pixWrite x y pixel) (fun t => t.pixWrite x y pixel) s

/-- PIX_READ (R202). -/
def execPixRead (x y : Nat) (s : State) : Host.Outcome State Fault Refusal :=
  runCommand (.pixRead x y) (fun t => t.pixRead x y) s

/-- DIRTY_ADD (R203). -/
def execDirtyAdd (x y w h : Nat) (s : State) : Host.Outcome State Fault Refusal :=
  runCommand (.dirtyAdd x y w h) (fun t => t.dirtyAdd x y w h) s

/-- DIRTY_CLEAR (R204). -/
def execDirtyClear (s : State) : Host.Outcome State Fault Refusal :=
  runCommand .dirtyClear State.dirtyClear s

end Sys2Proof.Machine
end

