-- ==== Sys2Proof/Machine/Palette.lean ====
section
/-! DEFINITION. The palette manager (42_palette.md): the search, insertion and push, and the commands PAL_ASSIGN, PAL_PUSH
and PAL_READ. -/

namespace Sys2Proof.Machine

/-- The entry i of the mirror. -/
def Palette.entry (p : Palette) (i : Nat) : Slots :=
  { red := p.red.getD i 0, green := p.green.getD i 0, blue := p.blue.getD i 0 }

/-- One channel's test at shift `sh`: (slot >> SLOT_SHIFT) >> sh = c >> sh (R151). -/
def channelMatches (k : Params) (slot : Slot) (c : Byte) (sh : Nat) : Bool :=
  (slot.toNat >>> k.slotShift) >>> sh == c.toNat >>> sh

/-- Match(i, r, g, b, sh) for the channels of `p` (R151). -/
def Palette.entryMatches (k : Params) (pal : Palette) (i : Nat) (p : Pixel) (sh : Nat) : Bool :=
  channelMatches k (pal.entry i).red (redOf p) sh && channelMatches k (pal.entry i).green (greenOf p) sh
    && channelMatches k (pal.entry i).blue (blueOf p) sh

/-- The first entry below palette_size that matches at shift `sh` (R153: first match wins). -/
def Palette.firstMatch (k : Params) (pal : Palette) (p : Pixel) (sh : Nat) : Option Nat :=
  (List.range pal.size).find? fun i => pal.entryMatches k i p sh

/-- An inserted slot: zext16(c8) << SLOT_SHIFT (R152). -/
def slotOf (k : Params) (c : Byte) : Slot := c.setWidth 16 <<< k.slotShift

/-- The palette with the pixel's channels inserted at palette_size (R152). -/
def Palette.insert (k : Params) (pal : Palette) (p : Pixel) : Palette :=
  { red := pal.red.setIfInBounds pal.size (slotOf k (redOf p))
    green := pal.green.setIfInBounds pal.size (slotOf k (greenOf p))
    blue := pal.blue.setIfInBounds pal.size (slotOf k (blueOf p))
    size := pal.size + 1 }

/-- The entries 0..palette_size-1, as a push carries them (R156). -/
def Palette.entries (pal : Palette) : List Slots := (List.range pal.size).map pal.entry

/-- dac[i] <- E[i] for the entries from index `i` on. -/
def loadDac (dac : Vector (Option Slots) 16) (i : Nat) : List Slots → Vector (Option Slots) 16
  | [] => dac
  | e :: rest => loadDac (dac.setIfInBounds i (some e)) (i + 1) rest

/-- SetPalette() (R156): nothing while closed or empty; else one PAL_LOAD of every entry. -/
def State.setPalette (s : State) : State :=
  bif !s.isOpen || s.palette.size == 0 then s
  else { s with
    vga := { s.vga with dac := loadDac s.vga.dac 0 s.palette.entries }
    trace := s.trace ++ [.palLoad s.palette.size s.palette.entries] }

/-- Insert(palette_size, r, g, b) (R152), its push included. -/
def State.insertColor (s : State) (p : Pixel) : State :=
  State.setPalette { s with palette := s.palette.insert s.launch.params p }

/-- The passes of AssignIndex still to come (R153), one shift each; when none is left, the fallback (R155). -/
def State.assignPasses (s : State) (p : Pixel) : List Nat → Nat × State
  | [] => (s.palette.size - 1, s)
  | sh :: looser =>
    match s.palette.firstMatch s.launch.params p sh with
    | some i => (i, s)
    | none =>
      bif Nat.blt s.palette.size s.launch.params.paletteCapacity then (s.palette.size, s.insertColor p)
      else s.assignPasses p looser

/-- The shifts SHIFT_FIRST..SHIFT_LAST, ascending (R153). -/
def searchShifts (k : Params) : List Nat := List.range' k.shiftFirst (k.shiftLast + 1 - k.shiftFirst)

/-- AssignIndex(p) (R153): the index, and the state with the palette possibly grown. -/
def State.assignIndex (s : State) (p : Pixel) : Nat × State := s.assignPasses p (searchShifts s.launch.params)

/-- PaletteReset() (R126): the mirror empty; no event. -/
def State.paletteReset (s : State) : State := { s with palette := Palette.empty }

/-! ### The commands -/

/-- RESULT <- AssignIndex(PIXEL) (R154). -/
def State.palAssign (s : State) (p : Pixel) : State :=
  { (s.assignIndex p).2 with result := BitVec.ofNat 64 (s.assignIndex p).1 }

/-- RESULT <- {0x0000, red, green, blue} of entry INDEX (R158). -/
def State.palRead (s : State) (i : Fin 16) : State :=
  { s with result := 0#16 ++ s.palette.red[i] ++ s.palette.green[i] ++ s.palette.blue[i] }

/-- PAL_ASSIGN (R154). -/
def execPalAssign (p : Pixel) (s : State) : Host.Outcome State Fault Refusal :=
  runCommand (.palAssign p) (fun t => .done () (t.palAssign p)) s

/-- PAL_PUSH (R157). -/
def execPalPush (s : State) : Host.Outcome State Fault Refusal :=
  runCommand .palPush (fun t => .done () t.setPalette) s

/-- PAL_READ (R158). -/
def execPalRead (i : Fin 16) (s : State) : Host.Outcome State Fault Refusal :=
  runCommand (.palRead i) (fun t => .done () (t.palRead i)) s

end Sys2Proof.Machine
end

