-- ==== Sys2Proof/Machine/Planar.lean ====
section
/-! DEFINITION. The planar write engine (43_planar_write.md): WriteBase, PlanarWrite, and the commands PW_BASE and
PW_WRITE. -/

namespace Sys2Proof.Machine

/-- WriteBase() (R180): the four base-state registers, always all four, in this order. -/
def State.writeBase (s : State) : State :=
  let k := s.launch.params
  (((s.writeReg .esr k.baseEsr).writeReg .mode k.baseMode).writeReg .rot k.baseRotate).writeReg .mapMask k.baseMapMask

/-- The effects of PlanarWrite after its checks (R182): SR, BM, the read that loads the latches, and the write of the
byte read ORed with RMW_OR_VALUE. -/
def State.planarEffects (s : State) (off : Nat) (c : BitVec 4) (m : Byte) : State :=
  let t := (s.writeReg .sr (c.setWidth 8)).writeReg .bm m
  (t.vramRead off).vramWrite off (t.readDataAnswer ||| s.launch.params.rmwOrValue)

/-- PlanarWrite(off, c, m) (R182): UNMAPPED, BASE_STATE, OUT_OF_MAP, then the effects. The check against a plane's bytes
is the model's (log entry 11): a run never has size above VRAM_PLANE_BYTES. -/
def State.planarWrite (s : State) (off : Nat) (c : BitVec 4) (m : Byte) : Run Unit :=
  bif !s.mapped then .raised .unmapped s
  else bif !s.baseValid then .raised .baseState s
  else bif Nat.ble s.size off then .raised .outOfMap s
  else bif Nat.ble s.launch.params.vramPlaneBytes off then .stuck (.vramOutside off)
  else .done () (s.planarEffects off c m)

/-- PW_BASE's rule (R181). -/
def State.pwBase (s : State) : Run Unit :=
  bif !s.mapped then .raised .unmapped s else .done () s.writeBase

/-- PW_BASE (R181). -/
def execPwBase (s : State) : Host.Outcome State Fault Refusal :=
  runCommand .pwBase State.pwBase s

/-- PW_WRITE (R183). -/
def execPwWrite (color : BitVec 4) (mask : Byte) (offset : Nat) (s : State) : Host.Outcome State Fault Refusal :=
  runCommand (.pwWrite color mask offset) (fun t => t.planarWrite offset color mask) s

end Sys2Proof.Machine
end

