-- ==== Sys2Proof/Machine/Raster.lean ====
section
/-! DEFINITION. The dirty-region rasterizer and the flush (45_flush.md): RasterArea, FlushHead, and the commands RAST_AREA
and FLUSH. The sequencer's state (10_state.md R27) is the recursion's. -/

namespace Sys2Proof.Machine

/-! ### Mask rows (R34, R221) -/

/-- All 16 rows zeroed, row_stride bytes each. -/
def zeroMask (stride : Nat) : List (List Byte) := List.replicate Config.maskRows (List.replicate stride 0)

/-- mask[c][bi]; 0 outside the rows. -/
def maskByte (mask : List (List Byte)) (c bi : Nat) : Byte := (mask.getD c []).getD bi 0

/-- mask[c][bi] <- mask[c][bi] | bit. -/
def setMaskBit (mask : List (List Byte)) (c bi : Nat) (bit : Byte) : List (List Byte) :=
  mask.modify c fun row => row.modify bi fun b => b ||| bit

/-- One pixel of a scanline (R220): resolve its colour, then set its bit in that colour's row. -/
def State.maskPixel (s : State) (sf : Surface) (y x : Nat) : State :=
  let r := s.assignIndex (s.surf sf x y)
  { r.2 with mask := setMaskBit r.2.mask r.1 (byteColumn s.launch.params x) (pixelBit s.launch.params x) }

/-- The pixels of a scanline, in the given order. -/
def State.maskPixels (s : State) (sf : Surface) (y : Nat) : List Nat → State
  | [] => s
  | x :: xs => (s.maskPixel sf y x).maskPixels sf y xs

/-- The scanline's masks: zeroed, then built left to right (R220, R221). -/
def State.buildMasks (s : State) (sf : Surface) (y x0 w : Nat) : State :=
  State.maskPixels { s with mask := zeroMask s.rowStride } sf y (List.range' x0 w)

/-! ### Planar writes of a scanline (R222) -/

/-- The (colour, byte) pairs of a scanline, colour-major: colours 0..15, and within one the bytes b0..b1 (R222, R223). -/
def scanlineBytes (k : Params) (x0 w : Nat) : List (Nat × Nat) :=
  (List.range Config.maskRows).flatMap fun c =>
    (List.range' (byteColumn k x0) (byteColumn k (x0 + w - 1) + 1 - byteColumn k x0)).map fun bi => (c, bi)

/-- One planar write for each pair whose mask byte is nonzero (R220). -/
def State.writeMasks (s : State) (y : Nat) : List (Nat × Nat) → Run Unit
  | [] => .done () s
  | (c, bi) :: rest =>
    bif maskByte s.mask c bi == 0 then s.writeMasks y rest
    else (s.planarWrite (y * s.rowStride + bi) (BitVec.ofNat 4 c) (maskByte s.mask c bi)).andThen fun _ t =>
      t.writeMasks y rest

/-- One scanline (R220): its masks, then its writes. -/
def State.rasterRow (s : State) (sf : Surface) (x0 w y : Nat) : Run Unit :=
  (s.buildMasks sf y x0 w).writeMasks y (scanlineBytes s.launch.params x0 w)

/-- The scanlines, in the given order. -/
def State.rasterRows (s : State) (sf : Surface) (x0 w : Nat) : List Nat → Run Unit
  | [] => .done () s
  | y :: ys => (s.rasterRow sf x0 w y).andThen fun _ t => t.rasterRows sf x0 w ys

/-- RasterArea(x0, y0, w, h) (R220): UNMAPPED, OUT_OF_AREA, BASE_STATE; nothing for an empty rectangle; else its
scanlines top to bottom. The check that a surface exists is the model's (log entry 11). -/
def State.rasterArea (s : State) (x0 y0 w h : Nat) : Run Unit :=
  bif !s.mapped then .raised .unmapped s
  else bif !s.rectInArea x0 y0 w h then .raised .outOfArea s
  else bif !s.baseValid then .raised .baseState s
  else bif w == 0 || h == 0 then .done () s
  else match s.surface with
    | none => .stuck .noSurface
    | some sf => s.rasterRows sf x0 w (List.range' y0 h)

/-! ### Flushing the head -/

/-- Step 4 of a flush (R225): the rectangles, in list order. -/
def State.rasterRects (s : State) : List Rect → Run Unit
  | [] => .done () s
  | r :: rs => (s.rasterArea r.x r.y r.w r.h).andThen fun _ t => t.rasterRects rs

/-- Steps 1 to 3 of a flush (R225): TTY_GRAPHICS, the base state, the palette push. -/
def State.flushStart (s : State) : State := ((s.emit .ttyGraphics).writeBase).setPalette

/-- Steps 1 to 5 of a flush (R225) over a given rectangle list; the region is cleared once, after the last (R228). -/
def State.flushOver (s : State) (rects : List Rect) : Run Unit :=
  (s.flushStart.rasterRects rects).andThen fun _ t => .done () { t with dirty := [] }

/-- FlushHead() (R225): nothing while inactive (R227), UNMAPPED, else the steps over REGION_RECTS(dirty). -/
def State.flushHead (s : State) : Run Unit :=
  bif !s.active then .done () s
  else bif !s.mapped then .raised .unmapped s
  else s.flushOver s.regionRects

/-- RAST_AREA (R224). -/
def execRastArea (x y w h : Nat) (s : State) : Host.Outcome State Fault Refusal :=
  runCommand (.rastArea x y w h) (fun t => t.rasterArea x y w h) s

/-- FLUSH (R226). -/
def execFlush (s : State) : Host.Outcome State Fault Refusal :=
  runCommand .flush State.flushHead s

end Sys2Proof.Machine
end

