-- ==== Sys2Proof/Machine/Lifecycle.lean ====
section
/-! DEFINITION. The lifecycle commands (41_lifecycle.md): OPEN, CLOSE, QUERY, MAP, UNMAP, ACTIVATE, DEACTIVATE. -/

namespace Sys2Proof.Machine

/-- OPEN's rule (R121): SEQUENCE when open; the draw open_ok; RESULT 1 and open on success. -/
def State.openDevice (s : State) : Run Unit :=
  bif s.isOpen then .raised .sequence s
  else .done () { s.afterOpenDraw with
    isOpen := s.openAnswer, result := bif s.openAnswer then 1 else s.result }

/-- CLOSE's rule (R122). -/
def State.closeDevice (s : State) : Run Unit :=
  bif !s.isOpen || s.mapped then .raised .sequence s
  else .done () { s with
    isOpen := false, queried := false, active := false,
    width := 0, height := 0, rowStride := 0, size := 0, surface := none, dirty := [] }

/-- Compatible(TYPE, AUX, VISUAL, BPP) (R124). -/
def compatible (k : Params) (type aux visual bpp : Nat) : Bool :=
  type == k.typeVgaPlanes && aux == k.auxVga4 && visual == k.visualPseudocolor && bpp == k.reqBpp

/-- GeometryOK(W, H, STRIDE) (R125): STRIDE >= (W + 7) / 8, at PIXELS_PER_BYTE = 8, and H * STRIDE <= VRAM_PLANE_BYTES. -/
def geometryOk (k : Params) (w h stride : Nat) : Bool :=
  Nat.ble ((w + (k.pixelsPerByte - 1)) / k.pixelsPerByte) stride && Nat.ble (h * stride) k.vramPlaneBytes

/-- The head a successful QUERY sets up (R123): geometry, a fresh surface of SURFACE_INIT, nothing dirty, the palette
reset, RESULT 1. -/
def State.setupHead (s : State) (w h stride : Nat) : State :=
  State.paletteReset { s with
    width := w, height := h, rowStride := stride, size := h * stride,
    surface := some { words := [], tag := s.draws }, draws := s.draws + 1, dirty := [], queried := true, result := 1 }

/-- QUERY's rule (R123): SEQUENCE; an incompatible mode is refused with RESULT 0 and no change; GEOMETRY; else the head. -/
def State.queryDevice (s : State) (w h stride type aux visual bpp : Nat) : Run Unit :=
  bif !s.isOpen || s.queried then .raised .sequence s
  else bif !compatible s.launch.params type aux visual bpp then .done () s
  else bif !geometryOk s.launch.params w h stride then .raised .geometry s
  else .done () (s.setupHead w h stride)

/-- Activate() (R129): SEQUENCE when not mapped; active, the full area dirty, a flush. -/
def State.activateHead (s : State) : Run Unit :=
  bif !s.mapped then .raised .sequence s
  else State.flushHead { s with active := true, dirty := s.dirty ++ [s.fullArea] }

/-- MAP's rule (R127): SEQUENCE; the draw map_ok; mapped and RESULT 1; the draw vt_is_active, and Activate() where true. -/
def State.mapDevice (s : State) : Run Unit :=
  bif !s.queried || s.mapped then .raised .sequence s
  else bif !s.mapAnswer then .done () s.afterMapDraw
  else
    let t := { s.afterMapDraw with mapped := true, result := 1 }
    bif t.vtAnswer then t.afterVtDraw.activateHead else .done () t.afterVtDraw

/-- UNMAP's rule (R128): only `mapped` changes. -/
def State.unmapDevice (s : State) : State := { s with mapped := false }

/-- DEACTIVATE's rule (R130). -/
def State.deactivate (s : State) : State := { s with active := false }

/-- OPEN (R121). -/
def execOpenDevice (s : State) : Host.Outcome State Fault Refusal :=
  runCommand .openDevice State.openDevice s

/-- CLOSE (R122). -/
def execCloseDevice (s : State) : Host.Outcome State Fault Refusal :=
  runCommand .closeDevice State.closeDevice s

/-- QUERY (R123). -/
def execQuery (w h stride type aux visual bpp : Nat) (s : State) : Host.Outcome State Fault Refusal :=
  runCommand (.query w h stride type aux visual bpp) (fun t => t.queryDevice w h stride type aux visual bpp) s

/-- MAP (R127). -/
def execMapDevice (s : State) : Host.Outcome State Fault Refusal :=
  runCommand .mapDevice State.mapDevice s

/-- UNMAP (R128). -/
def execUnmapDevice (s : State) : Host.Outcome State Fault Refusal :=
  runCommand .unmapDevice (fun t => .done () t.unmapDevice) s

/-- ACTIVATE (R129). -/
def execActivate (s : State) : Host.Outcome State Fault Refusal :=
  runCommand .activate State.activateHead s

/-- DEACTIVATE (R130). -/
def execDeactivate (s : State) : Host.Outcome State Fault Refusal :=
  runCommand .deactivate (fun t => .done () t.deactivate) s

end Sys2Proof.Machine
end

