-- ==== Sys2Proof/Machine/Dispatch.lean ====
section
/-! DEFINITION. exec: one arm per command, each a direct call of its meaning. -/

namespace Sys2Proof.Machine

/-- What a decoded command does, once the block takes it (30_encoding.md R96: 'execute the rule of op'). -/
def exec (i : Instr) (s : State) : Host.Outcome State Fault Refusal :=
  match i with
  | .openDevice => Sys2Proof.Machine.execOpenDevice s
  | .closeDevice => Sys2Proof.Machine.execCloseDevice s
  | .query w h stride type aux visual bpp => Sys2Proof.Machine.execQuery w h stride type aux visual bpp s
  | .mapDevice => Sys2Proof.Machine.execMapDevice s
  | .unmapDevice => Sys2Proof.Machine.execUnmapDevice s
  | .activate => Sys2Proof.Machine.execActivate s
  | .deactivate => Sys2Proof.Machine.execDeactivate s
  | .pixWrite x y pixel => Sys2Proof.Machine.execPixWrite x y pixel s
  | .pixRead x y => Sys2Proof.Machine.execPixRead x y s
  | .dirtyAdd x y w h => Sys2Proof.Machine.execDirtyAdd x y w h s
  | .dirtyClear => Sys2Proof.Machine.execDirtyClear s
  | .palAssign pixel => Sys2Proof.Machine.execPalAssign pixel s
  | .palPush => Sys2Proof.Machine.execPalPush s
  | .palRead index => Sys2Proof.Machine.execPalRead index s
  | .pwBase => Sys2Proof.Machine.execPwBase s
  | .pwWrite color mask offset => Sys2Proof.Machine.execPwWrite color mask offset s
  | .rastArea x y w h => Sys2Proof.Machine.execRastArea x y w h s
  | .flush => Sys2Proof.Machine.execFlush s

end Sys2Proof.Machine
end

