-- ==== Sys2Proof/Machine/Fetch.lean ====
section
/-! DEFINITION. What the next step is about (10_state.md R22, R26; 60_exceptions.md R255, R258, R261): the host's next word
or the environment's next move, taken from the inbox. -/

namespace Sys2Proof.Machine

/-- What a step has to do. -/
inductive Fetched where
  /-- execute this command from this state -/
  | command (i : Instr) (s : State)
  /-- nothing is left to execute: the outcome -/
  | settled (o : Host.Outcome State Fault Refusal)

/-- The state of a CMD write that decode refuses (R96, R252): ILLEGAL, FAULT_OPCODE the opcode field, RESULT kept (R23). -/
def State.illegal (s : State) (w : Word) : State := s.enterFault .illegal (BitVec.ofNat 8 (opField w))

/-- A host write of `w` to CMD: discarded while halted (R258), then decoded (R96). -/
def State.takeWord (s : State) (w : Word) : Fetched :=
  bif s.fault then .settled (.next s)
  else match decode w with
    | .ok i => .command i s
    | .error _ => .settled (.next (s.illegal w))

/-- A move the environment may make only while inactive (R261); otherwise it is outside what the spec promises (R267). -/
def State.whileInactive (s t : State) : Host.Outcome State Fault Refusal :=
  bif s.active then .refused .environmentWhileActive else .next t

/-- A VRAM change (R261): while inactive, of a byte the plane has (R44). -/
def State.changeByte (s : State) (p : Fin 4) (off : Nat) (b : Byte) : Host.Outcome State Fault Refusal :=
  bif Nat.blt off s.launch.params.vramPlaneBytes then
    s.whileInactive { s with vga := s.vga.setPlaneByte p.val off b }
  else .refused (.noSuchByte off)

/-- VGA reset (R261): the six registers, the latches and the DAC become unknown; the planes keep their bytes. -/
def Vga.reset (v : Vga) : Vga :=
  { Vga.unknown v.vramTag with vram := v.vram }

/-- What a move of the host or the environment leads to, from the state that has taken it. -/
def State.takeMove (s : State) : Move → Fetched
  | .write w => s.takeWord w
  | .vgaReset => .settled (.next { s with vga := s.vga.reset })
  | .vramChange p off b => .settled (s.changeByte p off b)
  | .regChange r => .settled (s.whileInactive { s with vga := s.vga.setReg r none })
  | .dacChange i => .settled (s.whileInactive { s with vga := { s.vga with dac := s.vga.dac.set i none } })
  | .powerOn => .settled (.next s.powerOn)

/-- Take the next move; with none the block is idle and holds all state (R266). -/
def State.fetch (s : State) : Fetched :=
  match s.inbox with
  | [] => .settled (.next s)
  | m :: rest => State.takeMove { s with inbox := rest } m

/-- The command word of a table row's bits: the bits above `nbits` 0 (R90). -/
def tableWord (nbits w : Nat) : Word := BitVec.ofNat 64 (w % 2 ^ nbits)

/-- The host's next word is `w`. -/
def State.withNextWord (s : State) (w : Word) : State := { s with inbox := .write w :: s.inbox }

/-! ### The host's window (10_state.md R22 to R24, 20_memory.md R60) -/

/-- The three host registers. -/
inductive HostReg where
  | cmd | result | status
  deriving DecidableEq, Repr

/-- Their offsets in the block-local window (R60). -/
def HostReg.offset : HostReg → Nat
  | .cmd => 0x00
  | .result => 0x08
  | .status => 0x10

/-- What a host read returns, with no side effect (R22 to R24, R267): CMD reads 0, STATUS its 32 bits. -/
def State.hostRead (s : State) : HostReg → BitVec 64
  | .cmd => 0
  | .result => s.result
  | .status => s.status.setWidth 64

end Sys2Proof.Machine
end

