-- ==== Sys2Proof/Machine/Step.lean ====
section
/-! DEFINITION. One step: take the next move from the inbox and, where it is a command the block executes, execute it. -/

namespace Sys2Proof.Machine

/-- One step of the machine: one move of the host or the environment, or an idle step. -/
def step (s : State) : Host.Outcome State Fault Refusal :=
  match s.fetch with
  | .command i t => exec i t
  | .settled o => o

/-- The state whose next step takes the command with these table bits: it is the host's next word to CMD. Log entry 1. -/
def State.withFetchWord (s : State) (nbits w : Nat) : State := s.withNextWord (tableWord nbits w)

end Sys2Proof.Machine
end

