-- ==== Sys2Proof/Machine/Observe.lean ====
section
/-! DEFINITION. What is observed of a state: the pixel view of video memory and the screen (20_memory.md rules R63 and R80),
and the port view of register writes (43_planar_write.md rule R187). -/

namespace Sys2Proof.Machine

/-- The colour index at bit 7 - k of the byte at `off`, plane p giving bit p (R62, R63). -/
def Vga.pixelAt (v : Vga) (off k : Nat) : BitVec 4 :=
  BitVec.ofBool ((v.planeByte 3 off).getLsbD (7 - k)) ++ BitVec.ofBool ((v.planeByte 2 off).getLsbD (7 - k))
    ++ BitVec.ofBool ((v.planeByte 1 off).getLsbD (7 - k)) ++ BitVec.ofBool ((v.planeByte 0 off).getLsbD (7 - k))

/-- index(x, y) (R63). -/
def State.index (s : State) (x y : Nat) : BitVec 4 :=
  s.vga.pixelAt (s.vramOffset x y) (x % s.launch.params.pixelsPerByte)

/-- What the screen shows at pixel (x, y): dac[index(x, y)], `none` where that entry is unknown (R80). -/
def State.shown (s : State) (x y : Nat) : Option Slots := s.vga.dac[(s.index x y).toFin]

/-- A write of a byte to an I/O port. -/
structure PortWrite where
  port : Nat
  value : Byte
  deriving DecidableEq, Repr

/-- The index port, data port and index of a VGA register [from general knowledge, not in source] (R187, GK1). No rule
depends on them. Log entry 13. -/
def VgaReg.ports : VgaReg → Nat × Nat × Byte
  | .sr => (0x3CE, 0x3CF, 0)
  | .esr => (0x3CE, 0x3CF, 1)
  | .rot => (0x3CE, 0x3CF, 3)
  | .mode => (0x3CE, 0x3CF, 5)
  | .bm => (0x3CE, 0x3CF, 8)
  | .mapMask => (0x3C4, 0x3C5, 2)

/-- A REG_WRITE as an index write then a data write (R187). -/
def VgaReg.portWrites (r : VgaReg) (v : Byte) : List PortWrite :=
  [{ port := r.ports.1, value := r.ports.2.2 }, { port := r.ports.2.1, value := v }]

/-! ### The end of a run (70_reset_and_hazards.md rule R292) -/

/-- The move is the host's word, not the environment's. -/
def Move.isWord : Move → Bool
  | .write _ => true
  | .vgaReset => false
  | .vramChange _ _ _ => false
  | .regChange _ => false
  | .dacChange _ => false
  | .powerOn => false

/-- The run has ended: no word is pending. A move of the environment that would follow the last word is no part of it. -/
def State.ended (s : State) : Bool := s.inbox.all fun m => !m.isWord

/-- A run that ended here is faulted, and no final state of a claim that assumes no fault. -/
def State.faulted (s : State) : Bool := s.ended && s.fault

/-- The observed image: index(x, y) over the head, row by row. -/
def State.image (s : State) : List (List (BitVec 4)) :=
  (List.range s.height).map fun y => (List.range s.width).map fun x => s.index x y

end Sys2Proof.Machine
end

