-- ==== Sys2Proof/Safety.lean ====
section
/-! DEFINITION. The terms claims use: the invariant of the states a run reaches, what the block's internal state is, and
which faults a command can raise. -/

namespace Sys2Proof.Machine

/-- The lifecycle flags are on the path of R28: queried implies open, mapped implies queried, and a surface exists exactly
while queried (R32). -/
structure State.LifecycleOk (s : State) : Prop where
  queried_open : s.queried = true → s.isOpen = true
  mapped_queried : s.mapped = true → s.queried = true
  surface_iff : s.surface.isSome = s.queried

/-- The geometry is zero or passed GeometryOK (R29, R125), within its field widths (R94). -/
structure State.GeometryOk (s : State) : Prop where
  width_lt : s.width < 2 ^ Config.coordBits
  height_lt : s.height < 2 ^ Config.coordBits
  stride_lt : s.rowStride < 2 ^ Config.coordBits
  size_eq : s.size = s.height * s.rowStride
  size_le : s.size ≤ s.launch.params.vramPlaneBytes
  stride_ge : (s.width + 7) / 8 ≤ s.rowStride
  closed : s.queried = false → s.width = 0 ∧ s.height = 0 ∧ s.rowStride = 0

/-- Two entries agree on all three channels at a shift. -/
def Palette.sameClass (k : Params) (p : Palette) (i j sh : Nat) : Prop :=
  ((p.entry i).red.toNat >>> k.slotShift) >>> sh = ((p.entry j).red.toNat >>> k.slotShift) >>> sh ∧
  ((p.entry i).green.toNat >>> k.slotShift) >>> sh = ((p.entry j).green.toNat >>> k.slotShift) >>> sh ∧
  ((p.entry i).blue.toNat >>> k.slotShift) >>> sh = ((p.entry j).blue.toNat >>> k.slotShift) >>> sh

/-- R151's comparison of an entry with a pixel at a shift, written out: each slot's 8-bit channel and the pixel's agree in
the bits from `sh` up. -/
def Slots.agrees (k : Params) (e : Slots) (p : Pixel) (sh : Nat) : Prop :=
  (e.red.toNat >>> k.slotShift) >>> sh = (redOf p).toNat >>> sh ∧
  (e.green.toNat >>> k.slotShift) >>> sh = (greenOf p).toNat >>> sh ∧
  (e.blue.toNat >>> k.slotShift) >>> sh = (blueOf p).toNat >>> sh

/-- The palette holds at most PALETTE_CAPACITY entries (R162), no two of one class at SHIFT_FIRST (R163), every slot's bits
below SLOT_SHIFT 0 (R30), and zeros from palette_size on (R30). -/
structure Palette.Ok (k : Params) (p : Palette) : Prop where
  size_le : p.size ≤ k.paletteCapacity
  distinct : ∀ i j, i < p.size → j < p.size → p.sameClass k i j k.shiftFirst → i = j
  low_zero : ∀ i, (p.entry i).red.toNat % 2 ^ k.slotShift = 0 ∧ (p.entry i).green.toNat % 2 ^ k.slotShift = 0 ∧
    (p.entry i).blue.toNat % 2 ^ k.slotShift = 0
  rest_zero : ∀ i, p.size ≤ i → p.entry i = { red := 0, green := 0, blue := 0 }

/-- The rectangle lies inside the head. -/
def State.holdsRect (s : State) (r : Rect) : Prop := r.x + r.w ≤ s.width ∧ r.y + r.h ≤ s.height

/-- Every dirty rectangle lies inside the head (R206), and there is none without a head. -/
structure State.DirtyOk (s : State) : Prop where
  inside : ∀ r ∈ s.dirty, s.holdsRect r
  closed : s.queried = false → s.dirty = []

/-- The storages are in canonical form. -/
structure State.StorageOk (s : State) : Prop where
  vram : Memory.wf s.launch.params.vramPlaneBytes s.vga.vram = true
  surface : ∀ sf, s.surface = some sf → sf.wf s.width s.height = true

/-- Every VGA register the block has written holds a value the block writes (R36 to R41). -/
structure Vga.RegistersOk (k : Params) (v : Vga) : Prop where
  sr : ∀ b, v.sr = some b → b.toNat < 16
  esr : ∀ b, v.esr = some b → b = k.baseEsr
  mode : ∀ b, v.mode = some b → b = k.baseMode
  rot : ∀ b, v.rot = some b → b = k.baseRotate
  mapMask : ∀ b, v.mapMask = some b → b = k.baseMapMask

/-- The fault state is zero before a fault, and a code of R250 after (8 to 15 never: I17). -/
structure State.FaultOk (s : State) : Prop where
  clear : s.fault = false → s.faultCode = 0 ∧ s.faultOpcode = 0
  code : s.fault = true → 1 ≤ s.faultCode.toNat ∧ s.faultCode.toNat ≤ 7

/-- What holds in every state a run reaches. -/
structure State.Inv (s : State) : Prop where
  params : s.launch.params.Ok
  lifecycle : s.LifecycleOk
  geometry : s.GeometryOk
  palette : s.palette.Ok s.launch.params
  dirty : s.DirtyOk
  storage : s.StorageOk
  registers : s.vga.RegistersOk s.launch.params
  fault : s.FaultOk

/-- The block-internal state R261 names is the same: lifecycle flags, geometry, palette mirror, surface, dirty list,
RESULT, fault state. -/
def State.sameBlock (s t : State) : Prop :=
  t.isOpen = s.isOpen ∧ t.queried = s.queried ∧ t.mapped = s.mapped ∧ t.active = s.active ∧
  t.width = s.width ∧ t.height = s.height ∧ t.rowStride = s.rowStride ∧ t.size = s.size ∧
  t.palette = s.palette ∧ t.surface = s.surface ∧ t.dirty = s.dirty ∧ t.result = s.result ∧
  t.fault = s.fault ∧ t.faultCode = s.faultCode ∧ t.faultOpcode = s.faultOpcode

/-- What rasterizing and flushing leave alone in every case: the head's lifecycle but `active`, its geometry, the surface,
the fault state, the inputs still to come and the launch's parameters. -/
def State.sameHead (s t : State) : Prop :=
  t.isOpen = s.isOpen ∧ t.queried = s.queried ∧ t.mapped = s.mapped ∧
  t.width = s.width ∧ t.height = s.height ∧ t.rowStride = s.rowStride ∧ t.size = s.size ∧
  t.surface = s.surface ∧ t.fault = s.fault ∧ t.faultCode = s.faultCode ∧ t.faultOpcode = s.faultOpcode ∧
  t.inbox = s.inbox ∧ t.launch.params = s.launch.params ∧ t.launch.surfaceInit = s.launch.surfaceInit ∧
  t.launch.identityRects = s.launch.identityRects

/-- The palette has only had entries appended (R30: never reordered). -/
def Palette.extends (p q : Palette) : Prop := p.size ≤ q.size ∧ ∀ j < p.size, q.entry j = p.entry j

/-- Two pixels agree in red, green and blue; alpha is never read (R67, R150). -/
def sameChannels (p q : Pixel) : Prop := redOf q = redOf p ∧ greenOf q = greenOf p ∧ blueOf q = blueOf p

/-- Every byte of video memory but those at offsets the set names reads as before. -/
def Vga.sameBytesOutside (v w : Vga) (stored : Nat → Prop) : Prop :=
  ∀ p off, p < 4 → ¬ stored off → w.planeByte p off = v.planeByte p off

/-- The events of steps 1 to 3 of a flush from `s` (R225): TTY_GRAPHICS, the four base-state writes, and, with a nonempty
palette, the push of every entry. -/
def State.flushOpening (s : State) : List Event :=
  let k := s.launch.params
  [.ttyGraphics, .regWrite .esr k.baseEsr, .regWrite .mode k.baseMode, .regWrite .rot k.baseRotate,
    .regWrite .mapMask k.baseMapMask]
  ++ (if s.palette.size = 0 then []
    else [.palLoad s.palette.size ((List.range s.palette.size).map s.palette.entry)])

/-- From `s` to `t` the whole head was redrawn from the surface `sf` (R129): active, nothing dirty, the base state held,
the palette only grown, every pixel showing the index of its surface word's colour (with the base values R65 is defined
for), the DAC holding the palette, every byte that holds no pixel of the head as before, and the trace going on with the flush's
opening events. -/
structure State.HeadRedrawn (s : State) (sf : Surface) (t : State) : Prop where
  active : t.active = true
  dirty : t.dirty = []
  base : t.baseValid = true
  palette : s.palette.extends t.palette
  pixels : s.launch.params.Standard → ∀ x y, x < s.width → y < s.height →
    t.index x y = BitVec.ofNat 4 (t.assignIndex (s.surf sf x y)).1
  dac : ∀ j : Fin 16, t.vga.dac[j] = if j.val < t.palette.size then some (t.palette.entry j.val) else s.vga.dac[j]
  bytes : s.vga.sameBytesOutside t.vga fun off => ∃ x y, x < s.width ∧ y < s.height ∧ off = y * s.rowStride + x / 8
  trace : s.trace ++ s.flushOpening <+: t.trace

/-- The event is a VRAM access or a VGA register write: what needs `mapped = 1` (R262). -/
def Event.needsMapping : Event → Bool
  | .regWrite _ _ => true
  | .vramRead _ => true
  | .vramWrite _ _ => true
  | .palLoad _ _ => false
  | .ttyGraphics => false

/-- The event is a VRAM access. -/
def Event.isVram : Event → Bool
  | .vramRead _ => true
  | .vramWrite _ _ => true
  | .regWrite _ _ => false
  | .palLoad _ _ => false
  | .ttyGraphics => false

/-- The faults R251 lists for each command, ILLEGAL apart, which a decoded command never raises. -/
def faultCauses : Opcode → List FaultCode
  | .openDevice => [.sequence]
  | .closeDevice => [.sequence]
  | .query => [.sequence, .geometry]
  | .mapDevice => [.sequence]
  | .unmapDevice => []
  | .activate => [.sequence]
  | .deactivate => []
  | .pixWrite => [.sequence, .outOfArea]
  | .pixRead => [.sequence, .outOfArea]
  | .dirtyAdd => [.sequence, .outOfArea]
  | .dirtyClear => [.sequence]
  | .palAssign => []
  | .palPush => []
  | .palRead => []
  | .pwBase => [.unmapped]
  | .pwWrite => [.unmapped, .baseState, .outOfMap]
  | .rastArea => [.unmapped, .outOfArea, .baseState]
  | .flush => [.unmapped]

end Sys2Proof.Machine
end

