-- ==== Sys2Proof/Certificates/Slice0/Obligations.lean ====
section
/-! DEFINITION. The statements for the provers, each from the rules of spec/ its docstring names. -/

open Sys2Proof Sys2Proof.Machine

/-! ### Encoding (30_encoding.md) -/

/-- R91, R95, R96: decoding a well-formed command's word gives the command back, for every command and every operand the
fields admit. -/
def Obligations.DecodeOfEncodeIsTheCommand : Prop :=
  ∀ i : Instr, i.WellFormed → decode (encode i) = .ok i

/-- R90 to R96: every word the decoder accepts is the word of the command it gives; so no word has two spellings. -/
def Obligations.EncodeOfDecodeIsTheWord : Prop :=
  ∀ (w : Word) (i : Instr), decode w = .ok i → encode i = w

/-- R94: field widths bound every operand of a decoded command, and the sums a rule forms of them fit in 25 bits. -/
def Obligations.FieldWidthsBoundOperands : Prop :=
  (∀ (w : Word) (i : Instr), decode w = .ok i → i.WellFormed) ∧
  (∀ a b c : Nat, fitsCoord a = true → fitsCoord b = true → fitsCoord c = true →
    a + b < 2 ^ 25 ∧ a * b + c / 8 < 2 ^ 25)

/-- R92: a word selects the command K exactly when (word & decode_mask(K)) = OP(K) << 56, the decode mask being OP and
the format's reserved mask, and both as the rule's table has them. -/
def Obligations.WordSelectsCommandByMask : Prop :=
  (∀ f : Format, f.decodeMask = 0xFF00000000000000 + f.reservedMask) ∧
  (Format.n.reservedMask = 0x00FFFFFFFFFFFFFF ∧ Format.q.reservedMask = 0 ∧ Format.xyp.reservedMask = 0 ∧
    Format.xy.reservedMask = 0x00000000FFFFFFFF ∧ Format.rect.reservedMask = 0x00000000000000FF ∧
    Format.p.reservedMask = 0x00FFFFFF00000000 ∧ Format.idx.reservedMask = 0x00FFFFFFFFFFFFF0 ∧
    Format.pw.reservedMask = 0x00F000FF00000000) ∧
  (∀ (w : Word) (o : Opcode),
    (∃ i, decode w = .ok i ∧ i.opcode = o) ↔ w.toNat &&& o.format.decodeMask = o.code <<< 56)

/-- R91, R95, R98: words written out from the formats decode to the commands they stand for. -/
def Obligations.SampleWordsDecode : Prop :=
  decode 0x0100000000000000 = .ok .openDevice ∧
  decode 0x032801E005040304 = .ok (.query 640 480 80 4 0 3 4) ∧
  decode 0x1000F001AABBCCDD = .ok (.pixWrite 15 1 0xAABBCCDD) ∧
  decode 0x1200600000400200 = .ok (.dirtyAdd 6 0 4 2) ∧
  decode 0x2000000012FF0000 = .ok (.palAssign 0x12FF0000) ∧
  decode 0x220000000000000A = .ok (.palRead 10) ∧
  decode 0x310A0C0000000004 = .ok (.pwWrite 0xA 0x0C 4) ∧
  decode 0x4000A00000700100 = .ok (.rastArea 10 0 7 1) ∧
  decode 0 = .error .unassignedOpcode ∧ decode 0x0100000000000001 = .error .reservedBit

/-! ### A step -/

/-- R22, R96: when the host's next word is a command's, and the block is not halted, the step executes that command,
in the state that has taken the word. R266: with nothing to take the block is idle and holds all its state. -/
def Obligations.StepRunsTheDecodedCommand : Prop :=
  (∀ (s : State) (w : Word) (rest : List Move) (i : Instr),
    s.inbox = .write w :: rest → s.fault = false → decode w = .ok i → step s = exec i { s with inbox := rest }) ∧
  ∀ s : State, s.inbox = [] → step s = .next s

/-- R92, R96, R252, R23: a word that selects no command faults ILLEGAL with its opcode field recorded, and changes
nothing else: RESULT keeps its value. -/
def Obligations.IllegalWordFaults : Prop :=
  ∀ (s : State) (w : Word) (rest : List Move),
    s.inbox = .write w :: rest → s.fault = false →
    (∀ o : Opcode, w.toNat &&& o.format.decodeMask ≠ o.code <<< 56) →
    step s = .next { s with
      inbox := rest, fault := true, faultCode := 1, faultOpcode := BitVec.ofNat 8 (w.toNat >>> 56) }

/-- R258, with the host's words and the environment's moves in the inbox (log entry 1): while fault = 1 a word written
to CMD is discarded, RESULT and STATUS keep their values and stay readable, and the environment may still reset the
VGA, or change VRAM while inactive, with STATUS.BASE_VALID following. -/
def Obligations.HaltedBlockDiscardsWords : Prop :=
  ∀ (s : State) (rest : List Move), s.fault = true →
    (∀ w, s.inbox = .write w :: rest →
      step s = .next { s with inbox := rest } ∧
      State.hostRead { s with inbox := rest } .result = s.hostRead .result ∧
      State.hostRead { s with inbox := rest } .status = s.hostRead .status) ∧
    (s.inbox = .vgaReset :: rest → ∃ t, step s = .next t ∧ t.fault = true ∧ t.status.getLsbD 4 = false) ∧
    (∀ p off b, s.inbox = .vramChange p off b :: rest → s.active = false → off < s.launch.params.vramPlaneBytes →
      ∃ t, step s = .next t ∧ t.fault = true ∧ t.vga.planeByte p.val off = b)

/-- R261: the environment's moves and their whole effects; none changes block-internal state, the trace (R47) or the
mask rows. A VGA reset may come at any boundary, the others only while inactive; a base register that becomes unknown
makes base_valid 0, as a VGA reset does. -/
def Obligations.EnvironmentMovesChangeOnlyTheVga : Prop :=
  ∀ (s : State) (rest : List Move),
    (s.inbox = .vgaReset :: rest → ∃ t, step s = .next t ∧ t = { s with inbox := rest, vga := t.vga } ∧
      s.sameBlock t ∧ t.trace = s.trace ∧ t.mask = s.mask ∧ t.inbox = rest ∧
      (∀ r, t.vga.reg r = none) ∧ t.baseValid = false ∧ (∀ k : Fin 4, t.vga.latch[k] = none) ∧
      (∀ k : Fin 16, t.vga.dac[k] = none) ∧ s.vga.sameBytesOutside t.vga (fun _ => False)) ∧
    (s.active = false → ∀ p off b, s.inbox = .vramChange p off b :: rest → off < s.launch.params.vramPlaneBytes →
      ∃ t, step s = .next t ∧ t = { s with inbox := rest, vga := t.vga } ∧
      s.sameBlock t ∧ t.trace = s.trace ∧ t.mask = s.mask ∧ t.inbox = rest ∧
      t.vga.planeByte p.val off = b ∧
      (∀ q o, q < 4 → ¬ (q = p.val ∧ o = off) → t.vga.planeByte q o = s.vga.planeByte q o) ∧
      (∀ r, t.vga.reg r = s.vga.reg r) ∧ t.baseValid = s.baseValid ∧ t.vga.latch = s.vga.latch ∧
      t.vga.dac = s.vga.dac) ∧
    (s.active = false → ∀ r, s.inbox = .regChange r :: rest →
      ∃ t, step s = .next t ∧ t = { s with inbox := rest, vga := t.vga } ∧
      s.sameBlock t ∧ t.trace = s.trace ∧ t.mask = s.mask ∧ t.inbox = rest ∧
      t.vga.reg r = none ∧ (∀ q, q ≠ r → t.vga.reg q = s.vga.reg q) ∧
      (r = .esr ∨ r = .mode ∨ r = .rot ∨ r = .mapMask → t.baseValid = false) ∧
      (r = .sr ∨ r = .bm → t.baseValid = s.baseValid) ∧ t.vga.latch = s.vga.latch ∧
      t.vga.dac = s.vga.dac ∧ s.vga.sameBytesOutside t.vga (fun _ => False)) ∧
    (s.active = false → ∀ i, s.inbox = .dacChange i :: rest →
      ∃ t, step s = .next t ∧ t = { s with inbox := rest, vga := t.vga } ∧
      s.sameBlock t ∧ t.trace = s.trace ∧ t.mask = s.mask ∧ t.inbox = rest ∧
      t.vga.dac[i] = none ∧ (∀ j : Fin 16, j ≠ i → t.vga.dac[j] = s.vga.dac[j]) ∧
      (∀ r, t.vga.reg r = s.vga.reg r) ∧ t.baseValid = s.baseValid ∧ t.vga.latch = s.vga.latch ∧
      s.vga.sameBytesOutside t.vga (fun _ => False))

/-- R261, I27, and the model's choice (log entry 9): while active, a VRAM, register or DAC change is refused; and a
change of a byte no plane has is refused always. -/
def Obligations.ActiveHeadAdmitsOnlyVgaReset : Prop :=
  ∀ (s : State) (m : Move) (rest : List Move), s.inbox = m :: rest →
    (s.active = true → (step s = .refused .environmentWhileActive ↔
      (∃ p off b, m = .vramChange p off b ∧ off < s.launch.params.vramPlaneBytes) ∨ (∃ r, m = .regChange r) ∨
        ∃ i, m = .dacChange i)) ∧
    (∀ p off b, m = .vramChange p off b → s.launch.params.vramPlaneBytes ≤ off → step s = .refused (.noSuchByte off))

/-- R280, R281, and the model's choice that power-on may come in the inbox (log entry 8): every element of the block
takes its reset value, the VGA side is unknown, the trace is empty; the launch and what is still to come stay. -/
def Obligations.PowerOnGivesTheResetState : Prop :=
  ∀ (s : State) (rest : List Move), s.inbox = .powerOn :: rest →
    ∃ t, step s = .next t ∧ State.reset.sameBlock t ∧ t.trace = [] ∧ t.vga = Vga.unknown (s.draws + 1) ∧
      t.inbox = rest ∧ t.launch = s.launch

/-- R281: the reset state, element by element. Two clauses are the model's reading: an unwritten byte of a plane is a
free value by its address (log entry 4, DESIGN CHOICE), and what the rule calls unknown of the registers, the latches
and the DAC is `none` (log entry 14, DEDUCED). The launch at reset has the defaults of R6 (log entry 7, DESIGN
CHOICE). -/
def Obligations.ResetStateIsAsListed : Prop :=
  let s := State.reset
  s.hostRead .cmd = 0 ∧ s.result = 0 ∧ s.status = 0x00000000 ∧
  s.isOpen = false ∧ s.queried = false ∧ s.mapped = false ∧ s.active = false ∧
  s.width = 0 ∧ s.height = 0 ∧ s.rowStride = 0 ∧ s.size = 0 ∧
  (∀ k : Fin 16, s.palette.red[k] = 0 ∧ s.palette.green[k] = 0 ∧ s.palette.blue[k] = 0) ∧ s.palette.size = 0 ∧
  s.surface = none ∧ s.dirty = [] ∧
  (∀ r, s.vga.reg r = none) ∧ s.baseValid = false ∧ (∀ k : Fin 4, s.vga.latch[k] = none) ∧
  (∀ p off, s.vga.planeByte p off = Config.initialVram 0 (off * 4 + p)) ∧ (∀ k : Fin 16, s.vga.dac[k] = none) ∧
  s.fault = false ∧ s.faultCode = 0 ∧ s.faultOpcode = 0 ∧ s.trace = [] ∧
  s.launch.params = {
    paletteCapacity := 16, shiftFirst := 6, shiftLast := 7, slotShift := 8, planes := 4, pixelsPerByte := 8,
    maskBit0 := 0x80, rmwOrValue := 0x01, baseEsr := 0x0F, baseMode := 0x00, baseRotate := 0x00, baseMapMask := 0x0F,
    reqBpp := 4, typeVgaPlanes := 4, auxVga4 := 0, visualPseudocolor := 3, vramPlaneBytes := 65536 } ∧
  Config.coordBits = 12

/-- R257: no command clears `fault`, a halted block takes no second fault, and only reset leaves the faulted state; that
power-on may come in the inbox is the model's choice (log entry 8). -/
def Obligations.OnlyResetLeavesTheFault : Prop :=
  (∀ (i : Instr) (s t : State), s.fault = true → exec i s = .next t → t.fault = true) ∧
  (∀ (s t : State) (m : Move) (rest : List Move), s.fault = true → s.inbox = m :: rest → step s = .next t →
    if m = .powerOn then t.fault = false
    else t.fault = true ∧ t.faultCode = s.faultCode ∧ t.faultOpcode = s.faultOpcode)

/-! ### Invariants -/

/-- The invariant holds after reset. -/
def Obligations.ResetMeetsTheInvariant : Prop := State.reset.Inv

/-- Every step keeps the invariant: the parameters' demands (R6), the lifecycle path (R28, R32), the geometry (R29,
R125), the palette (R30, R162, R163), the dirty list inside the head (R206), the storages' canonical form (the model's
own: log entry 4), the legal register values (R36 to R40) and the fault codes (R250). -/
def Obligations.EveryStepKeepsTheInvariant : Prop :=
  ∀ s t : State, s.Inv → step s = .next t → t.Inv

/-- In the invariant no step stops with a fault of the model's own: every offset written lies in a plane (R223, R125),
and a surface exists whenever one is read (R32). -/
def Obligations.NoStepLeavesTheModel : Prop :=
  ∀ s : State, s.Inv → ∀ f : Fault, step s ≠ .fault f

/-- R251: a command that faults raises one of the faults its row lists, and its opcode is recorded; MAP and ACTIVATE
raise only SEQUENCE, FLUSH only UNMAPPED. -/
def Obligations.CommandsRaiseOnlyTheirCauses : Prop :=
  ∀ (i : Instr) (s t : State), s.Inv → s.fault = false → exec i s = .next t → t.fault = true →
    t.faultOpcode = BitVec.ofNat 8 i.opcode.code ∧ ∃ c ∈ faultCauses i.opcode, t.faultCode = c.number

/-- R162: the palette never shrinks in a step, except at power-on and in a QUERY that sets up the head, which empties
it. -/
def Obligations.PaletteShrinksOnlyAtQuery : Prop :=
  ∀ s t : State, step s = .next t → t.palette.size < s.palette.size →
    t.palette = Palette.empty ∧
    ∃ rest, s.inbox = .powerOn :: rest ∨
      ∃ w, s.inbox = .write w :: rest ∧ opField w = 0x03 ∧ s.queried = false ∧ t.queried = true

/-- R30, R31: a command other than QUERY only appends palette entries, and at no moment above the capacity. -/
def Obligations.PaletteEntriesAreNeverReordered : Prop :=
  ∀ (i : Instr) (s t : State), i.opcode ≠ .query → exec i s = .next t →
    s.palette.extends t.palette ∧
    (s.palette.size ≤ s.launch.params.paletteCapacity → t.palette.size ≤ s.launch.params.paletteCapacity)

/-- R47, R74: the trace is append-only: whatever happens but a new reset, earlier events stay, in their order. -/
def Obligations.TraceIsAppendOnly : Prop :=
  ∀ s t : State, step s = .next t → (∀ rest, s.inbox ≠ .powerOn :: rest) → s.trace <+: t.trace

/-- R262: with mapped = 0 no command but MAP reaches the VGA registers, the latches or video memory. -/
def Obligations.WithoutMappingNoVgaAccess : Prop :=
  ∀ (i : Instr) (s t : State), s.mapped = false → i ≠ .mapDevice → exec i s = .next t →
    (∃ es, t.trace = s.trace ++ es ∧ ∀ e ∈ es, e.needsMapping = false) ∧
    (∀ r, t.vga.reg r = s.vga.reg r) ∧ t.vga.latch = s.vga.latch ∧ s.vga.sameBytesOutside t.vga (fun _ => False)

/-- R29: only QUERY and CLOSE write the geometry. -/
def Obligations.OnlyQueryAndCloseWriteGeometry : Prop :=
  ∀ (i : Instr) (s t : State), i.opcode ≠ .query → i ≠ .closeDevice → exec i s = .next t →
    t.width = s.width ∧ t.height = s.height ∧ t.rowStride = s.rowStride ∧ t.size = s.size ∧ t.queried = s.queried

/-- R32, R33: only QUERY, CLOSE and PIX_WRITE write the surface; only QUERY, CLOSE, DIRTY_ADD, DIRTY_CLEAR, and a
flush of FLUSH, ACTIVATE or MAP, write the dirty list. -/
def Obligations.OnlyTheirCommandsWriteSurfaceAndDirty : Prop :=
  ∀ (i : Instr) (s t : State), i.opcode ≠ .query → i ≠ .closeDevice → exec i s = .next t →
    (i.opcode ≠ .pixWrite → t.surface = s.surface) ∧
    (i.opcode ≠ .dirtyAdd → i ≠ .dirtyClear → i ≠ .flush → i ≠ .activate → i ≠ .mapDevice → t.dirty = s.dirty)

/-- R23: a command starts by zeroing RESULT, so nothing it leaves depends on the RESULT before it. -/
def Obligations.CommandsForgetTheOldResult : Prop :=
  ∀ (i : Instr) (s : State) (r : BitVec 64), exec i { s with result := r } = exec i s

/-! ### Lifecycle (41_lifecycle.md) -/

/-- R121: OPEN faults SEQUENCE when open; else, as the draw open_ok says, the device opens with RESULT 1, or stays
closed with RESULT 0; nothing else changes. -/
def Obligations.OpenCompletes : Prop :=
  decode 0x0100000000000000 = .ok .openDevice ∧
  ∀ s : State,
    (s.isOpen = true → exec .openDevice s = .next { s with
      result := 0, fault := true, faultCode := 2, faultOpcode := 0x01 }) ∧
    (s.isOpen = false → s.openAnswer = true →
      exec .openDevice s = .next { s.afterOpenDraw with isOpen := true, result := 1 }) ∧
    (s.isOpen = false → s.openAnswer = false → exec .openDevice s = .next { s.afterOpenDraw with result := 0 })

/-- R122: CLOSE faults SEQUENCE when not open or still mapped; else clears open, queried, active, the geometry, the
surface and the dirty list, and leaves the palette and the VGA side. -/
def Obligations.CloseCompletes : Prop :=
  decode 0x0200000000000000 = .ok .closeDevice ∧
  ∀ s : State,
    (s.isOpen = false ∨ s.mapped = true → exec .closeDevice s = .next { s with
      result := 0, fault := true, faultCode := 2, faultOpcode := 0x02 }) ∧
    (s.isOpen = true → s.mapped = false → exec .closeDevice s = .next { s with
      result := 0, isOpen := false, queried := false, active := false, width := 0, height := 0, rowStride := 0,
      size := 0, surface := none, dirty := [] })

/-- R123 to R126: a QUERY of a compatible mode with a right geometry sets the geometry, size = H * STRIDE, a surface
whose every pixel holds SURFACE_INIT, an empty dirty list, an empty palette, QUERIED, and RESULT 1; the VGA side and
the trace stay. -/
def Obligations.QuerySetsUpTheHead : Prop :=
  ∀ (s : State) (k : Params) (w h stride : Nat), s.launch.params = k → k.Ok → s.isOpen = true → s.queried = false →
    (w + 7) / 8 ≤ stride → h * stride ≤ k.vramPlaneBytes →
    ∃ t sf, exec (.query w h stride k.typeVgaPlanes k.auxVga4 k.visualPseudocolor k.reqBpp) s = .next t ∧
      t.surface = some sf ∧
      t = { s with
        result := 1, queried := true, width := w, height := h, rowStride := stride, size := h * stride,
        palette := Palette.empty, surface := some sf, dirty := [], draws := t.draws } ∧
      (∀ x y, t.surf sf x y = match s.launch.surfaceInit with
        | some p => p
        | none => Config.surfaceInit sf.tag x y)

/-- R123 to R125, in the order of the checks: SEQUENCE when not open or already queried; an incompatible mode gives
RESULT 0 and no change, whatever its geometry; a compatible mode with a wrong geometry faults GEOMETRY. R97: 0xF in
TYPE, AUX or VISUAL, the encoding of a device value above 15, is such an incompatible mode at every launch. -/
def Obligations.QueryRefusesAndFaults : Prop :=
  ∀ (s : State) (k : Params) (w h stride type aux visual bpp : Nat), s.launch.params = k → k.Ok →
    (s.isOpen = false ∨ s.queried = true → exec (.query w h stride type aux visual bpp) s = .next { s with
      result := 0, fault := true, faultCode := 2, faultOpcode := 0x03 }) ∧
    (s.isOpen = true → s.queried = false →
      ¬ (type = k.typeVgaPlanes ∧ aux = k.auxVga4 ∧ visual = k.visualPseudocolor ∧ bpp = k.reqBpp) →
      exec (.query w h stride type aux visual bpp) s = .next { s with result := 0 }) ∧
    (s.isOpen = true → s.queried = false → type = 0xF ∨ aux = 0xF ∨ visual = 0xF →
      exec (.query w h stride type aux visual bpp) s = .next { s with result := 0 }) ∧
    (s.isOpen = true → s.queried = false → stride < (w + 7) / 8 ∨ k.vramPlaneBytes < h * stride →
      exec (.query w h stride k.typeVgaPlanes k.auxVga4 k.visualPseudocolor k.reqBpp) s = .next { s with
        result := 0, fault := true, faultCode := 7, faultOpcode := 0x03 })

/-- R127: MAP faults SEQUENCE when not queried or already mapped; with map_ok false RESULT is 0 and nothing is mapped;
with map_ok true and the VT not active, the head is mapped, RESULT 1, and there is no event. -/
def Obligations.MapCompletesWithoutFocus : Prop :=
  ∀ s : State,
    (s.queried = false ∨ s.mapped = true → exec .mapDevice s = .next { s with
      result := 0, fault := true, faultCode := 2, faultOpcode := 0x04 }) ∧
    (s.queried = true → s.mapped = false → s.mapAnswer = false →
      exec .mapDevice s = .next { s.afterMapDraw with result := 0 }) ∧
    (s.queried = true → s.mapped = false → s.mapAnswer = true → s.afterMapDraw.vtAnswer = false →
      exec .mapDevice s = .next { s.afterMapDraw.afterVtDraw with mapped := true, result := 1 })

/-- R127, R129: with map_ok and vt_is_active true, MAP maps the head and activates it at once: mapped, RESULT 1, and the
whole head redrawn, in an unfaulted block, its trace opening with the flush's steps 1 to 3 (R225). -/
def Obligations.MapWithFocusActivates : Prop :=
  ∀ (s : State) (sf : Surface), s.Inv → s.mapped = false → s.mapAnswer = true → s.afterMapDraw.vtAnswer = true →
    s.surface = some sf →
    ∃ t, exec .mapDevice s = .next t ∧ t.result = 1 ∧ State.sameHead { s with mapped := true } t ∧ s.HeadRedrawn sf t

/-- R128: UNMAP changes only `mapped` (and RESULT, R23), in every state. -/
def Obligations.UnmapCompletes : Prop :=
  decode 0x0500000000000000 = .ok .unmapDevice ∧
  ∀ s : State, exec .unmapDevice s = .next { s with result := 0, mapped := false }

/-- R130: DEACTIVATE clears `active` in every state, with no event; RESULT is 0 (R23). -/
def Obligations.DeactivateCompletes : Prop :=
  ∀ s : State, exec .deactivate s = .next { s with result := 0, active := false }

/-- R129: ACTIVATE of an unmapped head faults SEQUENCE; of a mapped one, active already or not, it redraws the whole
head, its trace opening with the flush's steps 1 to 3 (R225). -/
def Obligations.ActivateRedrawsTheHead : Prop :=
  (∀ s : State, s.mapped = false → exec .activate s = .next { s with
    result := 0, fault := true, faultCode := 2, faultOpcode := 0x06 }) ∧
  (∀ (s : State) (sf : Surface), s.Inv → s.mapped = true → s.surface = some sf →
    ∃ t, exec .activate s = .next t ∧ t.result = 0 ∧ s.sameHead t ∧ s.HeadRedrawn sf t)

/-! ### Surface and dirty region (44_surface_region.md) -/

/-- R201: PIX_WRITE inside the head stores the word at that pixel and changes no other pixel and nothing else but
RESULT. -/
def Obligations.PixWriteCompletes : Prop :=
  ∀ (s : State) (sf : Surface) (x y : Nat) (pixel : Pixel), s.queried = true → s.surface = some sf →
    x < s.width → y < s.height →
    ∃ sf', exec (.pixWrite x y pixel) s = .next { s with result := 0, surface := some sf' } ∧
      s.surf sf' x y = pixel ∧
      ∀ x' y', x' < s.width → ¬ (x' = x ∧ y' = y) → s.surf sf' x' y' = s.surf sf x' y'

/-- R202: PIX_READ inside the head gives the surface word in RESULT, upper bits 0, and changes nothing else. -/
def Obligations.PixReadCompletes : Prop :=
  ∀ (s : State) (sf : Surface) (x y : Nat), s.queried = true → s.surface = some sf → x < s.width → y < s.height →
    exec (.pixRead x y) s = .next { s with result := BitVec.ofNat 64 (s.surf sf x y).toNat }

/-- R201, R202, in the order of the checks: SEQUENCE with no surface, OUT_OF_AREA outside the head. -/
def Obligations.PixelCommandsFault : Prop :=
  ∀ (s : State) (x y : Nat) (pixel : Pixel),
    (s.queried = false →
      exec (.pixWrite x y pixel) s = .next { s with result := 0, fault := true, faultCode := 2, faultOpcode := 0x10 } ∧
      exec (.pixRead x y) s = .next { s with result := 0, fault := true, faultCode := 2, faultOpcode := 0x11 }) ∧
    (s.queried = true → s.width ≤ x ∨ s.height ≤ y →
      exec (.pixWrite x y pixel) s = .next { s with result := 0, fault := true, faultCode := 4, faultOpcode := 0x10 } ∧
      exec (.pixRead x y) s = .next { s with result := 0, fault := true, faultCode := 4, faultOpcode := 0x11 })

/-- R203: DIRTY_ADD appends a rectangle inside the head, empty ones too; SEQUENCE with no surface, OUT_OF_AREA
otherwise. -/
def Obligations.DirtyAddCompletes : Prop :=
  (∀ x y w h : Nat, (Instr.dirtyAdd x y w h).WellFormed →
    (encode (.dirtyAdd x y w h)).toNat = 0x12 * 2 ^ 56 + x * 2 ^ 44 + y * 2 ^ 32 + w * 2 ^ 20 + h * 2 ^ 8) ∧
  ∀ (s : State) (x y w h : Nat),
    (s.queried = true → x + w ≤ s.width → y + h ≤ s.height →
      exec (.dirtyAdd x y w h) s = .next { s with result := 0, dirty := s.dirty ++ [⟨x, y, w, h⟩] }) ∧
    (s.queried = false → exec (.dirtyAdd x y w h) s = .next { s with
      result := 0, fault := true, faultCode := 2, faultOpcode := 0x12 }) ∧
    (s.queried = true → s.width < x + w ∨ s.height < y + h → exec (.dirtyAdd x y w h) s = .next { s with
      result := 0, fault := true, faultCode := 4, faultOpcode := 0x12 })

/-- R204: DIRTY_CLEAR empties the dirty list; SEQUENCE with no surface. -/
def Obligations.DirtyClearCompletes : Prop :=
  decode 0x1300000000000000 = .ok .dirtyClear ∧
  ∀ s : State,
    (s.queried = true → exec .dirtyClear s = .next { s with result := 0, dirty := [] }) ∧
    (s.queried = false → exec .dirtyClear s = .next { s with
      result := 0, fault := true, faultCode := 2, faultOpcode := 0x13 })

/-- R205: REGION_RECTS, whichever conforming choice it is, stays inside every head the dirty list is inside, and
covers the same pixels. -/
def Obligations.RegionRectsConform : Prop :=
  ∀ (dirty : List Rect) (width height : Nat), (∀ r ∈ dirty, r.x + r.w ≤ width ∧ r.y + r.h ≤ height) →
    (∀ r ∈ Config.regionRects dirty, r.x + r.w ≤ width ∧ r.y + r.h ≤ height) ∧
    ∀ x y, coveredBy (Config.regionRects dirty) x y = coveredBy dirty x y

/-! ### Palette (42_palette.md) -/

/-- R151, R153, the first pass: PAL_ASSIGN of a colour that agrees with an entry at SHIFT_FIRST (at the default 6, in
the top 2 bits of every channel) gives the first such entry and changes nothing but RESULT. -/
def Obligations.PalAssignFindsTheFirstMatch : Prop :=
  ∀ (s : State) (k : Params) (p : Pixel) (i : Nat), s.launch.params = k → k.Ok → i < s.palette.size →
    (s.palette.entry i).agrees k p k.shiftFirst → (∀ j < i, ¬ (s.palette.entry j).agrees k p k.shiftFirst) →
    exec (.palAssign p) s = .next { s with result := BitVec.ofNat 64 i }

/-- R152, R153, R156: with no entry agreeing at SHIFT_FIRST and room, PAL_ASSIGN inserts the exact channels at
palette_size, gives that index, and, with the device open, loads the whole palette into the DAC in one event; nothing
else changes. -/
def Obligations.PalAssignInserts : Prop :=
  ∀ (s : State) (k : Params) (p : Pixel), s.launch.params = k → k.Ok → s.palette.size < k.paletteCapacity →
    (∀ j < s.palette.size, ¬ (s.palette.entry j).agrees k p k.shiftFirst) →
    ∃ t, exec (.palAssign p) s = .next t ∧
      t = { s with result := BitVec.ofNat 64 s.palette.size, palette := t.palette, trace := t.trace,
                   vga := { s.vga with dac := t.vga.dac } } ∧
      t.palette.size = s.palette.size + 1 ∧
      (∀ j, j ≠ s.palette.size → t.palette.entry j = s.palette.entry j) ∧
      (t.palette.entry s.palette.size).red.toNat = (redOf p).toNat * 2 ^ k.slotShift ∧
      (t.palette.entry s.palette.size).green.toNat = (greenOf p).toNat * 2 ^ k.slotShift ∧
      (t.palette.entry s.palette.size).blue.toNat = (blueOf p).toNat * 2 ^ k.slotShift ∧
      (s.isOpen = false → t.trace = s.trace ∧ t.vga.dac = s.vga.dac) ∧
      (s.isOpen = true →
        t.trace = s.trace ++ [.palLoad t.palette.size ((List.range t.palette.size).map t.palette.entry)] ∧
        ∀ j : Fin 16, t.vga.dac[j] =
          if j.val < t.palette.size then some (t.palette.entry j.val) else s.vga.dac[j])

/-- R153, R155, R164: with a full palette and no entry agreeing at SHIFT_FIRST, PAL_ASSIGN gives, of the first looser
shift at which some entry agrees (at the defaults only 7, the top bit), the first such entry; or PALETTE_CAPACITY - 1
(15) when none does up to SHIFT_LAST; nothing else changes. -/
def Obligations.PalAssignOnAFullPalette : Prop :=
  ∀ (s : State) (k : Params) (p : Pixel), s.launch.params = k → k.Ok → s.palette.size = k.paletteCapacity →
    (∀ j < k.paletteCapacity, ¬ (s.palette.entry j).agrees k p k.shiftFirst) →
    (∀ sh i, k.shiftFirst < sh → sh ≤ k.shiftLast → i < k.paletteCapacity → (s.palette.entry i).agrees k p sh →
      (∀ j < i, ¬ (s.palette.entry j).agrees k p sh) →
      (∀ sh', k.shiftFirst < sh' → sh' < sh → ∀ j < k.paletteCapacity, ¬ (s.palette.entry j).agrees k p sh') →
      exec (.palAssign p) s = .next { s with result := BitVec.ofNat 64 i }) ∧
    ((∀ sh, k.shiftFirst < sh → sh ≤ k.shiftLast → ∀ j < k.paletteCapacity, ¬ (s.palette.entry j).agrees k p sh) →
      exec (.palAssign p) s = .next { s with result := BitVec.ofNat 64 (k.paletteCapacity - 1) })

/-- R160: once AssignIndex has given a colour an index, it gives every pixel of the same red, green and blue that
index, in any later state: one of the same launch whose palette has only had entries appended since, which is what no
PaletteReset in between means. -/
def Obligations.AssignedIndexIsStable : Prop :=
  ∀ (s u : State) (p q : Pixel), s.launch.params.Ok → u.launch.params = s.launch.params →
    s.palette.size ≤ s.launch.params.paletteCapacity → (s.assignIndex p).2.palette.extends u.palette →
    u.palette.size ≤ s.launch.params.paletteCapacity → sameChannels p q → (u.assignIndex q).1 = (s.assignIndex p).1

/-- R161: an index AssignIndex gives at a pass s, by a match or an insertion, names an entry whose every channel,
(slot >> SLOT_SHIFT) >> s, is the pixel's c >> s: at SHIFT_FIRST unless the palette was full, else at some pass; an
insertion gives the exact channels; only the fallback gives no guarantee. At the defaults: the top 2 bits (s = 6), or
the top bit (s = 7) once the palette is full. -/
def Obligations.AssignedEntryReproducesTopBits : Prop :=
  ∀ (s : State) (k : Params) (p : Pixel), s.launch.params = k → k.Ok → s.palette.size ≤ k.paletteCapacity →
    let r := s.assignIndex p
    let e := r.2.palette.entry r.1
    (s.palette.size < k.paletteCapacity → e.agrees k p k.shiftFirst) ∧
    ((∃ sh, k.shiftFirst ≤ sh ∧ sh ≤ k.shiftLast ∧ e.agrees k p sh) ∨
      (s.palette.size = k.paletteCapacity ∧ r.1 = k.paletteCapacity - 1 ∧ r.2 = s ∧
        ∀ sh, k.shiftFirst ≤ sh → sh ≤ k.shiftLast → ∀ j < k.paletteCapacity, ¬ (s.palette.entry j).agrees k p sh)) ∧
    (r.1 = s.palette.size →
      e.red.toNat >>> k.slotShift = (redOf p).toNat ∧ e.green.toNat >>> k.slotShift = (greenOf p).toNat ∧
      e.blue.toNat >>> k.slotShift = (blueOf p).toNat) ∧
    (k = Params.default →
      (s.palette.size < 16 →
        (e.red.toNat >>> 8) >>> 6 = (redOf p).toNat >>> 6 ∧ (e.green.toNat >>> 8) >>> 6 = (greenOf p).toNat >>> 6 ∧
        (e.blue.toNat >>> 8) >>> 6 = (blueOf p).toNat >>> 6) ∧
      (s.palette.size = 16 →
        ((e.red.toNat >>> 8) >>> 7 = (redOf p).toNat >>> 7 ∧ (e.green.toNat >>> 8) >>> 7 = (greenOf p).toNat >>> 7 ∧
          (e.blue.toNat >>> 8) >>> 7 = (blueOf p).toNat >>> 7) ∨
        (r.1 = 15 ∧ ∀ j < 16, ¬ ((s.palette.entry j).red.toNat >>> 8 >>> 7 = (redOf p).toNat >>> 7 ∧
          (s.palette.entry j).green.toNat >>> 8 >>> 7 = (greenOf p).toNat >>> 7 ∧
          (s.palette.entry j).blue.toNat >>> 8 >>> 7 = (blueOf p).toNat >>> 7))))

/-- R156, R157: PAL_PUSH is nothing while closed or empty; else it is one PAL_LOAD of the entries 0..palette_size-1,
which the DAC then holds, the rest of it kept. -/
def Obligations.PalPushCompletes : Prop :=
  decode 0x2100000000000000 = .ok .palPush ∧
  ∀ s : State,
    (s.isOpen = false ∨ s.palette.size = 0 → exec .palPush s = .next { s with result := 0 }) ∧
    (s.isOpen = true → s.palette.size ≠ 0 → ∃ dac, exec .palPush s = .next { s with
        result := 0, vga := { s.vga with dac := dac },
        trace := s.trace ++ [.palLoad s.palette.size ((List.range s.palette.size).map s.palette.entry)] } ∧
      ∀ j : Fin 16, dac[j] = if j.val < s.palette.size then some (s.palette.entry j.val) else s.vga.dac[j])

/-- R158: PAL_READ gives red in RESULT[47:32], green in [31:16], blue in [15:0] of the mirror's entry, whichever
index, and changes nothing else. -/
def Obligations.PalReadCompletes : Prop :=
  (∀ i : Fin 16, decode (BitVec.ofNat 64 (0x2200000000000000 + i.val)) = .ok (.palRead i)) ∧
  ∀ (s : State) (i : Fin 16), ∃ r : BitVec 64, exec (.palRead i) s = .next { s with result := r } ∧
    r.toNat = s.palette.red[i].toNat * 2 ^ 32 + s.palette.green[i].toNat * 2 ^ 16 + s.palette.blue[i].toNat

/-! ### Planar write engine (43_planar_write.md) -/

/-- R180, R181: PW_BASE of a mapped head writes the four base registers with their base values, in that order, and
nothing else; base_valid is then 1. Unmapped it faults UNMAPPED. -/
def Obligations.PwBaseCompletes : Prop :=
  decode 0x3000000000000000 = .ok .pwBase ∧
  ∀ (s : State) (k : Params), s.launch.params = k →
    (s.mapped = true → ∃ t, exec .pwBase s = .next t ∧
      t = { s with
        result := 0,
        vga := { s.vga with
          esr := some k.baseEsr, mode := some k.baseMode, rot := some k.baseRotate, mapMask := some k.baseMapMask },
        trace := s.trace ++ [.regWrite .esr k.baseEsr, .regWrite .mode k.baseMode, .regWrite .rot k.baseRotate,
          .regWrite .mapMask k.baseMapMask] } ∧
      t.baseValid = true ∧ t.status.getLsbD 4 = true) ∧
    (s.mapped = false → exec .pwBase s = .next { s with
      result := 0, fault := true, faultCode := 3, faultOpcode := 0x30 })

/-- R182, R183, R65, R66: PW_WRITE in base state inside the mapping gives the pixels of the byte at OFFSET that MASK
selects the index COLOR (with the base values R65 is defined for; else log entry 17), and changes no other pixel and
no other byte; SR and BM hold COLOR and MASK, the latches the byte's old planes; its events are the four of R182, the
data byte's bit 0 set as in RMW_OR_VALUE; nothing else changes but RESULT and the draw. -/
def Obligations.PwWriteCompletes : Prop :=
  ∀ (s : State) (color : BitVec 4) (mask : Byte) (offset : Nat), s.mapped = true → s.baseValid = true →
    offset < s.size → s.size ≤ s.launch.params.vramPlaneBytes →
    ∃ t d, exec (.pwWrite color mask offset) s = .next t ∧
      State.sameBlock { s with result := 0 } t ∧ t.mask = s.mask ∧ t.inbox = s.inbox ∧
      (s.launch.params.Standard → ∀ k, k < 8 → t.vga.pixelAt offset k =
        if mask.getLsbD (7 - k) = true then color else s.vga.pixelAt offset k) ∧
      s.vga.sameBytesOutside t.vga (fun off => off = offset) ∧
      t.vga.sr = some (BitVec.ofNat 8 color.toNat) ∧ t.vga.bm = some mask ∧
      (∀ k : Fin 4, t.vga.latch[k] = some (s.vga.planeByte k.val offset)) ∧
      t.vga.esr = s.vga.esr ∧ t.vga.mode = s.vga.mode ∧ t.vga.rot = s.vga.rot ∧ t.vga.mapMask = s.vga.mapMask ∧
      t.vga.dac = s.vga.dac ∧ (s.launch.params.rmwOrValue.getLsbD 0 = true → d.getLsbD 0 = true) ∧
      t.trace = s.trace ++ [.regWrite .sr (BitVec.ofNat 8 color.toNat), .regWrite .bm mask, .vramRead offset,
        .vramWrite offset d]

/-- R182, R183, R255, in the order of the checks: UNMAPPED, BASE_STATE, OUT_OF_MAP, each before any effect. -/
def Obligations.PwWriteFaults : Prop :=
  ∀ (s : State) (color : BitVec 4) (mask : Byte) (offset : Nat),
    (s.mapped = false → exec (.pwWrite color mask offset) s = .next { s with
      result := 0, fault := true, faultCode := 3, faultOpcode := 0x31 }) ∧
    (s.mapped = true → s.baseValid = false → exec (.pwWrite color mask offset) s = .next { s with
      result := 0, fault := true, faultCode := 6, faultOpcode := 0x31 }) ∧
    (s.mapped = true → s.baseValid = true → s.size ≤ offset → exec (.pwWrite color mask offset) s = .next { s with
      result := 0, fault := true, faultCode := 5, faultOpcode := 0x31 })

/-- R184: two planar writes of the same offset, colour and mask leave the same video memory, whatever their reads
return. -/
def Obligations.PlanarWriteIgnoresReadData : Prop :=
  ∀ (s t s' t' : State) (color : BitVec 4) (mask : Byte) (offset : Nat), s.launch.params.Standard →
    t.launch.params.Standard → s.vga.vram = t.vga.vram → s.vga.vramTag = t.vga.vramTag →
    s.planarWrite offset color mask = .done () s' → t.planarWrite offset color mask = .done () t' →
    s'.vga.sameBytesOutside t'.vga (fun _ => False)

/-- R186: after a sequence of planar writes to one offset, each pixel of the byte has the colour of the last write
whose mask selects it, or its old colour where none does. -/
def Obligations.PlanarWritesCompose : Prop :=
  ∀ (s : State) (offset k : Nat) (writes : List (BitVec 4 × Byte)), s.launch.params.Standard → k < 8 →
    (writes.foldl (fun u w => u.planarEffects offset w.1 w.2) s).vga.pixelAt offset k =
      match writes.reverse.find? (fun w => w.2.getLsbD (7 - k)) with
      | some w => w.1
      | none => s.vga.pixelAt offset k

/-- R63: index(x, y) is the sum over the planes p of the bit 7 - (x mod 8) of plane p's byte, shifted to bit p. -/
def Obligations.IndexIsTheSumOverPlanes : Prop :=
  ∀ (s : State) (x y : Nat), s.launch.params.Ok →
    (s.index x y).toNat =
      (List.range 4).foldl (fun a p =>
        a + (((s.vga.planeByte p (y * s.rowStride + x / 8)).toNat >>> (7 - x % 8)) &&& 1) <<< p) 0

/-! ### Rasterizer and flush (45_flush.md) -/

/-- R220, R223, R230, R232: RAST_AREA of a rectangle inside a mapped head in base state completes; afterwards, with
the base values R65 is defined for, every pixel of the rectangle shows the index of its surface word's colour, every
other pixel is as before; every byte that holds none of the rectangle's pixels is as before in any case; the palette
has only grown; nothing else of the head changes. -/
def Obligations.RastAreaCommitsEveryPixel : Prop :=
  ∀ (s : State) (sf : Surface) (x0 y0 w h : Nat), s.Inv → s.mapped = true →
    s.baseValid = true → s.surface = some sf → x0 + w ≤ s.width → y0 + h ≤ s.height →
    ∃ t, exec (.rastArea x0 y0 w h) s = .next t ∧ t.result = 0 ∧ s.sameHead t ∧ t.active = s.active ∧
      t.dirty = s.dirty ∧ t.vga.esr = s.vga.esr ∧ t.vga.mode = s.vga.mode ∧ t.vga.rot = s.vga.rot ∧
      t.vga.mapMask = s.vga.mapMask ∧ s.palette.extends t.palette ∧
      (s.launch.params.Standard → ∀ x y, x0 ≤ x → x < x0 + w → y0 ≤ y → y < y0 + h →
        t.index x y = BitVec.ofNat 4 (t.assignIndex (s.surf sf x y)).1) ∧
      (s.launch.params.Standard →
        ∀ x y, x < s.width → y < s.height → ¬ (x0 ≤ x ∧ x < x0 + w ∧ y0 ≤ y ∧ y < y0 + h) →
        t.index x y = s.index x y) ∧
      s.vga.sameBytesOutside t.vga (fun off =>
        ∃ x y, x0 ≤ x ∧ x < x0 + w ∧ y0 ≤ y ∧ y < y0 + h ∧ off = y * s.rowStride + x / 8)

/-- R220, R224, in the order of the checks: UNMAPPED, OUT_OF_AREA, BASE_STATE, each before any effect; an empty
rectangle with its checks passed does nothing. -/
def Obligations.RastAreaFaults : Prop :=
  ∀ (s : State) (x y w h : Nat),
    (s.mapped = false → exec (.rastArea x y w h) s = .next { s with
      result := 0, fault := true, faultCode := 3, faultOpcode := 0x40 }) ∧
    (s.mapped = true → s.width < x + w ∨ s.height < y + h → exec (.rastArea x y w h) s = .next { s with
      result := 0, fault := true, faultCode := 4, faultOpcode := 0x40 }) ∧
    (s.mapped = true → x + w ≤ s.width → y + h ≤ s.height → s.baseValid = false →
      exec (.rastArea x y w h) s = .next { s with
        result := 0, fault := true, faultCode := 6, faultOpcode := 0x40 }) ∧
    (s.mapped = true → x + w ≤ s.width → y + h ≤ s.height → s.baseValid = true → w = 0 ∨ h = 0 →
      exec (.rastArea x y w h) s = .next { s with result := 0 })

/-- R229: RAST_AREA makes one planar write for each byte of each row and each distinct index among that byte's span
pixels. -/
def Obligations.RastAreaWriteCount : Prop :=
  ∀ (s t : State) (sf : Surface) (x0 y0 w h : Nat), s.Inv → s.launch.params.Standard → s.mapped = true →
    s.baseValid = true → s.surface = some sf → x0 + w ≤ s.width → y0 + h ≤ s.height → 0 < w →
    exec (.rastArea x0 y0 w h) s = .next t →
    (t.trace.drop s.trace.length).countP (fun e => match e with | .vramWrite _ _ => true | _ => false) =
      ((List.range' y0 h).map fun y =>
        ((List.range' (x0 / 8) ((x0 + w - 1) / 8 + 1 - x0 / 8)).map fun bi =>
          (((List.range' x0 w).filter fun x => x / 8 == bi).map fun x =>
            (t.assignIndex (s.surf sf x y)).1).dedup.length).sum).sum

/-- R222, R220. A scanline's events: the PAL_LOADs of its insertions, one for each new entry in order; then, for the
colours 0 to 15 and within one for the bytes of the rectangle's range, four events where a span pixel of that byte has
that colour, with the mask of those pixels and a data byte whose bit 0 is set. Scanlines go top to bottom: one row
more is one more RAST_AREA of that row. -/
def Obligations.RastAreaEventOrder : Prop :=
  ∀ (s t : State) (sf : Surface) (x0 y0 w : Nat), s.Inv → s.launch.params.Standard → s.mapped = true →
    s.baseValid = true → s.surface = some sf → x0 + w ≤ s.width →
    (0 < w → y0 + 1 ≤ s.height → exec (.rastArea x0 y0 w 1) s = .next t →
      let maskOf : Nat → Nat → Byte := fun c bi =>
        ((List.range' x0 w).filter fun x => x / 8 == bi && (t.assignIndex (s.surf sf x y0)).1 == c).foldl
          (fun m x => m ||| 0x80 >>> (x % 8)) 0
      ∃ data : Nat → Nat → Byte, (∀ c bi, (data c bi).getLsbD 0 = true) ∧
        t.trace = s.trace
          ++ ((List.range' (s.palette.size + 1) (t.palette.size - s.palette.size)).map fun n =>
            Event.palLoad n ((List.range n).map t.palette.entry))
          ++ (List.range 16).flatMap fun c =>
            (List.range' (x0 / 8) ((x0 + w - 1) / 8 + 1 - x0 / 8)).flatMap fun bi =>
              if maskOf c bi = 0 then []
              else [.regWrite .sr (BitVec.ofNat 8 c), .regWrite .bm (maskOf c bi),
                .vramRead (y0 * s.rowStride + bi), .vramWrite (y0 * s.rowStride + bi) (data c bi)]) ∧
    (∀ h, y0 + h + 1 ≤ s.height → exec (.rastArea x0 y0 w h) s = .next t →
      exec (.rastArea x0 y0 w (h + 1)) s = exec (.rastArea x0 (y0 + h) w 1) t)

/-- R225 to R228, R230, R285: FLUSH of a mapped active head completes; its events open with TTY_GRAPHICS, the four
base-state writes and, with a nonempty palette, the push; every dirty pixel then shows the index of its surface word's
colour and every other pixel is as before (with the base values R65 is defined for), the DAC holds the palette's
entries, the base state holds and the region is empty. -/
def Obligations.FlushCommitsTheDirtyRegion : Prop :=
  ∀ (s : State) (sf : Surface), s.Inv → s.active = true → s.mapped = true → s.surface = some sf →
    ∃ t, exec .flush s = .next t ∧ t.result = 0 ∧ t.active = true ∧ t.dirty = [] ∧ s.sameHead t ∧ t.baseValid = true ∧
      s.trace ++ s.flushOpening <+: t.trace ∧
      s.palette.extends t.palette ∧
      (s.launch.params.Standard →
        (∀ x y, coveredBy s.dirty x y = true → t.index x y = BitVec.ofNat 4 (t.assignIndex (s.surf sf x y)).1) ∧
        ∀ x y, x < s.width → y < s.height → coveredBy s.dirty x y = false → t.index x y = s.index x y) ∧
      (∀ j : Fin 16, t.vga.dac[j] =
        if j.val < t.palette.size then some (t.palette.entry j.val) else s.vga.dac[j]) ∧
      s.vga.sameBytesOutside t.vga (fun off => ∃ x y, coveredBy s.dirty x y = true ∧ off = y * s.rowStride + x / 8)

/-- R227, R225: an inactive FLUSH emits nothing and changes nothing (RESULT is 0, R23), `dirty` keeping every
rectangle; an active FLUSH of an unmapped head faults UNMAPPED. -/
def Obligations.InactiveOrUnmappedFlush : Prop :=
  ∀ s : State,
    (s.active = false → exec .flush s = .next { s with result := 0 }) ∧
    (s.active = true → s.mapped = false → exec .flush s = .next { s with
      result := 0, fault := true, faultCode := 3, faultOpcode := 0x41 })

/-- R231: a FLUSH of a mapped active head with nothing to rasterize still emits TTY_GRAPHICS, the four base-state
writes and, with the device open and a nonempty palette, one PAL_LOAD; no VRAM access. -/
def Obligations.EmptyFlushWritesNoVram : Prop :=
  ∀ s : State, s.active = true → s.mapped = true → s.regionRects = [] →
    ∃ t, exec .flush s = .next t ∧ t.vga.vram = s.vga.vram ∧ t.palette = s.palette ∧
      t.trace = s.trace ++ [.ttyGraphics, .regWrite .esr s.launch.params.baseEsr,
        .regWrite .mode s.launch.params.baseMode, .regWrite .rot s.launch.params.baseRotate,
        .regWrite .mapMask s.launch.params.baseMapMask] ++
        (if s.isOpen = true ∧ s.palette.size ≠ 0 then
          [.palLoad s.palette.size ((List.range s.palette.size).map s.palette.entry)] else [])

/-! ### Host registers (10_state.md) -/

/-- R24: STATUS bit by bit: OPEN, QUERIED, MAPPED, ACTIVE, BASE_VALID and FAULT in bits 0 to 5, PSIZE in [12:8],
FAULT_CODE in [19:16], FAULT_OPCODE in [31:24], every other bit 0. The element BASE_VALID shows, base_valid, is 1
exactly when the four base registers are known to hold their base values (R42), which are by default 0x0F, 0x00, 0x00
and 0x0F. -/
def Obligations.StatusIsALiveView : Prop :=
  State.reset.status = 0x00000000 ∧
  ∀ (s : State) (k : Params), s.launch.params = k →
    (s.palette.size ≤ 16 →
      s.status.toNat = s.isOpen.toNat + s.queried.toNat * 2 + s.mapped.toNat * 4 + s.active.toNat * 8 +
        s.baseValid.toNat * 16 + s.fault.toNat * 32 + s.palette.size * 2 ^ 8 + s.faultCode.toNat * 2 ^ 16 +
        s.faultOpcode.toNat * 2 ^ 24) ∧
    (s.baseValid = true ↔
      s.vga.esr = some k.baseEsr ∧ s.vga.mode = some k.baseMode ∧ s.vga.rot = some k.baseRotate ∧
      s.vga.mapMask = some k.baseMapMask) ∧
    (k = Params.default →
      (s.baseValid = true ↔
        s.vga.esr = some 0x0F ∧ s.vga.mode = some 0x00 ∧ s.vga.rot = some 0x00 ∧ s.vga.mapMask = some 0x0F))
end

