-- ==== Sys2Proof/Laws/State.lean ====
section
/-! SUPPORT. What each named update of the state leaves alone and what it sets, field by field, all by rfl or one case
split, so that no later proof unfolds an update. Each frame lemma is a conjunction that simp uses part by part. -/

namespace Sys2Proof.Machine

@[simp] theorem State.emit_frame (s : State) (e : Event) :
    (s.emit e).result = s.result ∧ (s.emit e).isOpen = s.isOpen ∧ (s.emit e).queried = s.queried ∧
    (s.emit e).mapped = s.mapped ∧ (s.emit e).active = s.active ∧ (s.emit e).width = s.width ∧
    (s.emit e).height = s.height ∧ (s.emit e).rowStride = s.rowStride ∧ (s.emit e).size = s.size ∧
    (s.emit e).palette = s.palette ∧ (s.emit e).surface = s.surface ∧ (s.emit e).dirty = s.dirty ∧
    (s.emit e).mask = s.mask ∧ (s.emit e).vga = s.vga ∧ (s.emit e).fault = s.fault ∧
    (s.emit e).faultCode = s.faultCode ∧ (s.emit e).faultOpcode = s.faultOpcode ∧ (s.emit e).inbox = s.inbox ∧
    (s.emit e).launch = s.launch ∧ (s.emit e).draws = s.draws :=
  ⟨rfl, rfl, rfl, rfl, rfl, rfl, rfl, rfl, rfl, rfl, rfl, rfl, rfl, rfl, rfl, rfl, rfl, rfl, rfl, rfl⟩

@[simp] theorem State.emit_trace (s : State) (e : Event) : (s.emit e).trace = s.trace ++ [e] := rfl

@[simp] theorem State.writeReg_frame (s : State) (r : VgaReg) (v : Byte) :
    (s.writeReg r v).result = s.result ∧ (s.writeReg r v).isOpen = s.isOpen ∧ (s.writeReg r v).queried = s.queried ∧
    (s.writeReg r v).mapped = s.mapped ∧ (s.writeReg r v).active = s.active ∧ (s.writeReg r v).width = s.width ∧
    (s.writeReg r v).height = s.height ∧ (s.writeReg r v).rowStride = s.rowStride ∧ (s.writeReg r v).size = s.size ∧
    (s.writeReg r v).palette = s.palette ∧ (s.writeReg r v).surface = s.surface ∧ (s.writeReg r v).dirty = s.dirty ∧
    (s.writeReg r v).mask = s.mask ∧ (s.writeReg r v).fault = s.fault ∧ (s.writeReg r v).faultCode = s.faultCode ∧
    (s.writeReg r v).faultOpcode = s.faultOpcode ∧ (s.writeReg r v).inbox = s.inbox ∧ (s.writeReg r v).launch = s.launch ∧
    (s.writeReg r v).draws = s.draws :=
  ⟨rfl, rfl, rfl, rfl, rfl, rfl, rfl, rfl, rfl, rfl, rfl, rfl, rfl, rfl, rfl, rfl, rfl, rfl, rfl⟩

@[simp] theorem State.writeReg_vga (s : State) (r : VgaReg) (v : Byte) : (s.writeReg r v).vga = s.vga.setReg r (some v) := rfl

@[simp] theorem State.writeReg_trace (s : State) (r : VgaReg) (v : Byte) : (s.writeReg r v).trace = s.trace ++ [.regWrite r v] := rfl

@[simp] theorem State.afterOpenDraw_frame (s : State) :
    (s.afterOpenDraw).result = s.result ∧ (s.afterOpenDraw).isOpen = s.isOpen ∧ (s.afterOpenDraw).queried = s.queried ∧
    (s.afterOpenDraw).mapped = s.mapped ∧ (s.afterOpenDraw).active = s.active ∧ (s.afterOpenDraw).width = s.width ∧
    (s.afterOpenDraw).height = s.height ∧ (s.afterOpenDraw).rowStride = s.rowStride ∧ (s.afterOpenDraw).size = s.size ∧
    (s.afterOpenDraw).palette = s.palette ∧ (s.afterOpenDraw).surface = s.surface ∧ (s.afterOpenDraw).dirty = s.dirty ∧
    (s.afterOpenDraw).mask = s.mask ∧ (s.afterOpenDraw).vga = s.vga ∧ (s.afterOpenDraw).fault = s.fault ∧
    (s.afterOpenDraw).faultCode = s.faultCode ∧ (s.afterOpenDraw).faultOpcode = s.faultOpcode ∧ (s.afterOpenDraw).trace = s.trace ∧
    (s.afterOpenDraw).inbox = s.inbox :=
  ⟨rfl, rfl, rfl, rfl, rfl, rfl, rfl, rfl, rfl, rfl, rfl, rfl, rfl, rfl, rfl, rfl, rfl, rfl, rfl⟩

@[simp] theorem State.afterOpenDraw_draws (s : State) : s.afterOpenDraw.draws = s.draws + 1 := rfl

@[simp] theorem State.afterOpenDraw_params (s : State) :
    s.afterOpenDraw.launch.params = s.launch.params ∧
    s.afterOpenDraw.launch.surfaceInit = s.launch.surfaceInit ∧
    s.afterOpenDraw.launch.identityRects = s.launch.identityRects :=
  ⟨rfl, rfl, rfl⟩

@[simp] theorem State.afterMapDraw_frame (s : State) :
    (s.afterMapDraw).result = s.result ∧ (s.afterMapDraw).isOpen = s.isOpen ∧ (s.afterMapDraw).queried = s.queried ∧
    (s.afterMapDraw).mapped = s.mapped ∧ (s.afterMapDraw).active = s.active ∧ (s.afterMapDraw).width = s.width ∧
    (s.afterMapDraw).height = s.height ∧ (s.afterMapDraw).rowStride = s.rowStride ∧ (s.afterMapDraw).size = s.size ∧
    (s.afterMapDraw).palette = s.palette ∧ (s.afterMapDraw).surface = s.surface ∧ (s.afterMapDraw).dirty = s.dirty ∧
    (s.afterMapDraw).mask = s.mask ∧ (s.afterMapDraw).vga = s.vga ∧ (s.afterMapDraw).fault = s.fault ∧
    (s.afterMapDraw).faultCode = s.faultCode ∧ (s.afterMapDraw).faultOpcode = s.faultOpcode ∧ (s.afterMapDraw).trace = s.trace ∧
    (s.afterMapDraw).inbox = s.inbox :=
  ⟨rfl, rfl, rfl, rfl, rfl, rfl, rfl, rfl, rfl, rfl, rfl, rfl, rfl, rfl, rfl, rfl, rfl, rfl, rfl⟩

@[simp] theorem State.afterMapDraw_draws (s : State) : s.afterMapDraw.draws = s.draws + 1 := rfl

@[simp] theorem State.afterMapDraw_params (s : State) :
    s.afterMapDraw.launch.params = s.launch.params ∧
    s.afterMapDraw.launch.surfaceInit = s.launch.surfaceInit ∧
    s.afterMapDraw.launch.identityRects = s.launch.identityRects :=
  ⟨rfl, rfl, rfl⟩

@[simp] theorem State.afterVtDraw_frame (s : State) :
    (s.afterVtDraw).result = s.result ∧ (s.afterVtDraw).isOpen = s.isOpen ∧ (s.afterVtDraw).queried = s.queried ∧
    (s.afterVtDraw).mapped = s.mapped ∧ (s.afterVtDraw).active = s.active ∧ (s.afterVtDraw).width = s.width ∧
    (s.afterVtDraw).height = s.height ∧ (s.afterVtDraw).rowStride = s.rowStride ∧ (s.afterVtDraw).size = s.size ∧
    (s.afterVtDraw).palette = s.palette ∧ (s.afterVtDraw).surface = s.surface ∧ (s.afterVtDraw).dirty = s.dirty ∧
    (s.afterVtDraw).mask = s.mask ∧ (s.afterVtDraw).vga = s.vga ∧ (s.afterVtDraw).fault = s.fault ∧
    (s.afterVtDraw).faultCode = s.faultCode ∧ (s.afterVtDraw).faultOpcode = s.faultOpcode ∧ (s.afterVtDraw).trace = s.trace ∧
    (s.afterVtDraw).inbox = s.inbox :=
  ⟨rfl, rfl, rfl, rfl, rfl, rfl, rfl, rfl, rfl, rfl, rfl, rfl, rfl, rfl, rfl, rfl, rfl, rfl, rfl⟩

@[simp] theorem State.afterVtDraw_draws (s : State) : s.afterVtDraw.draws = s.draws + 1 := rfl

@[simp] theorem State.afterVtDraw_params (s : State) :
    s.afterVtDraw.launch.params = s.launch.params ∧
    s.afterVtDraw.launch.surfaceInit = s.launch.surfaceInit ∧
    s.afterVtDraw.launch.identityRects = s.launch.identityRects :=
  ⟨rfl, rfl, rfl⟩

@[simp] theorem State.afterReadDraw_frame (s : State) :
    (s.afterReadDraw).result = s.result ∧ (s.afterReadDraw).isOpen = s.isOpen ∧ (s.afterReadDraw).queried = s.queried ∧
    (s.afterReadDraw).mapped = s.mapped ∧ (s.afterReadDraw).active = s.active ∧ (s.afterReadDraw).width = s.width ∧
    (s.afterReadDraw).height = s.height ∧ (s.afterReadDraw).rowStride = s.rowStride ∧ (s.afterReadDraw).size = s.size ∧
    (s.afterReadDraw).palette = s.palette ∧ (s.afterReadDraw).surface = s.surface ∧ (s.afterReadDraw).dirty = s.dirty ∧
    (s.afterReadDraw).mask = s.mask ∧ (s.afterReadDraw).vga = s.vga ∧ (s.afterReadDraw).fault = s.fault ∧
    (s.afterReadDraw).faultCode = s.faultCode ∧ (s.afterReadDraw).faultOpcode = s.faultOpcode ∧ (s.afterReadDraw).trace = s.trace ∧
    (s.afterReadDraw).inbox = s.inbox :=
  ⟨rfl, rfl, rfl, rfl, rfl, rfl, rfl, rfl, rfl, rfl, rfl, rfl, rfl, rfl, rfl, rfl, rfl, rfl, rfl⟩

@[simp] theorem State.afterReadDraw_draws (s : State) : s.afterReadDraw.draws = s.draws + 1 := rfl

@[simp] theorem State.afterReadDraw_params (s : State) :
    s.afterReadDraw.launch.params = s.launch.params ∧
    s.afterReadDraw.launch.surfaceInit = s.launch.surfaceInit ∧
    s.afterReadDraw.launch.identityRects = s.launch.identityRects :=
  ⟨rfl, rfl, rfl⟩

@[simp] theorem State.vramRead_frame (s : State) (off : Nat) :
    (s.vramRead off).result = s.result ∧ (s.vramRead off).isOpen = s.isOpen ∧ (s.vramRead off).queried = s.queried ∧
    (s.vramRead off).mapped = s.mapped ∧ (s.vramRead off).active = s.active ∧ (s.vramRead off).width = s.width ∧
    (s.vramRead off).height = s.height ∧ (s.vramRead off).rowStride = s.rowStride ∧ (s.vramRead off).size = s.size ∧
    (s.vramRead off).palette = s.palette ∧ (s.vramRead off).surface = s.surface ∧ (s.vramRead off).dirty = s.dirty ∧
    (s.vramRead off).mask = s.mask ∧ (s.vramRead off).fault = s.fault ∧ (s.vramRead off).faultCode = s.faultCode ∧
    (s.vramRead off).faultOpcode = s.faultOpcode ∧ (s.vramRead off).inbox = s.inbox :=
  ⟨rfl, rfl, rfl, rfl, rfl, rfl, rfl, rfl, rfl, rfl, rfl, rfl, rfl, rfl, rfl, rfl, rfl⟩

@[simp] theorem State.vramRead_vga (s : State) (off : Nat) : (s.vramRead off).vga = s.vga.loadLatches off := rfl

@[simp] theorem State.vramRead_trace (s : State) (off : Nat) : (s.vramRead off).trace = s.trace ++ [.vramRead off] := rfl

@[simp] theorem State.vramRead_params (s : State) (off : Nat) :
    (s.vramRead off).launch.params = s.launch.params ∧
    (s.vramRead off).launch.surfaceInit = s.launch.surfaceInit ∧
    (s.vramRead off).launch.identityRects = s.launch.identityRects :=
  ⟨rfl, rfl, rfl⟩

@[simp] theorem State.vramWrite_frame (s : State) (off : Nat) (d : Byte) :
    (s.vramWrite off d).result = s.result ∧ (s.vramWrite off d).isOpen = s.isOpen ∧ (s.vramWrite off d).queried = s.queried ∧
    (s.vramWrite off d).mapped = s.mapped ∧ (s.vramWrite off d).active = s.active ∧ (s.vramWrite off d).width = s.width ∧
    (s.vramWrite off d).height = s.height ∧ (s.vramWrite off d).rowStride = s.rowStride ∧ (s.vramWrite off d).size = s.size ∧
    (s.vramWrite off d).palette = s.palette ∧ (s.vramWrite off d).surface = s.surface ∧ (s.vramWrite off d).dirty = s.dirty ∧
    (s.vramWrite off d).mask = s.mask ∧ (s.vramWrite off d).fault = s.fault ∧ (s.vramWrite off d).faultCode = s.faultCode ∧
    (s.vramWrite off d).faultOpcode = s.faultOpcode ∧ (s.vramWrite off d).inbox = s.inbox ∧ (s.vramWrite off d).launch = s.launch ∧
    (s.vramWrite off d).draws = s.draws :=
  ⟨rfl, rfl, rfl, rfl, rfl, rfl, rfl, rfl, rfl, rfl, rfl, rfl, rfl, rfl, rfl, rfl, rfl, rfl, rfl⟩

@[simp] theorem State.vramWrite_trace (s : State) (off : Nat) (d : Byte) : (s.vramWrite off d).trace = s.trace ++ [.vramWrite off d] := rfl

@[simp] theorem State.enterFault_frame (s : State) (c : FaultCode) (op : BitVec 8) :
    (s.enterFault c op).result = s.result ∧ (s.enterFault c op).isOpen = s.isOpen ∧ (s.enterFault c op).queried = s.queried ∧
    (s.enterFault c op).mapped = s.mapped ∧ (s.enterFault c op).active = s.active ∧ (s.enterFault c op).width = s.width ∧
    (s.enterFault c op).height = s.height ∧ (s.enterFault c op).rowStride = s.rowStride ∧ (s.enterFault c op).size = s.size ∧
    (s.enterFault c op).palette = s.palette ∧ (s.enterFault c op).surface = s.surface ∧ (s.enterFault c op).dirty = s.dirty ∧
    (s.enterFault c op).mask = s.mask ∧ (s.enterFault c op).vga = s.vga ∧ (s.enterFault c op).trace = s.trace ∧
    (s.enterFault c op).inbox = s.inbox ∧ (s.enterFault c op).launch = s.launch ∧ (s.enterFault c op).draws = s.draws :=
  ⟨rfl, rfl, rfl, rfl, rfl, rfl, rfl, rfl, rfl, rfl, rfl, rfl, rfl, rfl, rfl, rfl, rfl, rfl⟩

@[simp] theorem State.enterFault_recorded (s : State) (c : FaultCode) (op : BitVec 8) :
    (s.enterFault c op).fault = true ∧ (s.enterFault c op).faultCode = c.number ∧
    (s.enterFault c op).faultOpcode = op :=
  ⟨rfl, rfl, rfl⟩

@[simp] theorem State.writeBase_frame (s : State) :
    (s.writeBase).result = s.result ∧ (s.writeBase).isOpen = s.isOpen ∧ (s.writeBase).queried = s.queried ∧
    (s.writeBase).mapped = s.mapped ∧ (s.writeBase).active = s.active ∧ (s.writeBase).width = s.width ∧
    (s.writeBase).height = s.height ∧ (s.writeBase).rowStride = s.rowStride ∧ (s.writeBase).size = s.size ∧
    (s.writeBase).palette = s.palette ∧ (s.writeBase).surface = s.surface ∧ (s.writeBase).dirty = s.dirty ∧
    (s.writeBase).mask = s.mask ∧ (s.writeBase).fault = s.fault ∧ (s.writeBase).faultCode = s.faultCode ∧
    (s.writeBase).faultOpcode = s.faultOpcode ∧ (s.writeBase).inbox = s.inbox ∧ (s.writeBase).launch = s.launch ∧
    (s.writeBase).draws = s.draws := by
  simp [State.writeBase]

@[simp] theorem State.writeBase_vga (s : State) :
    s.writeBase.vga = { s.vga with
      esr := some s.launch.params.baseEsr, mode := some s.launch.params.baseMode, rot := some s.launch.params.baseRotate,
      mapMask := some s.launch.params.baseMapMask } := by
  simp [State.writeBase, Vga.setReg]

theorem State.writeBase_trace (s : State) :
    s.writeBase.trace = s.trace ++ [.regWrite .esr s.launch.params.baseEsr, .regWrite .mode s.launch.params.baseMode,
      .regWrite .rot s.launch.params.baseRotate, .regWrite .mapMask s.launch.params.baseMapMask] := by
  simp [State.writeBase]

@[simp] theorem State.planarEffects_frame (s : State) (off : Nat) (c : BitVec 4) (m : Byte) :
    (s.planarEffects off c m).result = s.result ∧ (s.planarEffects off c m).isOpen = s.isOpen ∧ (s.planarEffects off c m).queried = s.queried ∧
    (s.planarEffects off c m).mapped = s.mapped ∧ (s.planarEffects off c m).active = s.active ∧ (s.planarEffects off c m).width = s.width ∧
    (s.planarEffects off c m).height = s.height ∧ (s.planarEffects off c m).rowStride = s.rowStride ∧ (s.planarEffects off c m).size = s.size ∧
    (s.planarEffects off c m).palette = s.palette ∧ (s.planarEffects off c m).surface = s.surface ∧ (s.planarEffects off c m).dirty = s.dirty ∧
    (s.planarEffects off c m).mask = s.mask ∧ (s.planarEffects off c m).fault = s.fault ∧ (s.planarEffects off c m).faultCode = s.faultCode ∧
    (s.planarEffects off c m).faultOpcode = s.faultOpcode ∧ (s.planarEffects off c m).inbox = s.inbox := by
  simp [State.planarEffects]

@[simp] theorem State.planarEffects_params (s : State) (off : Nat) (c : BitVec 4) (m : Byte) :
    (s.planarEffects off c m).launch.params = s.launch.params ∧
    (s.planarEffects off c m).launch.surfaceInit = s.launch.surfaceInit ∧
    (s.planarEffects off c m).launch.identityRects = s.launch.identityRects := by
  simp [State.planarEffects]

@[simp] theorem State.paletteReset_frame (s : State) :
    (s.paletteReset).result = s.result ∧ (s.paletteReset).isOpen = s.isOpen ∧ (s.paletteReset).queried = s.queried ∧
    (s.paletteReset).mapped = s.mapped ∧ (s.paletteReset).active = s.active ∧ (s.paletteReset).width = s.width ∧
    (s.paletteReset).height = s.height ∧ (s.paletteReset).rowStride = s.rowStride ∧ (s.paletteReset).size = s.size ∧
    (s.paletteReset).surface = s.surface ∧ (s.paletteReset).dirty = s.dirty ∧ (s.paletteReset).mask = s.mask ∧
    (s.paletteReset).vga = s.vga ∧ (s.paletteReset).fault = s.fault ∧ (s.paletteReset).faultCode = s.faultCode ∧
    (s.paletteReset).faultOpcode = s.faultOpcode ∧ (s.paletteReset).trace = s.trace ∧ (s.paletteReset).inbox = s.inbox ∧
    (s.paletteReset).launch = s.launch ∧ (s.paletteReset).draws = s.draws :=
  ⟨rfl, rfl, rfl, rfl, rfl, rfl, rfl, rfl, rfl, rfl, rfl, rfl, rfl, rfl, rfl, rfl, rfl, rfl, rfl, rfl⟩

@[simp] theorem State.paletteReset_palette (s : State) : s.paletteReset.palette = Palette.empty := rfl

@[simp] theorem State.setupHead_frame (s : State) (w h stride : Nat) :
    (s.setupHead w h stride).isOpen = s.isOpen ∧ (s.setupHead w h stride).mapped = s.mapped ∧ (s.setupHead w h stride).active = s.active ∧
    (s.setupHead w h stride).mask = s.mask ∧ (s.setupHead w h stride).vga = s.vga ∧ (s.setupHead w h stride).fault = s.fault ∧
    (s.setupHead w h stride).faultCode = s.faultCode ∧ (s.setupHead w h stride).faultOpcode = s.faultOpcode ∧ (s.setupHead w h stride).trace = s.trace ∧
    (s.setupHead w h stride).inbox = s.inbox ∧ (s.setupHead w h stride).launch = s.launch :=
  ⟨rfl, rfl, rfl, rfl, rfl, rfl, rfl, rfl, rfl, rfl, rfl⟩

@[simp] theorem State.unmapDevice_frame (s : State) :
    (s.unmapDevice).result = s.result ∧ (s.unmapDevice).isOpen = s.isOpen ∧ (s.unmapDevice).queried = s.queried ∧
    (s.unmapDevice).active = s.active ∧ (s.unmapDevice).width = s.width ∧ (s.unmapDevice).height = s.height ∧
    (s.unmapDevice).rowStride = s.rowStride ∧ (s.unmapDevice).size = s.size ∧ (s.unmapDevice).palette = s.palette ∧
    (s.unmapDevice).surface = s.surface ∧ (s.unmapDevice).dirty = s.dirty ∧ (s.unmapDevice).mask = s.mask ∧
    (s.unmapDevice).vga = s.vga ∧ (s.unmapDevice).fault = s.fault ∧ (s.unmapDevice).faultCode = s.faultCode ∧
    (s.unmapDevice).faultOpcode = s.faultOpcode ∧ (s.unmapDevice).trace = s.trace ∧ (s.unmapDevice).inbox = s.inbox ∧
    (s.unmapDevice).launch = s.launch ∧ (s.unmapDevice).draws = s.draws :=
  ⟨rfl, rfl, rfl, rfl, rfl, rfl, rfl, rfl, rfl, rfl, rfl, rfl, rfl, rfl, rfl, rfl, rfl, rfl, rfl, rfl⟩

@[simp] theorem State.unmapDevice_mapped (s : State) : s.unmapDevice.mapped = false := rfl

@[simp] theorem State.deactivate_frame (s : State) :
    (s.deactivate).result = s.result ∧ (s.deactivate).isOpen = s.isOpen ∧ (s.deactivate).queried = s.queried ∧
    (s.deactivate).mapped = s.mapped ∧ (s.deactivate).width = s.width ∧ (s.deactivate).height = s.height ∧
    (s.deactivate).rowStride = s.rowStride ∧ (s.deactivate).size = s.size ∧ (s.deactivate).palette = s.palette ∧
    (s.deactivate).surface = s.surface ∧ (s.deactivate).dirty = s.dirty ∧ (s.deactivate).mask = s.mask ∧
    (s.deactivate).vga = s.vga ∧ (s.deactivate).fault = s.fault ∧ (s.deactivate).faultCode = s.faultCode ∧
    (s.deactivate).faultOpcode = s.faultOpcode ∧ (s.deactivate).trace = s.trace ∧ (s.deactivate).inbox = s.inbox ∧
    (s.deactivate).launch = s.launch ∧ (s.deactivate).draws = s.draws :=
  ⟨rfl, rfl, rfl, rfl, rfl, rfl, rfl, rfl, rfl, rfl, rfl, rfl, rfl, rfl, rfl, rfl, rfl, rfl, rfl, rfl⟩

@[simp] theorem State.deactivate_active (s : State) : s.deactivate.active = false := rfl

@[simp] theorem Vga.setPlaneByte_frame (v : Vga) (p off : Nat) (b : Byte) :
    (v.setPlaneByte p off b).sr = v.sr ∧ (v.setPlaneByte p off b).esr = v.esr ∧ (v.setPlaneByte p off b).mode = v.mode ∧
    (v.setPlaneByte p off b).rot = v.rot ∧ (v.setPlaneByte p off b).mapMask = v.mapMask ∧ (v.setPlaneByte p off b).bm = v.bm ∧
    (v.setPlaneByte p off b).latch = v.latch ∧ (v.setPlaneByte p off b).vramTag = v.vramTag ∧ (v.setPlaneByte p off b).dac = v.dac :=
  ⟨rfl, rfl, rfl, rfl, rfl, rfl, rfl, rfl, rfl⟩

@[simp] theorem Vga.loadLatches_frame (v : Vga) (off : Nat) :
    (v.loadLatches off).sr = v.sr ∧ (v.loadLatches off).esr = v.esr ∧ (v.loadLatches off).mode = v.mode ∧
    (v.loadLatches off).rot = v.rot ∧ (v.loadLatches off).mapMask = v.mapMask ∧ (v.loadLatches off).bm = v.bm ∧
    (v.loadLatches off).vram = v.vram ∧ (v.loadLatches off).vramTag = v.vramTag ∧ (v.loadLatches off).dac = v.dac :=
  ⟨rfl, rfl, rfl, rfl, rfl, rfl, rfl, rfl, rfl⟩

@[simp] theorem Vga.setReg_sr (v : Vga) (c : Option Byte) : v.setReg .sr c = { v with sr := c } := rfl

@[simp] theorem Vga.setReg_esr (v : Vga) (c : Option Byte) : v.setReg .esr c = { v with esr := c } := rfl

@[simp] theorem Vga.setReg_mode (v : Vga) (c : Option Byte) : v.setReg .mode c = { v with mode := c } := rfl

@[simp] theorem Vga.setReg_rot (v : Vga) (c : Option Byte) : v.setReg .rot c = { v with rot := c } := rfl

@[simp] theorem Vga.setReg_mapMask (v : Vga) (c : Option Byte) : v.setReg .mapMask c = { v with mapMask := c } := rfl

@[simp] theorem Vga.setReg_bm (v : Vga) (c : Option Byte) : v.setReg .bm c = { v with bm := c } := rfl

@[simp] theorem Vga.setReg_frame (v : Vga) (r : VgaReg) (c : Option Byte) :
    (v.setReg r c).latch = v.latch ∧ (v.setReg r c).vram = v.vram ∧ (v.setReg r c).vramTag = v.vramTag ∧ (v.setReg r c).dac = v.dac := by
  cases r <;> exact ⟨rfl, rfl, rfl, rfl⟩

@[simp] theorem Vga.baseValid_setPlaneByte (k : Params) (v : Vga) (p off : Nat) (b : Byte) :
    (v.setPlaneByte p off b).baseValid k = v.baseValid k := rfl

@[simp] theorem Vga.baseValid_loadLatches (k : Params) (v : Vga) (off : Nat) :
    (v.loadLatches off).baseValid k = v.baseValid k := rfl

@[simp] theorem State.baseValid_planarEffects (s : State) (off : Nat) (c : BitVec 4) (m : Byte) :
    (s.planarEffects off c m).baseValid = s.baseValid := by
  simp [State.planarEffects, State.baseValid, State.vramWrite]
  rfl

@[simp] theorem State.baseValid_writeBase (s : State) : s.writeBase.baseValid = true := by
  simp [State.baseValid, Vga.baseValid]

@[simp] theorem State.setPalette_frame (s : State) :
    (s.setPalette).result = s.result ∧ (s.setPalette).isOpen = s.isOpen ∧ (s.setPalette).queried = s.queried ∧
    (s.setPalette).mapped = s.mapped ∧ (s.setPalette).active = s.active ∧ (s.setPalette).width = s.width ∧
    (s.setPalette).height = s.height ∧ (s.setPalette).rowStride = s.rowStride ∧ (s.setPalette).size = s.size ∧
    (s.setPalette).palette = s.palette ∧ (s.setPalette).surface = s.surface ∧ (s.setPalette).dirty = s.dirty ∧
    (s.setPalette).mask = s.mask ∧ (s.setPalette).fault = s.fault ∧ (s.setPalette).faultCode = s.faultCode ∧
    (s.setPalette).faultOpcode = s.faultOpcode ∧ (s.setPalette).inbox = s.inbox ∧ (s.setPalette).launch = s.launch ∧
    (s.setPalette).draws = s.draws := by
  unfold State.setPalette
  cases (!s.isOpen || s.palette.size == 0) <;> simp

@[simp] theorem State.setPalette_vga_frame (s : State) :
    s.setPalette.vga.sr = s.vga.sr ∧ s.setPalette.vga.esr = s.vga.esr ∧ s.setPalette.vga.mode = s.vga.mode ∧ s.setPalette.vga.rot = s.vga.rot ∧ s.setPalette.vga.mapMask = s.vga.mapMask ∧ s.setPalette.vga.bm = s.vga.bm ∧ s.setPalette.vga.latch = s.vga.latch ∧ s.setPalette.vga.vram = s.vga.vram ∧ s.setPalette.vga.vramTag = s.vga.vramTag := by
  unfold State.setPalette
  cases (!s.isOpen || s.palette.size == 0) <;> simp

@[simp] theorem State.baseValid_setPalette (s : State) : s.setPalette.baseValid = s.baseValid := by
  simp [State.baseValid, Vga.baseValid]

@[simp] theorem State.insertColor_frame (s : State) (p : Pixel) :
    (s.insertColor p).result = s.result ∧ (s.insertColor p).isOpen = s.isOpen ∧ (s.insertColor p).queried = s.queried ∧
    (s.insertColor p).mapped = s.mapped ∧ (s.insertColor p).active = s.active ∧ (s.insertColor p).width = s.width ∧
    (s.insertColor p).height = s.height ∧ (s.insertColor p).rowStride = s.rowStride ∧ (s.insertColor p).size = s.size ∧
    (s.insertColor p).surface = s.surface ∧ (s.insertColor p).dirty = s.dirty ∧ (s.insertColor p).mask = s.mask ∧
    (s.insertColor p).fault = s.fault ∧ (s.insertColor p).faultCode = s.faultCode ∧ (s.insertColor p).faultOpcode = s.faultOpcode ∧
    (s.insertColor p).inbox = s.inbox ∧ (s.insertColor p).launch = s.launch ∧ (s.insertColor p).draws = s.draws := by
  simp [State.insertColor]

@[simp] theorem State.insertColor_vga_frame (s : State) (p : Pixel) :
    (s.insertColor p).vga.sr = s.vga.sr ∧ (s.insertColor p).vga.esr = s.vga.esr ∧ (s.insertColor p).vga.mode = s.vga.mode ∧ (s.insertColor p).vga.rot = s.vga.rot ∧ (s.insertColor p).vga.mapMask = s.vga.mapMask ∧ (s.insertColor p).vga.bm = s.vga.bm ∧ (s.insertColor p).vga.latch = s.vga.latch ∧ (s.insertColor p).vga.vram = s.vga.vram ∧ (s.insertColor p).vga.vramTag = s.vga.vramTag := by
  simp [State.insertColor]

@[simp] theorem State.insertColor_palette (s : State) (p : Pixel) :
    (s.insertColor p).palette = s.palette.insert s.launch.params p := by
  simp [State.insertColor]

@[simp] theorem State.powerOn_frame (s : State) :
    (s.powerOn).inbox = s.inbox ∧ (s.powerOn).launch = s.launch :=
  ⟨rfl, rfl⟩

end Sys2Proof.Machine
end

