-- ==== Sys2Proof/Laws/Memory.lean ====
section
/-! SUPPORT. The storages: read after write, and every write keeps the canonical form. -/

namespace Sys2Proof.Machine

theorem Assoc.lookup_store_same {α : Type} (m : Assoc α) (k : Nat) (v : α) : (m.store k v).lookup k = some v := by
  induction m with
  | nil => simp [Assoc.store, Assoc.lookup]
  | cons e rest ih =>
    obtain ⟨j, u⟩ := e
    unfold Assoc.store
    cases h : k == j
    · cases h' : Nat.blt k j
      · have : (j == k) = false := beq_eq_false_iff_ne.mpr fun e => beq_eq_false_iff_ne.mp h e.symm
        simp [Assoc.lookup, this, ih]
      · simp [Assoc.lookup]
    · simp [Assoc.lookup]

theorem Assoc.lookup_store_ne {α : Type} (m : Assoc α) (k j : Nat) (v : α) (h : j ≠ k) :
    (m.store k v).lookup j = m.lookup j := by
  have hkj : (k == j) = false := by simpa using fun e => h e.symm
  induction m with
  | nil => simp [Assoc.store, Assoc.lookup, hkj]
  | cons e rest ih =>
    obtain ⟨i, u⟩ := e
    unfold Assoc.store
    cases h1 : k == i
    · cases h2 : Nat.blt k i
      · simp [Assoc.lookup, ih]
      · simp [Assoc.lookup, hkj]
    · have : (i == j) = false := by
        have : k = i := by simpa using h1
        simpa [← this] using fun e => h e.symm
      simp [Assoc.lookup, hkj, this]

/-- A write inside the bounds keeps the keys strictly rising and inside them. -/
theorem Assoc.within_store {α : Type} (m : Assoc α) (low high k : Nat) (v : α)
    (hm : Assoc.within low high m = true) (hl : low ≤ k) (hh : k < high) :
    Assoc.within low high (m.store k v) = true := by
  induction m generalizing low with
  | nil => simp [Assoc.store, Assoc.within, hl, hh]
  | cons e rest ih =>
    obtain ⟨j, u⟩ := e
    simp only [Assoc.within, Bool.and_eq_true, decide_eq_true_eq] at hm
    unfold Assoc.store
    cases h1 : k == j
    · have hne : k ≠ j := by simpa using h1
      cases h2 : Nat.blt k j
      · have hge : j ≤ k := Nat.le_of_not_lt fun hlt => by simp [Nat.blt_eq.mpr hlt] at h2
        have := ih (j + 1) hm.2 (by omega)
        simp [Assoc.within, hm.1, this]
      · have hlt : k < j := by simpa using h2
        simp [Assoc.within, hl, hh, hm.1.2, hm.2, Nat.succ_le_of_lt hlt]
    · have : k = j := by simpa using h1
      subst this
      simpa [Assoc.within] using hm

/-- A key below the lowest is not listed. -/
theorem Assoc.lookup_eq_none_of_lt {α : Type} (m : Assoc α) (low high k : Nat)
    (hm : Assoc.within low high m = true) (hk : k < low) : m.lookup k = none := by
  induction m generalizing low with
  | nil => rfl
  | cons e rest ih =>
    obtain ⟨j, u⟩ := e
    simp only [Assoc.within, Bool.and_eq_true, decide_eq_true_eq] at hm
    have : (j == k) = false := by simp; omega
    simp only [Assoc.lookup, this, cond_false]
    exact ih (j + 1) hm.2 (by omega)

/-- In canonical form, lists that read alike everywhere are equal. -/
theorem Assoc.eq_of_lookup {α : Type} (m n : Assoc α) (low high : Nat) (hm : Assoc.within low high m = true)
    (hn : Assoc.within low high n = true) (h : ∀ k, m.lookup k = n.lookup k) : m = n := by
  induction m generalizing n low with
  | nil =>
    cases n with
    | nil => rfl
    | cons e rest => have := h e.1; simp [Assoc.lookup] at this
  | cons e rest ih =>
    obtain ⟨j, u⟩ := e
    cases n with
    | nil => have := h j; simp [Assoc.lookup] at this
    | cons f rest' =>
      obtain ⟨k, v⟩ := f
      simp only [Assoc.within, Bool.and_eq_true, decide_eq_true_eq] at hm hn
      have hjk : j = k := by
        rcases Nat.lt_trichotomy j k with hlt | heq | hgt
        · have hj := h j
          have : (k == j) = false := beq_eq_false_iff_ne.mpr (by omega)
          simp [Assoc.lookup, this, Assoc.lookup_eq_none_of_lt rest' (k + 1) high j hn.2 (by omega)] at hj
        · exact heq
        · have hk := h k
          have : (j == k) = false := beq_eq_false_iff_ne.mpr (by omega)
          simp [Assoc.lookup, this, Assoc.lookup_eq_none_of_lt rest (j + 1) high k hm.2 (by omega)] at hk
      subst hjk
      have huv : u = v := by simpa [Assoc.lookup] using h j
      subst huv
      have hrest : rest = rest' := by
        refine ih rest' (j + 1) hm.2 hn.2 fun i => ?_
        by_cases hi : i < j + 1
        · rw [Assoc.lookup_eq_none_of_lt rest _ _ _ hm.2 hi, Assoc.lookup_eq_none_of_lt rest' _ _ _ hn.2 hi]
        · have hne : (j == i) = false := beq_eq_false_iff_ne.mpr (by omega)
          simpa [Assoc.lookup, hne] using h i
      rw [hrest]

/-! ### The planes -/

theorem planeAddress_inj {p q off off' : Nat} (hp : p < 4) (hq : q < 4)
    (h : planeAddress p off = planeAddress q off') : p = q ∧ off = off' := by
  simp only [planeAddress] at h
  omega

@[simp] theorem Vga.planeByte_setPlaneByte_same (v : Vga) (p off : Nat) (b : Byte) :
    (v.setPlaneByte p off b).planeByte p off = b := by
  simp [Vga.planeByte, Vga.setPlaneByte, Assoc.lookup_store_same]

theorem Vga.planeByte_setPlaneByte_ne (v : Vga) (p q off off' : Nat) (b : Byte)
    (h : planeAddress q off' ≠ planeAddress p off) :
    (v.setPlaneByte p off b).planeByte q off' = v.planeByte q off' := by
  simp [Vga.planeByte, Vga.setPlaneByte, Assoc.lookup_store_ne _ _ _ _ h]

/-- A byte of a plane after a write to one: the byte written at that place, the old byte everywhere else. -/
theorem Vga.planeByte_setPlaneByte (v : Vga) (p q off off' : Nat) (b : Byte) (hp : p < 4) (hq : q < 4) :
    (v.setPlaneByte p off b).planeByte q off' = if q = p ∧ off' = off then b else v.planeByte q off' := by
  split
  · next h => obtain ⟨rfl, rfl⟩ := h; simp
  · next h => exact Vga.planeByte_setPlaneByte_ne _ _ _ _ _ _ fun e => h (planeAddress_inj hq hp e)

@[simp] theorem Vga.planeByte_loadLatches (v : Vga) (off p off' : Nat) :
    (v.loadLatches off).planeByte p off' = v.planeByte p off' := rfl

theorem Vga.wf_setPlaneByte (n : Nat) (v : Vga) (p off : Nat) (b : Byte) (hv : Memory.wf n v.vram = true) (hp : p < 4)
    (ho : off < n) : Memory.wf n (v.setPlaneByte p off b).vram = true := by
  refine Assoc.within_store _ _ _ _ _ hv (Nat.zero_le _) ?_
  simp only [planeAddress]
  omega

/-! ### The surface -/

theorem Surface.write_wf (sf : Surface) (width height x y : Nat) (pixel : Pixel)
    (h : sf.wf width height = true) (hx : x < width) (hy : y < height) :
    (sf.write width x y pixel).wf width height = true := by
  refine Assoc.within_store _ _ _ _ _ h (Nat.zero_le _) ?_
  have : (y + 1) * width ≤ height * width := Nat.mul_le_mul_right _ hy
  simp only [pixelKey]
  rw [Nat.succ_mul] at this
  omega

theorem pixelKey_inj {width x y x' y' : Nat} (hx : x < width) (hx' : x' < width)
    (h : pixelKey width x y = pixelKey width x' y') : x = x' ∧ y = y' := by
  simp only [pixelKey] at h
  have hw : 0 < width := by omega
  have e1 : (y * width + x) / width = y := by
    rw [Nat.add_comm, Nat.add_mul_div_right _ _ hw, Nat.div_eq_of_lt hx, Nat.zero_add]
  have e2 : (y' * width + x') / width = y' := by
    rw [Nat.add_comm, Nat.add_mul_div_right _ _ hw, Nat.div_eq_of_lt hx', Nat.zero_add]
  have hy : y = y' := by rw [← e1, ← e2, h]
  subst hy
  exact ⟨by omega, rfl⟩

/-- A pixel after a write to one: the word written there, the old word at every other pixel. -/
theorem State.surf_write (s : State) (sf : Surface) (x y x' y' : Nat) (pixel : Pixel) (hx : x < s.width)
    (hx' : x' < s.width) :
    s.surf (sf.write s.width x y pixel) x' y' = if x' = x ∧ y' = y then pixel else s.surf sf x' y' := by
  split
  · next h => obtain ⟨rfl, rfl⟩ := h; simp [State.surf, Surface.write, Assoc.lookup_store_same]
  · next h =>
    have : pixelKey s.width x' y' ≠ pixelKey s.width x y := fun e => h (pixelKey_inj hx' hx e)
    simp [State.surf, Surface.write, Assoc.lookup_store_ne _ _ _ _ this]

/-- What `Surf` reads depends on the width and the fixed SURFACE_INIT only. -/
theorem State.surf_congr (s t : State) (sf : Surface) (x y : Nat) (hw : t.width = s.width)
    (hi : t.launch.surfaceInit = s.launch.surfaceInit) : t.surf sf x y = s.surf sf x y := by
  simp [State.surf, hw, hi]

end Sys2Proof.Machine
end

