-- ==== Sys2Proof/Laws/Palette.lean ====
section
/-! SUPPORT. What the palette manager can do, said once: how AssignIndex ends, that the palette only grows, and that an
index once given stays (42_palette.md rules R153 to R164). -/

namespace Sys2Proof.Machine

/-! ### Slots -/

/-- An index fits the 16 entries of the mirror (R6, R30). -/
theorem capacity_le_16 {k : Params} (hk : k.Ok) : k.paletteCapacity ≤ 16 :=
  Nat.le_trans hk.capacity_le (Nat.pow_le_pow_right (by decide : 0 < 2) hk.planes_le)

/-- No slot overflows its 16 bits (R9). -/
theorem slotOf_toNat {k : Params} (hk : k.Ok) (c : Byte) : (slotOf k c).toNat = c.toNat * 2 ^ k.slotShift := by
  have hc := c.isLt
  have hp : 2 ^ k.slotShift ≤ 2 ^ 8 := Nat.pow_le_pow_right (by decide) hk.slot
  have : c.toNat * 2 ^ k.slotShift < 2 ^ 16 :=
    Nat.lt_of_le_of_lt (Nat.mul_le_mul (Nat.le_of_lt_succ (n := 255) hc) hp) (by decide)
  simp only [slotOf, BitVec.toNat_shiftLeft, BitVec.toNat_setWidth, Nat.shiftLeft_eq]
  rw [Nat.mod_eq_of_lt (by omega : c.toNat < 2 ^ 16), Nat.mod_eq_of_lt this]

/-- An inserted slot gives back its 8-bit channel (R151, R152). -/
theorem slotOf_channel {k : Params} (hk : k.Ok) (c : Byte) : (slotOf k c).toNat >>> k.slotShift = c.toNat := by
  rw [slotOf_toNat hk, Nat.shiftRight_eq_div_pow, Nat.mul_div_cancel _ (by positivity)]

/-! ### Entries of a grown palette -/

theorem Palette.entry_insert_of_ne (k : Params) (pal : Palette) (p : Pixel) (i : Nat) (h : i ≠ pal.size) :
    (pal.insert k p).entry i = pal.entry i := by
  simp [Palette.entry, Palette.insert, Vector.getD, h.symm]

theorem Palette.entry_insert_self (k : Params) (pal : Palette) (p : Pixel) (h : pal.size < 16) :
    (pal.insert k p).entry pal.size =
      { red := slotOf k (redOf p), green := slotOf k (greenOf p), blue := slotOf k (blueOf p) } := by
  simp [Palette.entry, Palette.insert, Vector.getD, h]

@[simp] theorem Palette.size_insert (k : Params) (pal : Palette) (p : Pixel) : (pal.insert k p).size = pal.size + 1 := rfl

/-- The search's test is R151's comparison. -/
theorem Palette.entryMatches_iff (k : Params) (P : Palette) (i : Nat) (p : Pixel) (sh : Nat) :
    P.entryMatches k i p sh = true ↔ (P.entry i).agrees k p sh := by
  simp [Palette.entryMatches, channelMatches, Slots.agrees, and_assoc]

theorem Palette.entryMatches_congr (k : Params) (P Q : Palette) (i : Nat) (p : Pixel) (sh : Nat)
    (h : Q.entry i = P.entry i) : Q.entryMatches k i p sh = P.entryMatches k i p sh := by
  simp [Palette.entryMatches, h]

theorem Palette.entryMatches_sameChannels (k : Params) (P : Palette) (i : Nat) (p q : Pixel) (sh : Nat)
    (h : sameChannels p q) : P.entryMatches k i q sh = P.entryMatches k i p sh := by
  simp [Palette.entryMatches, h.1, h.2.1, h.2.2]

theorem Palette.firstMatch_sameChannels (k : Params) (P : Palette) (p q : Pixel) (sh : Nat) (h : sameChannels p q) :
    P.firstMatch k q sh = P.firstMatch k p sh := by
  simp [Palette.firstMatch, P.entryMatches_sameChannels k _ p q sh h]

theorem Palette.entryMatches_insert_self {k : Params} (hk : k.Ok) (pal : Palette) (p : Pixel) (sh : Nat)
    (h : pal.size < 16) : (pal.insert k p).entryMatches k pal.size p sh = true := by
  simp [Palette.entryMatches, Palette.entry_insert_self k pal p h, channelMatches, slotOf_channel hk]

/-! ### The search -/

theorem Palette.firstMatch_eq_some (k : Params) (P : Palette) (p : Pixel) (sh i : Nat) :
    P.firstMatch k p sh = some i ↔
      i < P.size ∧ P.entryMatches k i p sh = true ∧ ∀ j < i, P.entryMatches k j p sh = false := by
  simp [Palette.firstMatch, List.find?_range_eq_some]
  tauto

theorem Palette.firstMatch_eq_none (k : Params) (P : Palette) (p : Pixel) (sh : Nat) :
    P.firstMatch k p sh = none ↔ ∀ j < P.size, P.entryMatches k j p sh = false := by
  simp [Palette.firstMatch]

/-- What a full palette's passes at the given shifts give (R153, R155): the first match, or the fallback. -/
def Palette.passes (k : Params) (P : Palette) (p : Pixel) (shifts : List Nat) : Nat :=
  (shifts.findSome? fun sh => P.firstMatch k p sh).getD (P.size - 1)

/-- What the passes after the first give a full palette: SHIFT_FIRST + 1 to SHIFT_LAST. -/
def Palette.looser (k : Params) (P : Palette) (p : Pixel) : Nat :=
  P.passes k p (List.range' (k.shiftFirst + 1) (k.shiftLast - k.shiftFirst))

theorem State.assignPasses_full (s : State) (p : Pixel) (shifts : List Nat)
    (h : s.launch.params.paletteCapacity ≤ s.palette.size) :
    s.assignPasses p shifts = (s.palette.passes s.launch.params p shifts, s) := by
  have hb : Nat.blt s.palette.size s.launch.params.paletteCapacity = false := by
    rw [← Bool.not_eq_true, Nat.blt_eq]; omega
  induction shifts with
  | nil => rfl
  | cons sh looser ih =>
    unfold State.assignPasses
    cases hf : s.palette.firstMatch s.launch.params p sh with
    | some i => simp [Palette.passes, hf]
    | none => simp [hb, ih, Palette.passes, hf]

/-- How AssignIndex ends (R153, R155, R159): a match at SHIFT_FIRST; an insertion, only from the first pass; or, with the
palette full, what the looser passes give. -/
theorem State.assignIndex_cases (s : State) (p : Pixel) (hk : s.launch.params.Ok) :
    (∃ i, s.palette.firstMatch s.launch.params p s.launch.params.shiftFirst = some i ∧ s.assignIndex p = (i, s)) ∨
    (s.palette.firstMatch s.launch.params p s.launch.params.shiftFirst = none ∧
      s.palette.size < s.launch.params.paletteCapacity ∧ s.assignIndex p = (s.palette.size, s.insertColor p)) ∨
    (s.palette.firstMatch s.launch.params p s.launch.params.shiftFirst = none ∧
      s.launch.params.paletteCapacity ≤ s.palette.size ∧
      s.assignIndex p = (s.palette.looser s.launch.params p, s)) := by
  have hs : searchShifts s.launch.params = s.launch.params.shiftFirst ::
      List.range' (s.launch.params.shiftFirst + 1) (s.launch.params.shiftLast - s.launch.params.shiftFirst) := by
    have := hk.shifts
    rw [searchShifts, Nat.sub_add_comm hk.shifts, List.range'_succ]
  rw [State.assignIndex, hs]
  unfold State.assignPasses
  cases hf : s.palette.firstMatch s.launch.params p s.launch.params.shiftFirst with
  | some i => exact .inl ⟨i, rfl, rfl⟩
  | none =>
    by_cases hlt : s.palette.size < s.launch.params.paletteCapacity
    · have hb : Nat.blt s.palette.size s.launch.params.paletteCapacity = true := Nat.blt_eq.mpr hlt
      exact .inr (.inl ⟨rfl, hlt, by simp [hb]⟩)
    · have hb : Nat.blt s.palette.size s.launch.params.paletteCapacity = false := by
        rw [← Bool.not_eq_true, Nat.blt_eq]; exact hlt
      exact .inr (.inr ⟨rfl, by omega, by simp [hb, s.assignPasses_full p _ (by omega), Palette.looser]⟩)

/-- The state AssignIndex leaves: the same, or with the colour inserted below capacity. -/
theorem State.assignIndex_state (s : State) (p : Pixel) :
    (s.assignIndex p).2 = s ∨
    (s.palette.size < s.launch.params.paletteCapacity ∧ (s.assignIndex p).2 = s.insertColor p) := by
  unfold State.assignIndex
  induction searchShifts s.launch.params with
  | nil => exact .inl rfl
  | cons sh looser ih =>
    unfold State.assignPasses
    cases s.palette.firstMatch s.launch.params p sh with
    | some i => exact .inl rfl
    | none =>
      cases hb : Nat.blt s.palette.size s.launch.params.paletteCapacity
      · exact ih
      · exact .inr ⟨Nat.blt_eq.mp hb, rfl⟩

/-- AssignIndex touches the palette, the DAC and the trace only. -/
@[simp] theorem State.assignIndex_frame (s : State) (p : Pixel) :
    (s.assignIndex p).2.result = s.result ∧ (s.assignIndex p).2.isOpen = s.isOpen ∧
    (s.assignIndex p).2.queried = s.queried ∧ (s.assignIndex p).2.mapped = s.mapped ∧
    (s.assignIndex p).2.active = s.active ∧ (s.assignIndex p).2.width = s.width ∧
    (s.assignIndex p).2.height = s.height ∧ (s.assignIndex p).2.rowStride = s.rowStride ∧
    (s.assignIndex p).2.size = s.size ∧ (s.assignIndex p).2.surface = s.surface ∧
    (s.assignIndex p).2.dirty = s.dirty ∧ (s.assignIndex p).2.mask = s.mask ∧
    (s.assignIndex p).2.fault = s.fault ∧ (s.assignIndex p).2.faultCode = s.faultCode ∧
    (s.assignIndex p).2.faultOpcode = s.faultOpcode ∧ (s.assignIndex p).2.inbox = s.inbox ∧
    (s.assignIndex p).2.launch = s.launch ∧ (s.assignIndex p).2.draws = s.draws := by
  rcases s.assignIndex_state p with h | ⟨-, h⟩ <;> rw [h] <;> simp

/-- Of the VGA side, AssignIndex touches the DAC only. -/
@[simp] theorem State.assignIndex_vga_frame (s : State) (p : Pixel) :
    (s.assignIndex p).2.vga.sr = s.vga.sr ∧ (s.assignIndex p).2.vga.esr = s.vga.esr ∧
    (s.assignIndex p).2.vga.mode = s.vga.mode ∧ (s.assignIndex p).2.vga.rot = s.vga.rot ∧
    (s.assignIndex p).2.vga.mapMask = s.vga.mapMask ∧ (s.assignIndex p).2.vga.bm = s.vga.bm ∧
    (s.assignIndex p).2.vga.latch = s.vga.latch ∧ (s.assignIndex p).2.vga.vram = s.vga.vram ∧
    (s.assignIndex p).2.vga.vramTag = s.vga.vramTag := by
  rcases s.assignIndex_state p with h | ⟨-, h⟩ <;> rw [h] <;> simp

/-! ### The palette only grows, and indices stay -/

/-- `Q` is `P` with entries appended, none if `P` was full (R162). -/
structure Palette.Grows (k : Params) (P Q : Palette) : Prop where
  size_le : P.size ≤ Q.size
  kept : ∀ i < P.size, Q.entry i = P.entry i
  full : k.paletteCapacity ≤ P.size → Q.size = P.size

theorem Palette.Grows.refl (k : Params) (P : Palette) : P.Grows k P := ⟨Nat.le_refl _, fun _ _ => rfl, fun _ => rfl⟩

theorem Palette.Grows.trans {k : Params} {P Q R : Palette} (h : P.Grows k Q) (g : Q.Grows k R) : P.Grows k R where
  size_le := Nat.le_trans h.size_le g.size_le
  kept i hi := (g.kept i (Nat.lt_of_lt_of_le hi h.size_le)).trans (h.kept i hi)
  full hf := by
    have e := h.full hf
    rw [g.full (by omega), e]

theorem Palette.Grows.insert {k : Params} (P : Palette) (p : Pixel) (h : P.size < k.paletteCapacity) :
    P.Grows k (P.insert k p) where
  size_le := by simp
  kept i hi := P.entry_insert_of_ne k p i (by omega)
  full hf := by omega

theorem State.assignIndex_grows (s : State) (p : Pixel) :
    s.palette.Grows s.launch.params (s.assignIndex p).2.palette := by
  rcases s.assignIndex_state p with h | ⟨hlt, h⟩ <;> rw [h]
  · exact .refl _ _
  · simpa using Palette.Grows.insert s.palette p hlt

theorem Palette.firstMatch_grows {k : Params} {P Q : Palette} (h : P.Grows k Q) (p : Pixel) (sh i : Nat)
    (hi : P.firstMatch k p sh = some i) : Q.firstMatch k p sh = some i := by
  rw [Palette.firstMatch_eq_some] at hi ⊢
  obtain ⟨hlt, hm, hj⟩ := hi
  refine ⟨Nat.lt_of_lt_of_le hlt h.size_le, ?_, fun j hji => ?_⟩
  · rw [P.entryMatches_congr k Q i p sh (h.kept i hlt)]; exact hm
  · rw [P.entryMatches_congr k Q j p sh (h.kept j (by omega))]; exact hj j hji

/-- Palettes of the same size and entries find the same. -/
theorem Palette.firstMatch_congr (k : Params) {P Q : Palette} (hs : Q.size = P.size)
    (he : ∀ i < P.size, Q.entry i = P.entry i) (p : Pixel) (sh : Nat) : Q.firstMatch k p sh = P.firstMatch k p sh := by
  unfold Palette.firstMatch
  rw [hs]
  exact List.find?_congr fun i hi => P.entryMatches_congr k Q i p sh (he i (List.mem_range.mp hi))

theorem Palette.looser_congr (k : Params) {P Q : Palette} (hs : Q.size = P.size)
    (he : ∀ i < P.size, Q.entry i = P.entry i) (p : Pixel) : Q.looser k p = P.looser k p := by
  simp [Palette.looser, Palette.passes, Palette.firstMatch_congr k hs he, hs]

/-- An extended palette within the capacity has grown. -/
theorem Palette.Grows.of_extends {k : Params} {P Q : Palette} (h : P.extends Q) (hQ : Q.size ≤ k.paletteCapacity) :
    P.Grows k Q := ⟨h.1, h.2, fun hf => by have := h.1; omega⟩

theorem Palette.looser_sameChannels (k : Params) (P : Palette) (p q : Pixel) (h : sameChannels p q) :
    P.looser k q = P.looser k p := by
  simp [Palette.looser, Palette.passes, P.firstMatch_sameChannels k p q _ h]

/-- A colour no entry matched is found, once inserted, at its own entry. -/
theorem Palette.firstMatch_insert {k : Params} (hk : k.Ok) (P : Palette) (p : Pixel) (sh : Nat) (h : P.size < 16)
    (hn : P.firstMatch k p sh = none) : (P.insert k p).firstMatch k p sh = some P.size := by
  rw [Palette.firstMatch_eq_none] at hn
  rw [Palette.firstMatch_eq_some]
  refine ⟨by simp, P.entryMatches_insert_self hk p sh h, fun j hj => ?_⟩
  rw [P.entryMatches_congr k _ j p sh (P.entry_insert_of_ne k p j (by omega))]
  exact hn j hj

/-- A colour the first pass finds gets the entry it finds. -/
theorem State.assignIndex_of_match (s : State) (p : Pixel) (i : Nat) (hk : s.launch.params.Ok)
    (h : s.palette.firstMatch s.launch.params p s.launch.params.shiftFirst = some i) : s.assignIndex p = (i, s) := by
  rcases s.assignIndex_cases p hk with ⟨j, hj, e⟩ | ⟨hn, -⟩ | ⟨hn, -⟩
  · rw [h] at hj; cases hj; exact e
  · rw [h] at hn; cases hn
  · rw [h] at hn; cases hn

/-- Stability (R160): once AssignIndex has given a colour an index, it gives that index in every grown palette, to every
pixel of the same red, green and blue. -/
theorem State.assignIndex_stable (s t : State) (p q : Pixel) (hk : s.launch.params.Ok)
    (ht : t.launch.params = s.launch.params) (hc : sameChannels p q)
    (h : (s.assignIndex p).2.palette.Grows s.launch.params t.palette) : (t.assignIndex q).1 = (s.assignIndex p).1 := by
  have hk' : t.launch.params.Ok := ht ▸ hk
  have found : ∀ i, t.palette.firstMatch s.launch.params p s.launch.params.shiftFirst = some i →
      (t.assignIndex q).1 = i := by
    intro i hi
    rw [t.assignIndex_of_match q i hk' (by rw [ht, Palette.firstMatch_sameChannels _ _ _ _ _ hc]; exact hi)]
  rcases s.assignIndex_cases p hk with ⟨i, hi, e⟩ | ⟨hn, hlt, e⟩ | ⟨hn, hge, e⟩ <;> rw [e] at h ⊢
  · exact found i (Palette.firstMatch_grows h p _ i hi)
  · have hlt16 := Nat.lt_of_lt_of_le hlt (capacity_le_16 hk)
    refine found _ (Palette.firstMatch_grows (P := s.palette.insert s.launch.params p) (by simpa using h) p _ _ ?_)
    exact s.palette.firstMatch_insert hk p _ hlt16 hn
  · have hp := h.full hge
    rcases t.assignIndex_cases q hk' with ⟨j, hj, -⟩ | ⟨-, hl, -⟩ | ⟨-, -, e'⟩
    · rw [ht, Palette.firstMatch_congr _ hp h.kept, Palette.firstMatch_sameChannels _ _ _ _ _ hc, hn] at hj; cases hj
    · rw [ht, hp] at hl; exact absurd hl (Nat.not_lt.mpr hge)
    · rw [e', ht, Palette.looser_congr _ hp h.kept, Palette.looser_sameChannels _ _ _ _ hc]

/-- The colour needs no insertion: it matches at the first pass, or the palette is full. -/
def Palette.Settled (k : Params) (P : Palette) (p : Pixel) : Prop :=
  P.firstMatch k p k.shiftFirst ≠ none ∨ k.paletteCapacity ≤ P.size

theorem State.assignIndex_of_settled (s : State) (p : Pixel) (hk : s.launch.params.Ok)
    (h : s.palette.Settled s.launch.params p) : (s.assignIndex p).2 = s := by
  rcases s.assignIndex_cases p hk with ⟨i, -, e⟩ | ⟨hn, hlt, -⟩ | ⟨-, -, e⟩
  · rw [e]
  · rcases h with h | h
    · exact absurd hn h
    · omega
  · rw [e]

theorem Palette.Settled.grows {k : Params} {P Q : Palette} {p : Pixel} (h : P.Settled k p) (g : P.Grows k Q) :
    Q.Settled k p := by
  rcases h with h | h
  · obtain ⟨i, hi⟩ := Option.ne_none_iff_exists'.mp h
    exact .inl (by rw [Palette.firstMatch_grows g p _ i hi]; simp)
  · exact .inr (Nat.le_trans h g.size_le)

/-- Once AssignIndex has seen a colour, it needs no insertion any more. -/
theorem State.assignIndex_settles (s : State) (p : Pixel) (hk : s.launch.params.Ok) :
    (s.assignIndex p).2.palette.Settled s.launch.params p := by
  rcases s.assignIndex_cases p hk with ⟨i, hi, e⟩ | ⟨hn, hlt, e⟩ | ⟨-, hge, e⟩ <;> rw [e]
  · exact .inl (by simp [hi])
  · have := s.palette.firstMatch_insert hk p _ (Nat.lt_of_lt_of_le hlt (capacity_le_16 hk)) hn
    exact .inl (by simp [this])
  · exact .inr hge

/-- The index depends on the palette and the parameters only. -/
theorem State.assignIndex_congr (s t : State) (p : Pixel) (h : t.palette = s.palette)
    (hk : t.launch.params = s.launch.params) : (t.assignIndex p).1 = (s.assignIndex p).1 := by
  have : ∀ shifts, (t.assignPasses p shifts).1 = (s.assignPasses p shifts).1 := by
    intro shifts
    induction shifts with
    | nil => simp [State.assignPasses, h]
    | cons sh looser ih =>
      simp only [State.assignPasses, h, hk]
      cases s.palette.firstMatch s.launch.params p sh with
      | some i => rfl
      | none => cases Nat.blt s.palette.size s.launch.params.paletteCapacity <;> simp [ih]
  rw [State.assignIndex, hk]
  exact this _

theorem Palette.passes_lt (k : Params) (P : Palette) (p : Pixel) (shifts : List Nat) (h : 0 < P.size) :
    P.passes k p shifts < P.size := by
  unfold Palette.passes
  cases hf : shifts.findSome? fun sh => P.firstMatch k p sh with
  | none => simp only [Option.getD_none]; omega
  | some i =>
    obtain ⟨sh, -, hi⟩ := List.exists_of_findSome?_eq_some hf
    exact ((P.firstMatch_eq_some k p sh i).mp hi).1

/-- The index is below palette_size afterwards. -/
theorem State.assignIndex_lt (s : State) (p : Pixel) (hk : s.launch.params.Ok) :
    (s.assignIndex p).1 < (s.assignIndex p).2.palette.size := by
  have h1 := hk.capacity_pos
  rcases s.assignIndex_cases p hk with ⟨i, hi, e⟩ | ⟨hn, hlt, e⟩ | ⟨hn, hge, e⟩ <;> rw [e]
  · exact ((Palette.firstMatch_eq_some _ _ _ _ _).mp hi).1
  · simp
  · exact s.palette.passes_lt _ p _ (by omega)

theorem State.assignIndex_size_le (s : State) (p : Pixel)
    (h : s.palette.size ≤ s.launch.params.paletteCapacity) :
    (s.assignIndex p).2.palette.size ≤ s.launch.params.paletteCapacity := by
  rcases s.assignIndex_state p with e | ⟨hlt, e⟩ <;> rw [e]
  · exact h
  · simp; omega

/-! ### The palette's invariant -/

theorem Palette.entry_empty (i : Nat) : Palette.empty.entry i = { red := 0, green := 0, blue := 0 } := by
  have h : (Vector.replicate 16 (0 : Slot)).getD i 0 = 0 := by
    by_cases hi : i < 16 <;> simp [Vector.getD, hi]
  simp only [Palette.entry, Palette.empty, h]

theorem Palette.ok_empty (k : Params) : Palette.empty.Ok k where
  size_le := Nat.zero_le _
  distinct i j hi := by simp [Palette.empty] at hi
  low_zero i := by simp [Palette.entry_empty]
  rest_zero i _ := Palette.entry_empty i

theorem Palette.insert_ok {k : Params} (hk : k.Ok) (P : Palette) (p : Pixel) (h : P.Ok k)
    (hlt : P.size < k.paletteCapacity) (hn : P.firstMatch k p k.shiftFirst = none) : (P.insert k p).Ok k := by
  rw [Palette.firstMatch_eq_none] at hn
  have old : ∀ i, i ≠ P.size → (P.insert k p).entry i = P.entry i := fun i hi => P.entry_insert_of_ne k p i hi
  have new := P.entry_insert_self k p (Nat.lt_of_lt_of_le hlt (capacity_le_16 hk))
  have apart : ∀ i, i < P.size → ¬ (P.insert k p).sameClass k i P.size k.shiftFirst := by
    intro i hi hc
    have hm := hn i hi
    simp only [Palette.sameClass, old i (by omega), new, slotOf_channel hk] at hc
    simp only [Palette.entryMatches, channelMatches, Bool.and_eq_false_iff, beq_eq_false_iff_ne] at hm
    rcases hm with (hm | hm) | hm
    · exact hm hc.1
    · exact hm hc.2.1
    · exact hm hc.2.2
  have flip : ∀ i j, (P.insert k p).sameClass k i j k.shiftFirst → (P.insert k p).sameClass k j i k.shiftFirst :=
    fun i j hc => ⟨hc.1.symm, hc.2.1.symm, hc.2.2.symm⟩
  refine ⟨by simp; omega, ?_, fun i => ?_, fun i hi => ?_⟩
  · intro i j hi hj hc
    rw [P.size_insert] at hi hj
    by_cases hie : i = P.size
    · by_cases hje : j = P.size
      · omega
      · subst hie; exact absurd (flip _ _ hc) (apart j (by omega))
    · by_cases hje : j = P.size
      · subst hje; exact absurd hc (apart i (by omega))
      · refine h.distinct i j (by omega) (by omega) ?_
        simpa [Palette.sameClass, old i hie, old j hje] using hc
  · by_cases hi : i = P.size
    · subst hi; simp [new, slotOf_toNat hk]
    · rw [old i hi]; exact h.low_zero i
  · rw [P.size_insert] at hi
    rw [old i (by omega)]
    exact h.rest_zero i (by omega)

theorem State.assignIndex_palette_ok (s : State) (p : Pixel) (hk : s.launch.params.Ok)
    (h : s.palette.Ok s.launch.params) : (s.assignIndex p).2.palette.Ok s.launch.params := by
  rcases s.assignIndex_cases p hk with ⟨i, -, e⟩ | ⟨hn, hlt, e⟩ | ⟨-, -, e⟩ <;> rw [e]
  · exact h
  · simpa using s.palette.insert_ok hk p h hlt hn
  · exact h

/-! ### Pushing to hardware -/

theorem loadDac_getElem (dac : Vector (Option Slots) 16) (i : Nat) (es : List Slots) (j : Nat) (hj : j < 16) :
    (loadDac dac i es)[j] = if i ≤ j ∧ j < i + es.length then es[j - i]? else dac[j] := by
  induction es generalizing dac i with
  | nil => simp [loadDac]
  | cons e rest ih =>
    simp only [loadDac, ih, List.length_cons]
    by_cases hij : j = i
    · subst hij; simp
    · by_cases h1 : i + 1 ≤ j ∧ j < i + 1 + rest.length
      · have h2 : i ≤ j ∧ j < i + (rest.length + 1) := by omega
        have : j - i = (j - (i + 1)) + 1 := by omega
        simp [h1, h2, this]
      · have h2 : ¬ (i ≤ j ∧ j < i + (rest.length + 1)) := by omega
        rw [if_neg h1, if_neg h2]
        simp [Ne.symm hij]

/-- The DAC after SetPalette with the device open (R156): the mirror's entries below palette_size, the rest kept. -/
theorem State.setPalette_dac (s : State) (ho : s.isOpen = true) (j : Nat) (hj : j < 16) :
    s.setPalette.vga.dac[j] = if j < s.palette.size then some (s.palette.entry j) else s.vga.dac[j] := by
  by_cases hz : s.palette.size = 0
  · simp [State.setPalette, hz]
  · simp only [State.setPalette, ho, Bool.not_true, Bool.false_or, beq_eq_false_iff_ne.mpr hz, cond_false,
      loadDac_getElem]
    by_cases h : j < s.palette.size <;> simp [Palette.entries, h]

end Sys2Proof.Machine
end

