-- ==== Sys2Proof/Laws/Planar.lean ====
section
/-! SUPPORT. What a planar write can do, said once: when it completes, what it leaves of each plane byte and each pixel, and
its events (20_memory.md R64 to R66, 43_planar_write.md R182 to R186). -/

namespace Sys2Proof.Machine

/-! ### When it completes, and how it stops -/

theorem State.planarWrite_done (s : State) (off : Nat) (c : BitVec 4) (m : Byte) (hm : s.mapped = true)
    (hb : s.baseValid = true) (hs : off < s.size) (ho : off < s.launch.params.vramPlaneBytes) :
    s.planarWrite off c m = .done () (s.planarEffects off c m) := by
  have h1 : Nat.ble s.size off = false := by rw [← Bool.not_eq_true, Nat.ble_eq]; omega
  have h2 : Nat.ble s.launch.params.vramPlaneBytes off = false := by rw [← Bool.not_eq_true, Nat.ble_eq]; omega
  simp [State.planarWrite, hm, hb, h1, h2]

/-- How a planar write ends: one of the three faults with nothing done, the model's stop, or its effects. -/
theorem State.planarWrite_cases (s : State) (off : Nat) (c : BitVec 4) (m : Byte) :
    (s.mapped = false ∧ s.planarWrite off c m = .raised .unmapped s) ∨
    (s.mapped = true ∧ s.baseValid = false ∧ s.planarWrite off c m = .raised .baseState s) ∨
    (s.mapped = true ∧ s.baseValid = true ∧ s.size ≤ off ∧ s.planarWrite off c m = .raised .outOfMap s) ∨
    (s.mapped = true ∧ s.baseValid = true ∧ off < s.size ∧ s.launch.params.vramPlaneBytes ≤ off ∧
      s.planarWrite off c m = .stuck (.vramOutside off)) ∨
    (s.mapped = true ∧ s.baseValid = true ∧ off < s.size ∧ off < s.launch.params.vramPlaneBytes ∧
      s.planarWrite off c m = .done () (s.planarEffects off c m)) := by
  unfold State.planarWrite
  cases hm : s.mapped
  · simp
  · cases hb : s.baseValid
    · simp
    · by_cases h1 : s.size ≤ off
      · simp [Nat.ble_eq.mpr h1, h1]
      · have h1' : Nat.ble s.size off = false := by rw [← Bool.not_eq_true, Nat.ble_eq]; exact h1
        by_cases h2 : s.launch.params.vramPlaneBytes ≤ off
        · simp [h1', Nat.ble_eq.mpr h2, h2]; omega
        · have h2' : Nat.ble s.launch.params.vramPlaneBytes off = false := by rw [← Bool.not_eq_true, Nat.ble_eq]; exact h2
          simp [h1', h2']; omega

theorem State.planarWrite_raised (s : State) (off : Nat) (c : BitVec 4) (m : Byte) (e : FaultCode) (t : State)
    (h : s.planarWrite off c m = .raised e t) : t = s := by
  rcases s.planarWrite_cases off c m with ⟨-, h'⟩ | ⟨-, -, h'⟩ | ⟨-, -, -, h'⟩ | ⟨-, -, -, -, h'⟩ | ⟨-, -, -, -, h'⟩ <;>
    rw [h'] at h <;> cases h <;> rfl

/-! ### Its effects -/

theorem Vga.planeByte_of_vram (v w : Vga) (p off : Nat) (h : w.vram = v.vram) (ht : w.vramTag = v.vramTag) :
    w.planeByte p off = v.planeByte p off := by
  simp [Vga.planeByte, h, ht]

/-- The registers a planar write leaves (R182, R286): SR the colour, BM the mask, the base registers as they were. -/
@[simp] theorem State.planarEffects_registers (s : State) (off : Nat) (c : BitVec 4) (m : Byte) :
    (s.planarEffects off c m).vga.sr = some (c.setWidth 8) ∧ (s.planarEffects off c m).vga.bm = some m ∧
    (s.planarEffects off c m).vga.esr = s.vga.esr ∧ (s.planarEffects off c m).vga.mode = s.vga.mode ∧
    (s.planarEffects off c m).vga.rot = s.vga.rot ∧ (s.planarEffects off c m).vga.mapMask = s.vga.mapMask ∧
    (s.planarEffects off c m).vga.dac = s.vga.dac ∧ (s.planarEffects off c m).vga.vramTag = s.vga.vramTag := by
  simp [State.planarEffects, State.vramWrite, Vga.setReg]

/-- The bit of a plane byte a planar write leaves (R65): the colour's bit p under the mask, the old bit elsewhere. -/
theorem planeWriteValue_bit (srBit : Bool) (bm latch : Byte) (i : Nat) (hi : i < 8) :
    (planeWriteValue srBit bm latch).getLsbD i = if bm.getLsbD i then srBit else latch.getLsbD i := by
  have all1 : (0xFF : Byte).getLsbD i = true := by
    have : i = 0 ∨ i = 1 ∨ i = 2 ∨ i = 3 ∨ i = 4 ∨ i = 5 ∨ i = 6 ∨ i = 7 := by omega
    rcases this with rfl | rfl | rfl | rfl | rfl | rfl | rfl | rfl <;> rfl
  have all0 : (0x00 : Byte).getLsbD i = false := by simp
  unfold planeWriteValue
  rw [BitVec.getLsbD_or, BitVec.getLsbD_and, BitVec.getLsbD_and, BitVec.getLsbD_not]
  cases srBit <;> cases hb : bm.getLsbD i <;> simp only [all1, hi, if_true, decide_true] <;> simp

/-- Four bits make the nibble they come from. -/
theorem nibble_of_bits (c : BitVec 4) :
    BitVec.ofBool (c.getLsbD 3) ++ BitVec.ofBool (c.getLsbD 2) ++ BitVec.ofBool (c.getLsbD 1)
      ++ BitVec.ofBool (c.getLsbD 0) = c := by
  revert c
  decide

/-- The byte plane p takes: written from the colour, the mask and the old byte, whatever the read returned (R184). -/
def planarByte (v : Vga) (off : Nat) (c : BitVec 4) (m : Byte) (p : Nat) : Byte :=
  planeWriteValue (c.getLsbD p) m (v.planeByte p off)

/-- Every plane byte after a planar write (R65). -/
theorem State.planarEffects_planeByte (s : State) (off off' p : Nat) (c : BitVec 4) (m : Byte)
    (hb : s.launch.params.standardBase = true) (hp : p < 4) :
    (s.planarEffects off c m).vga.planeByte p off' =
      if off' = off then planarByte s.vga off c m p else s.vga.planeByte p off' := by
  simp only [State.planarEffects, State.vramWrite, State.writtenByte, State.vramRead_params, State.writeReg_frame, hb,
    cond_true, State.vramRead_vga, State.writeReg_vga, Vga.setReg_sr, Vga.setReg_bm, Vga.loadLatches, State.knownOr]
  simp (disch := first | assumption | omega) only [Vga.planeByte_setPlaneByte]
  have h4 : p = 0 ∨ p = 1 ∨ p = 2 ∨ p = 3 := by omega
  rcases h4 with rfl | rfl | rfl | rfl <;> by_cases h : off' = off <;>
    simp [h, planarByte] <;> rfl

/-- A planar write changes no byte at another offset, whatever the base values (R66). -/
theorem State.planarEffects_planeByte_ne (s : State) (off off' p : Nat) (c : BitVec 4) (m : Byte) (hp : p < 4)
    (h : off' ≠ off) : (s.planarEffects off c m).vga.planeByte p off' = s.vga.planeByte p off' := by
  simp only [State.planarEffects, State.vramWrite, State.vramRead_vga, State.writeReg_vga]
  simp (disch := first | assumption | omega) only [Vga.planeByte_setPlaneByte, h, and_false, if_false]
  rfl

/-- Every pixel after a planar write (R66): the colour where the mask selects it in that byte, unchanged elsewhere. -/
theorem State.planarEffects_pixelAt (s : State) (off off' k : Nat) (c : BitVec 4) (m : Byte)
    (hb : s.launch.params.standardBase = true) :
    (s.planarEffects off c m).vga.pixelAt off' k =
      if off' = off ∧ m.getLsbD (7 - k) = true then c else s.vga.pixelAt off' k := by
  have hbit : ∀ p, p < 4 → ((s.planarEffects off c m).vga.planeByte p off').getLsbD (7 - k) =
      if off' = off ∧ m.getLsbD (7 - k) = true then c.getLsbD p else (s.vga.planeByte p off').getLsbD (7 - k) := by
    intro p hp
    rw [s.planarEffects_planeByte off off' p c m hb hp]
    by_cases h : off' = off
    · subst h
      simp [planarByte, planeWriteValue_bit _ _ _ _ (by omega : 7 - k < 8)]
    · simp [h]
  simp only [Vga.pixelAt, hbit 0 (by omega), hbit 1 (by omega), hbit 2 (by omega), hbit 3 (by omega)]
  by_cases h : off' = off ∧ m.getLsbD (7 - k) = true
  · simp only [if_pos h]
    exact nibble_of_bits c
  · simp only [if_neg h]

/-- The four events of a planar write, in order (R182); the data byte has bit 0 set where RMW_OR_VALUE has. -/
theorem State.planarEffects_trace (s : State) (off : Nat) (c : BitVec 4) (m : Byte) :
    ∃ d : Byte, (s.launch.params.rmwOrValue.getLsbD 0 = true → d.getLsbD 0 = true) ∧
      (s.planarEffects off c m).trace =
        s.trace ++ [.regWrite .sr (c.setWidth 8), .regWrite .bm m, .vramRead off, .vramWrite off d] := by
  refine ⟨((s.writeReg .sr (c.setWidth 8)).writeReg .bm m).readDataAnswer ||| s.launch.params.rmwOrValue, ?_, ?_⟩
  · intro h; simp [h]
  · simp [State.planarEffects]

theorem State.planarEffects_registersOk (s : State) (off : Nat) (c : BitVec 4) (m : Byte)
    (h : s.vga.RegistersOk s.launch.params) : (s.planarEffects off c m).vga.RegistersOk s.launch.params where
  sr b hb := by
    have hb' : some (c.setWidth 8) = some b := by simpa using hb
    have := c.isLt
    cases hb'
    simp [BitVec.toNat_setWidth]
    omega
  esr b hb := h.esr b (by simpa using hb)
  mode b hb := h.mode b (by simpa using hb)
  rot b hb := h.rot b (by simpa using hb)
  mapMask b hb := h.mapMask b (by simpa using hb)

theorem State.planarEffects_wf (s : State) (off : Nat) (c : BitVec 4) (m : Byte) (n : Nat) (ho : off < n)
    (h : Memory.wf n s.vga.vram = true) : Memory.wf n (s.planarEffects off c m).vga.vram = true := by
  simp only [State.planarEffects, State.vramWrite]
  refine Vga.wf_setPlaneByte _ _ _ _ _ (Vga.wf_setPlaneByte _ _ _ _ _ (Vga.wf_setPlaneByte _ _ _ _ _
    (Vga.wf_setPlaneByte _ _ _ _ _ ?_ ?_ ho) ?_ ho) ?_ ho) ?_ ho <;> first | omega | simpa using h

end Sys2Proof.Machine
end

