-- ==== Sys2Proof/Laws/Raster.lean ====
section
/-! SUPPORT. What the rasterizer and the flush can do, said once: the part of the state they leave alone, the properties they
keep, when they complete, and the pixels a completed rectangle leaves (45_flush.md R220 to R232). -/

namespace Sys2Proof.Machine

/-! ### How a run ends -/

/-- Where the run ends in a state, by completion or by a raise, that state has the property. -/
def Run.Ends {α : Type} (r : Run α) (P : State → Prop) : Prop :=
  match r with
  | .done _ t => P t
  | .raised _ t => P t
  | .stuck _ => True

theorem Run.ends_andThen {α β : Type} (r : Run α) (f : α → State → Run β) (P : State → Prop) (h : r.Ends P)
    (hf : ∀ a t, P t → (f a t).Ends P) : (r.andThen f).Ends P := by
  cases r with
  | done a t => exact hf a t h
  | raised c t => exact h
  | stuck e => trivial

theorem Run.andThen_done {α β : Type} (r : Run α) (f : α → State → Run β) (b : β) (t : State)
    (h : r.andThen f = .done b t) : ∃ a u, r = .done a u ∧ f a u = .done b t := by
  cases r with
  | done a u => exact ⟨a, u, rfl, h⟩
  | raised c u => cases h
  | stuck e => cases h

/-! ### Properties the rasterizer keeps -/

/-- A property the rasterizer's three ways to change the state keep. -/
structure RasterClosed (P : State → Prop) : Prop where
  mask : ∀ (s : State) m, P s → P { s with mask := m }
  assign : ∀ s p, P s → P (State.assignIndex s p).2
  planar : ∀ s off c m, P s → s.mapped = true → off < s.size → off < s.launch.params.vramPlaneBytes →
    P (State.planarEffects s off c m)

theorem State.planarWrite_ends {P : State → Prop} (s : State) (off : Nat) (c : BitVec 4) (m : Byte) (h : P s)
    (hc : s.mapped = true → off < s.size → off < s.launch.params.vramPlaneBytes → P (s.planarEffects off c m)) :
    (s.planarWrite off c m).Ends P := by
  rcases s.planarWrite_cases off c m with ⟨-, e⟩ | ⟨-, -, e⟩ | ⟨-, -, -, e⟩ | ⟨-, -, -, -, e⟩ | ⟨hm, -, hs, ho, e⟩ <;>
    rw [e]
  · exact h
  · exact h
  · exact h
  · trivial
  · exact hc hm hs ho

theorem RasterClosed.maskPixels {P : State → Prop} (hc : RasterClosed P) (sf : Surface) (y : Nat) (xs : List Nat)
    (s : State) (h : P s) : P (s.maskPixels sf y xs) := by
  induction xs generalizing s with
  | nil => exact h
  | cons x xs ih => exact ih _ (hc.mask _ _ (hc.assign _ _ h))

theorem State.writeMasks_ends {P : State → Prop}
    (hc : ∀ s off c m, P s → s.mapped = true → off < s.size → off < s.launch.params.vramPlaneBytes →
      P (State.planarEffects s off c m))
    (y : Nat) (ps : List (Nat × Nat)) (s : State) (h : P s) : (s.writeMasks y ps).Ends P := by
  induction ps generalizing s with
  | nil => exact h
  | cons p ps ih =>
    obtain ⟨c, bi⟩ := p
    simp only [State.writeMasks]
    cases maskByte s.mask c bi == 0
    · exact Run.ends_andThen _ _ _ (s.planarWrite_ends _ _ _ h (hc s _ _ _ h)) fun _ t ht => ih t ht
    · exact ih s h

/-- The same, of a property that the writes of these very pairs keep. -/
theorem State.writeMasks_ends' {P : State → Prop} (y : Nat) (ps : List (Nat × Nat))
    (hc : ∀ u c bi m, (c, bi) ∈ ps → P u → P (State.planarEffects u (y * u.rowStride + bi) (BitVec.ofNat 4 c) m))
    (s : State) (h : P s) : (s.writeMasks y ps).Ends P := by
  induction ps generalizing s with
  | nil => exact h
  | cons p ps ih =>
    obtain ⟨c, bi⟩ := p
    have ih' := ih fun u d bj m hq => hc u d bj m (List.mem_cons_of_mem _ hq)
    simp only [State.writeMasks]
    cases maskByte s.mask c bi == 0
    · exact Run.ends_andThen _ _ _ (s.planarWrite_ends _ _ _ h fun _ _ _ => hc s c bi _ (List.mem_cons_self ..) h)
        fun _ t ht => ih' t ht
    · exact ih' s h

theorem RasterClosed.writeMasks {P : State → Prop} (hc : RasterClosed P) (y : Nat) (ps : List (Nat × Nat))
    (s : State) (h : P s) : (s.writeMasks y ps).Ends P := State.writeMasks_ends hc.planar y ps s h

theorem RasterClosed.rasterRows {P : State → Prop} (hc : RasterClosed P) (sf : Surface) (x0 w : Nat) (ys : List Nat)
    (s : State) (h : P s) : (s.rasterRows sf x0 w ys).Ends P := by
  induction ys generalizing s with
  | nil => exact h
  | cons y ys ih =>
    refine Run.ends_andThen _ _ _ ?_ fun _ t ht => ih t ht
    exact hc.writeMasks _ _ _ (hc.maskPixels _ _ _ _ (hc.mask _ _ h))

/-- Every state RasterArea ends in keeps what its three ways to change the state keep. -/
theorem RasterClosed.rasterArea {P : State → Prop} (hc : RasterClosed P) (s : State) (x0 y0 w h : Nat) (hs : P s) :
    (s.rasterArea x0 y0 w h).Ends P := by
  unfold State.rasterArea
  cases s.mapped
  · exact hs
  cases s.rectInArea x0 y0 w h
  · exact hs
  cases s.baseValid
  · exact hs
  cases (w == 0 || h == 0)
  · cases s.surface with
    | none => trivial
    | some sf => exact hc.rasterRows _ _ _ _ _ hs
  · exact hs

theorem RasterClosed.rasterRects {P : State → Prop} (hc : RasterClosed P) (rs : List Rect) (s : State) (hs : P s) :
    (s.rasterRects rs).Ends P := by
  induction rs generalizing s with
  | nil => exact hs
  | cons r rs ih => exact Run.ends_andThen _ _ _ (hc.rasterArea _ _ _ _ _ hs) fun _ t ht => ih t ht

/-- The same for a flush, of a property its own steps keep too. -/
theorem RasterClosed.flushHead {P : State → Prop} (hc : RasterClosed P) (hstart : ∀ s, P s → P (State.flushStart s))
    (hclear : ∀ s : State, P s → P { s with dirty := [] }) (s : State) (hs : P s) : s.flushHead.Ends P := by
  unfold State.flushHead
  cases s.active
  · exact hs
  cases s.mapped
  · exact hs
  exact Run.ends_andThen _ _ _ (hc.rasterRects _ _ (hstart _ hs)) fun _ t ht => hclear t ht

/-! ### What the rasterizer leaves alone -/

/-- The state without what rasterizing may change: palette, mask rows, SR, BM, latches, planes, DAC, trace, draws. -/
def State.outsideRaster (s : State) : State :=
  { s with
    palette := Palette.empty, mask := [], trace := [], draws := 0, launch := { s.launch with vramReadData := [] },
    vga := { s.vga with sr := none, bm := none, latch := Vector.replicate 4 none, vram := [],
                        dac := Vector.replicate 16 none } }

/-- `t` differs from `s` only in what rasterizing may change; the palette has only grown and the trace only lengthened. -/
structure State.RasterStep (s t : State) : Prop where
  outside : t.outsideRaster = s.outsideRaster
  palette : s.palette.Grows s.launch.params t.palette
  trace : s.trace <+: t.trace

theorem State.RasterStep.refl (s : State) : s.RasterStep s := ⟨rfl, .refl _ _, List.prefix_refl _⟩

/-- A raster step keeps the launch's parameters. -/
theorem State.RasterStep.params {s t : State} (h : s.RasterStep t) : t.launch.params = s.launch.params := by
  have e := congrArg (fun u => u.launch.params) h.outside
  exact e

theorem State.RasterStep.trans {s t u : State} (h : s.RasterStep t) (g : t.RasterStep u) : s.RasterStep u :=
  ⟨g.outside.trans h.outside, h.palette.trans (h.params ▸ g.palette), h.trace.trans g.trace⟩

theorem State.setPalette_trace_prefix (s : State) : s.trace <+: s.setPalette.trace := by
  unfold State.setPalette
  cases (!s.isOpen || s.palette.size == 0)
  · exact List.prefix_append _ _
  · exact List.prefix_refl _

theorem State.assignIndex_trace_prefix (s : State) (p : Pixel) : s.trace <+: (s.assignIndex p).2.trace := by
  rcases s.assignIndex_state p with h | ⟨-, h⟩
  · rw [h]
  · rw [h]
    exact State.setPalette_trace_prefix { s with palette := s.palette.insert s.launch.params p }

theorem State.rasterStep_assign (s : State) (p : Pixel) : s.RasterStep (s.assignIndex p).2 where
  outside := by simp [State.outsideRaster]
  palette := s.assignIndex_grows p
  trace := s.assignIndex_trace_prefix p

theorem State.rasterStep_mask (s : State) (m : List (List Byte)) : s.RasterStep { s with mask := m } where
  outside := rfl
  palette := .refl _ _
  trace := List.prefix_refl _

theorem State.planarEffects_launch (s : State) (off : Nat) (c : BitVec 4) (m : Byte) :
    (s.planarEffects off c m).launch = { s.launch with vramReadData := s.launch.vramReadData.tail } := by
  simp [State.planarEffects, State.vramRead, State.afterReadDraw]

theorem State.rasterStep_planar (s : State) (off : Nat) (c : BitVec 4) (m : Byte) :
    s.RasterStep (s.planarEffects off c m) where
  outside := by simp [State.outsideRaster, State.planarEffects_launch]
  palette := by simpa using Palette.Grows.refl s.launch.params s.palette
  trace := by
    obtain ⟨d, -, e⟩ := s.planarEffects_trace off c m
    exact ⟨_, e.symm⟩

theorem State.rasterClosed_step (s : State) : RasterClosed s.RasterStep where
  mask t m h := h.trans (t.rasterStep_mask m)
  assign t p h := h.trans (t.rasterStep_assign p)
  planar t off c m h _ _ _ := h.trans (t.rasterStep_planar off c m)

/-- The fields a raster step keeps, one by one. -/
theorem State.RasterStep.fields {s t : State} (h : s.RasterStep t) :
    t.result = s.result ∧ t.isOpen = s.isOpen ∧ t.queried = s.queried ∧ t.mapped = s.mapped ∧ t.active = s.active ∧
    t.width = s.width ∧ t.height = s.height ∧ t.rowStride = s.rowStride ∧ t.size = s.size ∧ t.surface = s.surface ∧
    t.dirty = s.dirty ∧ t.fault = s.fault ∧ t.faultCode = s.faultCode ∧ t.faultOpcode = s.faultOpcode ∧
    t.inbox = s.inbox ∧ t.launch.params = s.launch.params ∧ t.launch.surfaceInit = s.launch.surfaceInit ∧
    t.launch.identityRects = s.launch.identityRects ∧ t.vga.esr = s.vga.esr ∧ t.vga.mode = s.vga.mode ∧
    t.vga.rot = s.vga.rot ∧ t.vga.mapMask = s.vga.mapMask ∧ t.vga.vramTag = s.vga.vramTag := by
  have e := h.outside
  simp only [State.outsideRaster, State.mk.injEq, Vga.mk.injEq, Launch.mk.injEq] at e
  tauto

theorem State.RasterStep.baseValid {s t : State} (h : s.RasterStep t) : t.baseValid = s.baseValid := by
  have := h.fields
  simp [State.baseValid, Vga.baseValid, this]

theorem State.RasterStep.surf {s t : State} (h : s.RasterStep t) (sf : Surface) (x y : Nat) :
    t.surf sf x y = s.surf sf x y :=
  State.surf_congr s t sf x y h.fields.2.2.2.2.2.1 (by have := h.fields; tauto)

/-! ### Mask rows -/

/-- The mask has 16 rows of `n` bytes. -/
structure MaskShape (mask : List (List Byte)) (n : Nat) : Prop where
  rows : mask.length = 16
  bytes : ∀ c, c < 16 → (mask.getD c []).length = n

theorem maskShape_zero (n : Nat) : MaskShape (zeroMask n) n where
  rows := by simp [zeroMask, Config.maskRows]
  bytes c hc := by
    simp only [zeroMask, Config.maskRows, List.getD_eq_getElem?_getD, List.getElem?_replicate, hc, if_true,
      Option.getD_some, List.length_replicate]

theorem maskByte_zero (n c bi : Nat) : maskByte (zeroMask n) c bi = 0 := by
  simp only [maskByte, zeroMask, Config.maskRows, List.getD_eq_getElem?_getD, List.getElem?_replicate]
  by_cases hc : c < 16
  · by_cases hb : bi < n <;> simp only [hc, if_true, Option.getD_some, List.getElem?_replicate, hb, if_false,
      Option.getD_none]
  · simp only [hc, if_false, Option.getD_none, List.getElem?_nil]

theorem maskShape_set (mask : List (List Byte)) (n c bi : Nat) (b : Byte) (h : MaskShape mask n) :
    MaskShape (setMaskBit mask c bi b) n where
  rows := by simp [setMaskBit, h.rows]
  bytes d hd := by
    have := h.bytes d hd
    have hl : d < mask.length := by rw [h.rows]; exact hd
    simp only [List.getD_eq_getElem?_getD, List.getElem?_eq_getElem hl, Option.getD_some] at this
    simp only [setMaskBit, List.getD_eq_getElem?_getD, List.getElem?_modify, List.getElem?_eq_getElem hl]
    by_cases hcd : c = d <;> simp [hcd, this]

theorem maskByte_set (mask : List (List Byte)) (n c bi d bj : Nat) (b : Byte) (h : MaskShape mask n) (hc : c < 16)
    (hb : bi < n) :
    maskByte (setMaskBit mask c bi b) d bj = if d = c ∧ bj = bi then maskByte mask d bj ||| b else maskByte mask d bj := by
  simp only [maskByte, setMaskBit, List.getD_eq_getElem?_getD, List.getElem?_modify]
  by_cases hd : d < 16
  · have hl : d < mask.length := by rw [h.rows]; exact hd
    have hrow := h.bytes d hd
    simp only [List.getD_eq_getElem?_getD, List.getElem?_eq_getElem hl, Option.getD_some] at hrow
    simp only [List.getElem?_eq_getElem hl]
    by_cases hcd : c = d
    · subst hcd
      by_cases hbj : bi = bj
      · subst hbj
        have : bi < (mask[c]).length := by rw [hrow]; exact hb
        simp [List.getElem?_eq_getElem this]
      · simp [hbj, Ne.symm hbj]
    · simp [hcd, Ne.symm hcd]
  · have hl : mask.length ≤ d := by rw [h.rows]; omega
    have : ¬ d = c := by omega
    simp [List.getElem?_eq_none hl, this]

/-- Bit 7 - k of a pixel's mask bit is set exactly when k = x mod 8 (R69). -/
theorem pixelBit_getLsbD {ps : Params} (hp : ps.pixelsPerByte = 8) (hb : ps.maskBit0 = 0x80) (x k : Nat) (hk : k < 8) :
    (pixelBit ps x).getLsbD (7 - k) = decide (x % 8 = k) := by
  rw [pixelBit, hp, hb]
  have hx : x % 8 < 8 := Nat.mod_lt _ (by decide)
  have key : ∀ a < 8, ∀ b < 8, ((0x80 : Byte) >>> a).getLsbD (7 - b) = decide (a = b) := by decide
  exact key _ hx _ hk

theorem State.rasterStep_maskPixel (s : State) (sf : Surface) (y x : Nat) : s.RasterStep (s.maskPixel sf y x) :=
  (s.rasterStep_assign _).trans (State.rasterStep_mask _ _)

theorem State.rasterStep_maskPixels (s : State) (sf : Surface) (y : Nat) (xs : List Nat) :
    s.RasterStep (s.maskPixels sf y xs) :=
  s.rasterClosed_step.maskPixels sf y xs s (.refl s)

theorem State.maskPixel_params (s : State) (sf : Surface) (y x : Nat) :
    (s.maskPixel sf y x).launch.params = s.launch.params := (s.rasterStep_maskPixel sf y x).params

theorem State.maskPixels_size_le (s : State) (sf : Surface) (y : Nat) (xs : List Nat)
    (h : s.palette.size ≤ s.launch.params.paletteCapacity) :
    (s.maskPixels sf y xs).palette.size ≤ s.launch.params.paletteCapacity := by
  induction xs generalizing s with
  | nil => exact h
  | cons x xs ih =>
    have := ih (s.maskPixel sf y x)
    rw [s.maskPixel_params sf y x] at this
    exact this (s.assignIndex_size_le _ h)

/-- The masks a scanline's pixels make (R221): bit 7 - k of mask[c][bi] is set exactly where it was, or where a pixel of the
span at byte bi, bit k, has the colour c; each pixel's colour is the index any later call gives it (R160). -/
theorem State.maskPixels_bit (s : State) (sf : Surface) (y n : Nat) (xs : List Nat) (hshape : MaskShape s.mask n)
    (hk : s.launch.params.Ok) (hb : s.launch.params.maskBit0 = 0x80)
    (hsize : s.palette.size ≤ s.launch.params.paletteCapacity) (hxs : ∀ x ∈ xs, x / 8 < n) :
    MaskShape (s.maskPixels sf y xs).mask n ∧
    ∀ c bi k, k < 8 →
      ((maskByte (s.maskPixels sf y xs).mask c bi).getLsbD (7 - k) = true ↔
        (maskByte s.mask c bi).getLsbD (7 - k) = true ∨
        ∃ x ∈ xs, x / 8 = bi ∧ x % 8 = k ∧
          ((s.maskPixels sf y xs).assignIndex (s.surf sf x y)).1 = c) := by
  induction xs generalizing s with
  | nil => exact ⟨hshape, fun c bi k _ => by simp [State.maskPixels]⟩
  | cons x xs ih =>
    have hidx := s.assignIndex_lt (s.surf sf x y) hk
    have hp8 := hk.pixels
    have hpar := s.maskPixel_params sf y x
    have hsz := s.assignIndex_size_le (s.surf sf x y) hsize
    have hmask : (s.maskPixel sf y x).mask =
        setMaskBit s.mask (s.assignIndex (s.surf sf x y)).1 (x / 8) (pixelBit s.launch.params x) := by
      simp [State.maskPixel, byteColumn, hp8]
    have hsh : MaskShape (s.maskPixel sf y x).mask n := hmask ▸ maskShape_set _ _ _ _ _ hshape
    obtain ⟨hshape', hbits⟩ := ih (s.maskPixel sf y x) hsh (hpar ▸ hk) (hpar ▸ hb)
      (by rw [hpar]; exact hsz) fun x' hx' => hxs x' (List.mem_cons_of_mem _ hx')
    have hsurf : ∀ x', (s.maskPixel sf y x).surf sf x' y = s.surf sf x' y :=
      fun x' => (s.rasterStep_maskPixel sf y x).surf sf x' y
    have hstable : ((s.maskPixels sf y (x :: xs)).assignIndex (s.surf sf x y)).1 = (s.assignIndex (s.surf sf x y)).1 :=
      State.assignIndex_stable s _ _ _ hk (s.rasterStep_maskPixels sf y (x :: xs)).params ⟨rfl, rfl, rfl⟩
        (hpar ▸ ((s.maskPixel sf y x).rasterStep_maskPixels sf y xs).palette)
    refine ⟨hshape', fun c bi k hk8 => ?_⟩
    have hset := maskByte_set s.mask n (s.assignIndex (s.surf sf x y)).1 (x / 8) c bi
      (pixelBit s.launch.params x) hshape (Nat.lt_of_lt_of_le hidx (Nat.le_trans hsz (capacity_le_16 hk)))
      (hxs x (List.mem_cons_self ..))
    show (maskByte ((s.maskPixel sf y x).maskPixels sf y xs).mask c bi).getLsbD (7 - k) = true ↔ _
    rw [hbits c bi k hk8, hmask, hset]
    simp only [hsurf, List.mem_cons, exists_eq_or_imp, hstable]
    have hrec : s.maskPixels sf y (x :: xs) = (s.maskPixel sf y x).maskPixels sf y xs := rfl
    rw [hrec]
    by_cases hcb : c = (s.assignIndex (s.surf sf x y)).1 ∧ bi = x / 8
    · obtain ⟨rfl, rfl⟩ := hcb
      simp [pixelBit_getLsbD hp8 hb _ _ hk8, or_assoc]
    · rw [if_neg hcb]
      have : ¬ (x / 8 = bi ∧ x % 8 = k ∧ (s.assignIndex (s.surf sf x y)).1 = c) := fun e => hcb ⟨e.2.2.symm, e.1.symm⟩
      simp only [this, false_or]

/-- Building masks leaves the planes alone. -/
theorem State.maskPixels_vram (s : State) (sf : Surface) (y : Nat) (xs : List Nat) :
    (s.maskPixels sf y xs).vga.vram = s.vga.vram ∧ (s.maskPixels sf y xs).vga.vramTag = s.vga.vramTag := by
  induction xs generalizing s with
  | nil => exact ⟨rfl, rfl⟩
  | cons x xs ih =>
    have h1 : (s.maskPixel sf y x).vga.vram = s.vga.vram := by simp [State.maskPixel]
    have h2 : (s.maskPixel sf y x).vga.vramTag = s.vga.vramTag := by simp [State.maskPixel]
    exact ⟨(ih (s.maskPixel sf y x)).1.trans h1, (ih (s.maskPixel sf y x)).2.trans h2⟩

/-- Every colour a span has been masked with needs no insertion any more. -/
theorem State.maskPixels_settled (s : State) (sf : Surface) (y : Nat) (xs : List Nat) (hk : s.launch.params.Ok) :
    ∀ x ∈ xs, (s.maskPixels sf y xs).palette.Settled s.launch.params (s.surf sf x y) := by
  induction xs generalizing s with
  | nil => exact fun x hx => absurd hx List.not_mem_nil
  | cons x0 xs ih =>
    intro x hx
    rcases List.mem_cons.mp hx with rfl | hx
    · exact (s.assignIndex_settles (s.surf sf x y) hk).grows
        (s.maskPixel_params sf y x ▸ ((s.maskPixel sf y x).rasterStep_maskPixels sf y xs).palette)
    · have hpar := s.maskPixel_params sf y x0
      have := ih (s.maskPixel sf y x0) (hpar ▸ hk) x hx
      rwa [(s.rasterStep_maskPixel sf y x0).surf sf x y, hpar] at this

/-! ### The planar writes of a scanline -/

/-- They complete where every pair's offset is inside the mapping. -/
theorem State.writeMasks_done (s : State) (y : Nat) (ps : List (Nat × Nat)) (hm : s.mapped = true)
    (hb : s.baseValid = true) (hsz : s.size ≤ s.launch.params.vramPlaneBytes)
    (hps : ∀ p ∈ ps, y * s.rowStride + p.2 < s.size) : ∃ t, s.writeMasks y ps = .done () t := by
  induction ps generalizing s with
  | nil => exact ⟨s, rfl⟩
  | cons p ps ih =>
    obtain ⟨c, bi⟩ := p
    simp only [State.writeMasks]
    cases maskByte s.mask c bi == 0
    · have ho := hps (c, bi) (List.mem_cons_self ..)
      rw [cond_false, s.planarWrite_done _ _ _ hm hb ho (Nat.lt_of_lt_of_le ho hsz)]
      refine ih _ (by simpa using hm) (by simpa using hb) (by simpa using hsz) fun q hq => ?_
      simpa using hps q (List.mem_cons_of_mem _ hq)
    · exact ih s hm hb hsz fun q hq => hps q (List.mem_cons_of_mem _ hq)

/-- Every pixel after them: a pixel whose hits all agree on a colour, and that already has it or is hit, has it. -/
theorem State.writeMasks_pixelAt (s t : State) (y : Nat) (ps : List (Nat × Nat)) (off k : Nat) (col : BitVec 4)
    (hbase : s.launch.params.standardBase = true) (h : s.writeMasks y ps = .done () t)
    (hall : ∀ p ∈ ps, off = y * s.rowStride + p.2 → (maskByte s.mask p.1 p.2).getLsbD (7 - k) = true →
      BitVec.ofNat 4 p.1 = col)
    (hhit : s.vga.pixelAt off k = col ∨
      ∃ p ∈ ps, off = y * s.rowStride + p.2 ∧ (maskByte s.mask p.1 p.2).getLsbD (7 - k) = true) :
    t.vga.pixelAt off k = col := by
  induction ps generalizing s with
  | nil =>
    cases h
    simpa using hhit
  | cons p ps ih =>
    obtain ⟨c, bi⟩ := p
    simp only [State.writeMasks] at h
    cases hz : maskByte s.mask c bi == 0 <;> rw [hz] at h
    · obtain ⟨_, u, hu, h⟩ := Run.andThen_done _ _ _ _ h
      rcases s.planarWrite_cases (y * s.rowStride + bi) (BitVec.ofNat 4 c) (maskByte s.mask c bi) with
        ⟨-, e⟩ | ⟨-, -, e⟩ | ⟨-, -, -, e⟩ | ⟨-, -, -, -, e⟩ | ⟨-, -, -, -, e⟩ <;> rw [e] at hu <;> cases hu
      have hpix := s.planarEffects_pixelAt (y * s.rowStride + bi) off k (BitVec.ofNat 4 c) (maskByte s.mask c bi) hbase
      refine ih _ (by simpa using hbase) h (fun q hq => by simpa using hall q (List.mem_cons_of_mem _ hq)) ?_
      simp only [hpix, State.planarEffects_frame]
      by_cases hc : off = y * s.rowStride + bi ∧ (maskByte s.mask c bi).getLsbD (7 - k) = true
      · rw [if_pos hc]
        exact .inl (hall (c, bi) (List.mem_cons_self ..) hc.1 hc.2)
      · rw [if_neg hc]
        rcases hhit with hhit | ⟨q, hq, hq'⟩
        · exact .inl hhit
        · rcases List.mem_cons.mp hq with rfl | hq
          · exact absurd hq' hc
          · exact .inr ⟨q, hq, hq'⟩
    · refine ih s hbase h (fun q hq => hall q (List.mem_cons_of_mem _ hq)) ?_
      rcases hhit with hhit | ⟨q, hq, hq'⟩
      · exact .inl hhit
      · rcases List.mem_cons.mp hq with rfl | hq
        · have : maskByte s.mask c bi = 0 := by simpa using hz
          rw [this] at hq'
          simp at hq'
        · exact .inr ⟨q, hq, hq'⟩

/-- They change no byte at an offset no pair names. -/
theorem State.writeMasks_planeByte (s t : State) (y : Nat) (ps : List (Nat × Nat)) (off p : Nat)
    (h : s.writeMasks y ps = .done () t) (hp : p < 4) (hno : ∀ q ∈ ps, off ≠ y * s.rowStride + q.2) :
    t.vga.planeByte p off = s.vga.planeByte p off := by
  have := State.writeMasks_ends' (P := fun u => u.rowStride = s.rowStride ∧ u.vga.planeByte p off = s.vga.planeByte p off)
    y ps (fun u c bi m hq hu => ?_) s ⟨rfl, rfl⟩
  · rw [h] at this
    exact this.2
  · have ho : off ≠ y * u.rowStride + bi := hu.1 ▸ hno (c, bi) hq
    exact ⟨by simpa using hu.1, by rw [u.planarEffects_planeByte_ne _ _ _ _ _ hp ho]; exact hu.2⟩

theorem mem_scanlineBytes {k : Params} (hk : k.Ok) (x0 w c bi : Nat) :
    (c, bi) ∈ scanlineBytes k x0 w ↔ c < 16 ∧ x0 / 8 ≤ bi ∧ bi < x0 / 8 + ((x0 + w - 1) / 8 + 1 - x0 / 8) := by
  simp [scanlineBytes, Config.maskRows, byteColumn, hk.pixels, List.mem_range'_1]

/-! ### A scanline, and the rows of a rectangle -/

theorem State.rasterStep_buildMasks (s : State) (sf : Surface) (y x0 w : Nat) : s.RasterStep (s.buildMasks sf y x0 w) :=
  (s.rasterStep_mask _).trans (State.rasterStep_maskPixels _ sf y _)

theorem State.rasterStep_rasterRow (s t : State) (sf : Surface) (x0 w y : Nat)
    (h : s.rasterRow sf x0 w y = .done () t) : s.RasterStep t := by
  have := s.rasterClosed_step.writeMasks y (scanlineBytes s.launch.params x0 w) _ (s.rasterStep_buildMasks sf y x0 w)
  unfold State.rasterRow at h
  rw [h] at this
  exact this

theorem State.rasterStep_rasterRows (s t : State) (sf : Surface) (x0 w : Nat) (ys : List Nat)
    (h : s.rasterRows sf x0 w ys = .done () t) : s.RasterStep t := by
  have := s.rasterClosed_step.rasterRows sf x0 w ys s (.refl s)
  rw [h] at this
  exact this

theorem State.rasterRow_size_le (s t : State) (sf : Surface) (x0 w y : Nat) 
    (hsz : s.palette.size ≤ s.launch.params.paletteCapacity) (h : s.rasterRow sf x0 w y = .done () t) :
    t.palette.size ≤ t.launch.params.paletteCapacity := by
  have hP : RasterClosed fun u : State => u.palette.size ≤ u.launch.params.paletteCapacity :=
    ⟨fun _ _ h => h, fun u p h => by simpa using u.assignIndex_size_le p h,
      fun u off c m h _ _ _ => by simpa using h⟩
  have := hP.writeMasks y (scanlineBytes s.launch.params x0 w) (s.buildMasks sf y x0 w) (hP.maskPixels sf y _ _ hsz)
  unfold State.rasterRow at h
  rw [h] at this
  exact this

/-- The columns of a nonempty span lie in bytes of a row, where the stride is enough (R223). -/
theorem span_byte_lt {x0 w width stride x : Nat} (hw : x0 + w ≤ width) (hst : (width + 7) / 8 ≤ stride)
    (hx : x < x0 + w) : x / 8 < stride := by omega

/-- A scanline's writes leave the palette its masks made. -/
theorem State.rasterRow_palette (s t : State) (sf : Surface) (x0 w y : Nat)
    (h : s.rasterRow sf x0 w y = .done () t) : t.palette = (s.buildMasks sf y x0 w).palette := by
  have := State.writeMasks_ends (P := fun u => u.palette = (s.buildMasks sf y x0 w).palette)
    (fun u off c m hu _ _ _ => by simpa using hu) y (scanlineBytes s.launch.params x0 w) _ rfl
  unfold State.rasterRow at h
  rw [h] at this
  exact this

theorem State.rasterRow_settled (s t : State) (sf : Surface) (x0 w y x : Nat) (hx1 : x0 ≤ x) (hx2 : x < x0 + w)
    (hk : s.launch.params.Ok) (h : s.rasterRow sf x0 w y = .done () t) :
    t.palette.Settled s.launch.params (s.surf sf x y) := by
  rw [s.rasterRow_palette t sf x0 w y h]
  exact State.maskPixels_settled { s with mask := zeroMask s.rowStride } sf y (List.range' x0 w) hk x
    (List.mem_range'_1.mpr ⟨hx1, hx2⟩)

theorem State.rasterRow_done (s : State) (sf : Surface) (x0 w y : Nat) (hw0 : 0 < w) (hk : s.launch.params.Ok)
    (hm : s.mapped = true) (hb : s.baseValid = true) (hg : s.GeometryOk) (hx : x0 + w ≤ s.width) (hy : y < s.height) :
    ∃ t, s.rasterRow sf x0 w y = .done () t := by
  have hstep := s.rasterStep_buildMasks sf y x0 w
  have hf := hstep.fields
  refine State.writeMasks_done _ _ _ (by simpa [hf] using hm) (by simpa [hstep.baseValid] using hb)
    (by simpa [hf] using hg.size_le) fun p hp => ?_
  obtain ⟨c, bi⟩ := p
  rw [mem_scanlineBytes hk] at hp
  have hst := hg.stride_ge
  have hbi : bi < s.rowStride := by omega
  have hmul : (y + 1) * s.rowStride ≤ s.height * s.rowStride := Nat.mul_le_mul_right _ hy
  rw [Nat.succ_mul] at hmul
  simp only [hf, hg.size_eq]
  omega

/-- The pixels of a scanline after it (R230): each span pixel has its colour's index; every other pixel is as before. -/
theorem State.rasterRow_pixelAt (s t : State) (sf : Surface) (x0 w y : Nat) (hk : s.launch.params.Ok)
    (hstd : s.launch.params.Standard) (hsz : s.palette.size ≤ s.launch.params.paletteCapacity) (hg : s.GeometryOk)
    (hx : x0 + w ≤ s.width) (h : s.rasterRow sf x0 w y = .done () t) :
    (∀ x, x0 ≤ x → x < x0 + w →
      t.vga.pixelAt (y * s.rowStride + x / 8) (x % 8) = BitVec.ofNat 4 (t.assignIndex (s.surf sf x y)).1) ∧
    (∀ off k, k < 8 → (∀ x, x0 ≤ x → x < x0 + w → ¬ (off = y * s.rowStride + x / 8 ∧ k = x % 8)) →
      t.vga.pixelAt off k = s.vga.pixelAt off k) := by
  have hst := hg.stride_ge
  have hstep := s.rasterStep_buildMasks sf y x0 w
  have hf := hstep.fields
  obtain ⟨-, hbits⟩ := State.maskPixels_bit { s with mask := zeroMask s.rowStride } sf y s.rowStride (List.range' x0 w)
    (maskShape_zero _) hk hstd.mask_bit hsz (fun x hxm => by
      rw [List.mem_range'_1] at hxm
      exact span_byte_lt hx hst hxm.2)
  have hpix0 : ∀ off k, (s.buildMasks sf y x0 w).vga.pixelAt off k = s.vga.pixelAt off k := by
    intro off k
    have hv := State.maskPixels_vram { s with mask := zeroMask s.rowStride } sf y (List.range' x0 w)
    simp only [State.buildMasks, Vga.pixelAt, Vga.planeByte_of_vram _ _ _ _ hv.1 hv.2]
  have hpal := s.rasterRow_palette t sf x0 w y h
  have hidx : ∀ p, ((s.buildMasks sf y x0 w).assignIndex p).1 = (t.assignIndex p).1 :=
    fun p => (State.assignIndex_congr _ _ p hpal
      ((s.rasterStep_rasterRow t sf x0 w y h).params.trans hstep.params.symm)).symm
  have hlt16 : ∀ p, (t.assignIndex p).1 < 16 := by
    intro p
    have hk' : t.launch.params.Ok := (s.rasterStep_rasterRow t sf x0 w y h).params ▸ hk
    exact Nat.lt_of_lt_of_le (t.assignIndex_lt p hk')
      (Nat.le_trans (t.assignIndex_size_le p (s.rasterRow_size_le t sf x0 w y hsz h)) (capacity_le_16 hk'))
  have hbase : (s.buildMasks sf y x0 w).launch.params.standardBase = true := by rw [hstep.params]; exact hstd.base
  -- bit 7 - k of mask[c][bi] is set exactly at the span's pixels of colour c
  have hbit : ∀ c bi k, k < 8 → ((maskByte (s.buildMasks sf y x0 w).mask c bi).getLsbD (7 - k) = true ↔
      ∃ x, x0 ≤ x ∧ x < x0 + w ∧ x / 8 = bi ∧ x % 8 = k ∧ (t.assignIndex (s.surf sf x y)).1 = c) := by
    intro c bi k hk8
    have := hbits c bi k hk8
    simp only [maskByte_zero, List.mem_range'_1] at this
    simp only [State.buildMasks] at hidx ⊢
    rw [this]
    simp only [hidx]
    constructor
    · rintro (h0 | ⟨x, hx1, hx2⟩)
      · simp at h0
      · exact ⟨x, hx1.1, hx1.2, hx2⟩
    · rintro ⟨x, h1, h2, h3⟩
      exact .inr ⟨x, ⟨h1, h2⟩, h3⟩
  constructor
  · intro x hx1 hx2
    refine State.writeMasks_pixelAt _ _ _ _ _ _ _ hbase h ?_ (.inr ?_)
    · rintro ⟨c, bi⟩ - hoff hb
      obtain ⟨x', -, -, h3, h4, h5⟩ := (hbit c bi (x % 8) (Nat.mod_lt _ (by decide))).mp hb
      rw [hf.2.2.2.2.2.2.2.1] at hoff
      have : x' = x := by simp only at hoff; omega
      rw [← h5, this]
    · refine ⟨((t.assignIndex (s.surf sf x y)).1, x / 8), ?_, by rw [hf.2.2.2.2.2.2.2.1], ?_⟩
      · rw [mem_scanlineBytes hk]
        exact ⟨hlt16 _, by omega, by omega⟩
      · exact (hbit _ _ _ (Nat.mod_lt _ (by decide))).mpr ⟨x, hx1, hx2, rfl, rfl, rfl⟩
  · intro off k hk8 hno
    refine State.writeMasks_pixelAt _ _ _ _ _ _ _ hbase h ?_ (.inl (hpix0 off k))
    rintro ⟨c, bi⟩ - hoff hb
    obtain ⟨x', h1, h2, h3, h4, -⟩ := (hbit c bi k hk8).mp hb
    rw [hf.2.2.2.2.2.2.2.1] at hoff
    exact absurd ⟨by rw [h3]; exact hoff, h4.symm⟩ (hno x' h1 h2)

/-- A scanline changes no byte but those that hold its span's pixels, whatever the base values. -/
theorem State.rasterRow_planeByte (s t : State) (sf : Surface) (x0 w y off p : Nat) (hk : s.launch.params.Ok)
    (hw : 0 < w) (h : s.rasterRow sf x0 w y = .done () t) (hp : p < 4)
    (hno : ∀ x, x0 ≤ x → x < x0 + w → off ≠ y * s.rowStride + x / 8) :
    t.vga.planeByte p off = s.vga.planeByte p off := by
  have hv := State.maskPixels_vram { s with mask := zeroMask s.rowStride } sf y (List.range' x0 w)
  have hrs : (s.buildMasks sf y x0 w).rowStride = s.rowStride := by
    have := (s.rasterStep_buildMasks sf y x0 w).fields
    tauto
  rw [State.writeMasks_planeByte _ t y _ off p h hp fun q hq => ?_]
  · exact Vga.planeByte_of_vram _ _ _ _ hv.1 hv.2
  · obtain ⟨c, bi⟩ := q
    rw [mem_scanlineBytes hk] at hq
    have := hno (max x0 (8 * bi)) (by omega) (by omega)
    rw [show max x0 (8 * bi) / 8 = bi by omega] at this
    rw [hrs]
    exact this

/-! ### A rectangle -/

theorem State.rasterRows_planeByte (s t : State) (sf : Surface) (x0 w off p : Nat) (ys : List Nat)
    (hk : s.launch.params.Ok) (hw : 0 < w) (h : s.rasterRows sf x0 w ys = .done () t) (hp : p < 4)
    (hno : ∀ x y, x0 ≤ x → x < x0 + w → y ∈ ys → off ≠ y * s.rowStride + x / 8) :
    t.vga.planeByte p off = s.vga.planeByte p off := by
  induction ys generalizing s with
  | nil => cases h; rfl
  | cons y ys ih =>
    obtain ⟨_, u, hu, h'⟩ := Run.andThen_done _ _ _ _ h
    have hstep := s.rasterStep_rasterRow u sf x0 w y hu
    have hrs : u.rowStride = s.rowStride := by have := hstep.fields; tauto
    rw [ih u (hstep.params ▸ hk) h' fun x y' h1 h2 h3 => by
      rw [hrs]; exact hno x y' h1 h2 (List.mem_cons_of_mem _ h3)]
    exact s.rasterRow_planeByte u sf x0 w y off p hk hw hu hp fun x h1 h2 => hno x y h1 h2 (List.mem_cons_self ..)

theorem State.RasterStep.geometry {s t : State} (h : s.RasterStep t) (hg : s.GeometryOk) : t.GeometryOk := by
  have hf := h.fields
  obtain ⟨h1, h2, h3, h4, h5, h6, h7⟩ := hg
  constructor <;> simp_all

theorem State.rasterRows_done (s : State) (sf : Surface) (x0 w : Nat) (ys : List Nat) (hw0 : 0 < w)
    (hk : s.launch.params.Ok) (hm : s.mapped = true) (hb : s.baseValid = true) (hg : s.GeometryOk) (hx : x0 + w ≤ s.width)
    (hys : ∀ y ∈ ys, y < s.height) : ∃ t, s.rasterRows sf x0 w ys = .done () t := by
  induction ys generalizing s with
  | nil => exact ⟨s, rfl⟩
  | cons y ys ih =>
    obtain ⟨u, hu⟩ := s.rasterRow_done sf x0 w y hw0 hk hm hb hg hx (hys y (List.mem_cons_self ..))
    have hstep := s.rasterStep_rasterRow u sf x0 w y hu
    have hf := hstep.fields
    obtain ⟨t, ht⟩ := ih u (hstep.params ▸ hk) (by simp [hf, hm]) (by simp [hstep.baseValid, hb]) (hstep.geometry hg)
      (by simpa [hf] using hx) (fun y' hy' => by simpa [hf] using hys y' (List.mem_cons_of_mem _ hy'))
    exact ⟨t, by simp [State.rasterRows, hu, Run.andThen, ht]⟩

theorem State.rasterRows_pixelAt (s t : State) (sf : Surface) (x0 w : Nat) (ys : List Nat) (hk : s.launch.params.Ok)
    (hstd : s.launch.params.Standard) (hsz : s.palette.size ≤ s.launch.params.paletteCapacity) (hg : s.GeometryOk)
    (hx : x0 + w ≤ s.width) (hys : ∀ y ∈ ys, y < s.height) (hnd : ys.Nodup)
    (h : s.rasterRows sf x0 w ys = .done () t) :
    (∀ x y, x0 ≤ x → x < x0 + w → y ∈ ys →
      t.vga.pixelAt (y * s.rowStride + x / 8) (x % 8) = BitVec.ofNat 4 (t.assignIndex (s.surf sf x y)).1) ∧
    (∀ off k, k < 8 →
      (∀ x y, x0 ≤ x → x < x0 + w → y ∈ ys → ¬ (off = y * s.rowStride + x / 8 ∧ k = x % 8)) →
      t.vga.pixelAt off k = s.vga.pixelAt off k) := by
  induction ys generalizing s with
  | nil =>
    cases h
    exact ⟨fun x y _ _ hy => absurd hy (List.not_mem_nil), fun _ _ _ _ => rfl⟩
  | cons y0 ys ih =>
    have hst := hg.stride_ge
    obtain ⟨_, u, hu, h'⟩ := Run.andThen_done _ _ _ _ h
    have hrows : u.rasterRows sf x0 w ys = .done () t := h'
    have hstep := s.rasterStep_rasterRow u sf x0 w y0 hu
    have hf := hstep.fields
    have hrs : u.rowStride = s.rowStride := hf.2.2.2.2.2.2.2.1
    obtain ⟨hin, hout⟩ := s.rasterRow_pixelAt u sf x0 w y0 hk hstd hsz hg hx hu
    obtain ⟨hin', hout'⟩ := ih u (hstep.params ▸ hk) (hstep.params ▸ hstd) (s.rasterRow_size_le u sf x0 w y0 hsz hu)
      (hstep.geometry hg) (by simpa [hf] using hx) (fun y' hy' => by simpa [hf] using hys y' (List.mem_cons_of_mem _ hy'))
      (List.nodup_cons.mp hnd).2 hrows
    simp only [hrs, hstep.surf] at hin' hout'
    have hapart : ∀ x x' y', x < x0 + w → x' < x0 + w → y' ∈ ys →
        y0 * s.rowStride + x / 8 ≠ y' * s.rowStride + x' / 8 := by
      intro x x' y' hxw hxw' hy' e
      have b1 := span_byte_lt hx hst hxw
      have b2 := span_byte_lt hx hst hxw'
      have hne : y0 ≠ y' := fun e' => (List.nodup_cons.mp hnd).1 (e' ▸ hy')
      rcases Nat.lt_or_gt_of_ne hne with hlt | hgt
      · have := Nat.mul_le_mul_right s.rowStride (Nat.succ_le_of_lt hlt)
        rw [Nat.succ_mul] at this
        omega
      · have := Nat.mul_le_mul_right s.rowStride (Nat.succ_le_of_lt hgt)
        rw [Nat.succ_mul] at this
        omega
    constructor
    · intro x y hx1 hx2 hy
      rcases List.mem_cons.mp hy with rfl | hy
      · rw [hout' _ _ (Nat.mod_lt _ (by decide))
          (fun x' y' _ hx2' hy' e => hapart x x' y' hx2 hx2' hy' e.1)]
        rw [hin x hx1 hx2]
        have hgr : (u.assignIndex (s.surf sf x y)).2.palette.Grows u.launch.params t.palette := by
          rw [u.assignIndex_of_settled _ (hstep.params ▸ hk)
            (hstep.params ▸ s.rasterRow_settled u sf x0 w y x hx1 hx2 hk hu)]
          exact (u.rasterStep_rasterRows t sf x0 w ys hrows).palette
        rw [State.assignIndex_stable u t _ _ (hstep.params ▸ hk) (u.rasterStep_rasterRows t sf x0 w ys hrows).params
          ⟨rfl, rfl, rfl⟩ hgr]
      · exact hin' x y hx1 hx2 hy
    · intro off k hk8 hno
      rw [hout' off k hk8 fun x y h1 h2 hy => hno x y h1 h2 (List.mem_cons_of_mem _ hy)]
      exact hout off k hk8 fun x h1 h2 => hno x y0 h1 h2 (List.mem_cons_self ..)

end Sys2Proof.Machine
end

