-- ==== Sys2Proof/Laws/Commands.lean ====
section
/-! SUPPORT. What a command can do, said once: each command's rule as one table, how it ends, and the ways each rule of
the lifecycle and surface families goes. -/

namespace Sys2Proof.Machine

/-- The rule each command's meaning runs after RESULT <- 0. -/
def commandRule : Instr → State → Run Unit
  | .openDevice => State.openDevice
  | .closeDevice => State.closeDevice
  | .query w h stride type aux visual bpp => fun s => s.queryDevice w h stride type aux visual bpp
  | .mapDevice => State.mapDevice
  | .unmapDevice => fun s => .done () s.unmapDevice
  | .activate => State.activateHead
  | .deactivate => fun s => .done () s.deactivate
  | .pixWrite x y pixel => fun s => s.pixWrite x y pixel
  | .pixRead x y => fun s => s.pixRead x y
  | .dirtyAdd x y w h => fun s => s.dirtyAdd x y w h
  | .dirtyClear => State.dirtyClear
  | .palAssign p => fun s => .done () (s.palAssign p)
  | .palPush => fun s => .done () s.setPalette
  | .palRead i => fun s => .done () (s.palRead i)
  | .pwBase => State.pwBase
  | .pwWrite color mask offset => fun s => s.planarWrite offset color mask
  | .rastArea x y w h => fun s => s.rasterArea x y w h
  | .flush => State.flushHead

/-- Every meaning is its rule, run as a command. -/
theorem exec_eq (i : Instr) (s : State) : exec i s = runCommand i (commandRule i) s := by
  cases i <;> rfl

theorem exec_done (i : Instr) (s t : State) (h : commandRule i { s with result := 0 } = .done () t) :
    exec i s = .next t := by
  rw [exec_eq, runCommand, h]; rfl

theorem exec_raised (i : Instr) (s t : State) (c : FaultCode) (h : commandRule i { s with result := 0 } = .raised c t) :
    exec i s = .next (t.enterFault c (opcodeByte i)) := by
  rw [exec_eq, runCommand, h]; rfl

theorem exec_stuck (i : Instr) (s : State) (e : Fault) (h : commandRule i { s with result := 0 } = .stuck e) :
    exec i s = .fault e := by
  rw [exec_eq, runCommand, h]; rfl

/-- The inversion of a next state: the rule ended, or it raised and the fault entry followed. -/
theorem exec_next (i : Instr) (s t : State) (h : exec i s = .next t) :
    commandRule i { s with result := 0 } = .done () t ∨
    ∃ c u, commandRule i { s with result := 0 } = .raised c u ∧ t = u.enterFault c (opcodeByte i) := by
  rw [exec_eq, runCommand] at h
  cases hr : commandRule i { s with result := 0 } with
  | done a u => rw [hr] at h; cases h; exact .inl rfl
  | raised c u => rw [hr] at h; cases h; exact .inr ⟨c, u, rfl, rfl⟩
  | stuck e => rw [hr] at h; cases h

/-- No command is refused. -/
theorem exec_not_refused (i : Instr) (s : State) (r : Refusal) : exec i s ≠ .refused r := by
  rw [exec_eq, runCommand]
  cases commandRule i { s with result := 0 } <;> exact nofun

/-! ### The ways each rule goes -/

theorem State.openDevice_cases (s : State) :
    (s.isOpen = true ∧ s.openDevice = .raised .sequence s) ∨
    (s.isOpen = false ∧ s.openAnswer = true ∧ s.openDevice = .done () { s.afterOpenDraw with isOpen := true, result := 1 }) ∨
    (s.isOpen = false ∧ s.openAnswer = false ∧ s.openDevice = .done () s.afterOpenDraw) := by
  unfold State.openDevice
  cases ho : s.isOpen
  · cases ha : s.openAnswer
    · exact .inr (.inr ⟨rfl, rfl, by simp [State.afterOpenDraw, ho]⟩)
    · exact .inr (.inl ⟨rfl, rfl, rfl⟩)
  · exact .inl ⟨rfl, rfl⟩

theorem State.closeDevice_cases (s : State) :
    ((s.isOpen = false ∨ s.mapped = true) ∧ s.closeDevice = .raised .sequence s) ∨
    (s.isOpen = true ∧ s.mapped = false ∧ s.closeDevice = .done () { s with
      isOpen := false, queried := false, active := false,
      width := 0, height := 0, rowStride := 0, size := 0, surface := none, dirty := [] }) := by
  unfold State.closeDevice
  cases s.isOpen <;> cases s.mapped
  · exact .inl ⟨.inl rfl, rfl⟩
  · exact .inl ⟨.inl rfl, rfl⟩
  · exact .inr ⟨rfl, rfl, rfl⟩
  · exact .inl ⟨.inr rfl, rfl⟩

theorem compatible_iff (k : Params) (type aux visual bpp : Nat) :
    compatible k type aux visual bpp = true ↔
      type = k.typeVgaPlanes ∧ aux = k.auxVga4 ∧ visual = k.visualPseudocolor ∧ bpp = k.reqBpp := by
  simp [compatible, and_assoc]

/-- R97: a field of 0xF, which stands for every device value above 14, is compatible at no launch. -/
theorem compatible_0xF {k : Params} (hk : k.Ok) {type aux visual : Nat} (bpp : Nat)
    (h : type = 0xF ∨ aux = 0xF ∨ visual = 0xF) : compatible k type aux visual bpp = false := by
  have := hk.type_lt
  have := hk.aux_lt
  have := hk.visual_lt
  rw [← Bool.not_eq_true, compatible_iff]
  omega

theorem geometryOk_iff {k : Params} (hk : k.Ok) (w h stride : Nat) :
    geometryOk k w h stride = true ↔ (w + 7) / 8 ≤ stride ∧ h * stride ≤ k.vramPlaneBytes := by
  simp [geometryOk, hk.pixels]

theorem State.queryDevice_cases (s : State) (w h stride type aux visual bpp : Nat) :
    ((s.isOpen = false ∨ s.queried = true) ∧ s.queryDevice w h stride type aux visual bpp = .raised .sequence s) ∨
    (s.isOpen = true ∧ s.queried = false ∧ compatible s.launch.params type aux visual bpp = false ∧
      s.queryDevice w h stride type aux visual bpp = .done () s) ∨
    (s.isOpen = true ∧ s.queried = false ∧ compatible s.launch.params type aux visual bpp = true ∧
      geometryOk s.launch.params w h stride = false ∧
      s.queryDevice w h stride type aux visual bpp = .raised .geometry s) ∨
    (s.isOpen = true ∧ s.queried = false ∧ compatible s.launch.params type aux visual bpp = true ∧
      geometryOk s.launch.params w h stride = true ∧
      s.queryDevice w h stride type aux visual bpp = .done () (s.setupHead w h stride)) := by
  unfold State.queryDevice
  cases s.isOpen <;> cases s.queried
  · exact .inl ⟨.inl rfl, rfl⟩
  · exact .inl ⟨.inl rfl, rfl⟩
  · cases compatible s.launch.params type aux visual bpp
    · exact .inr (.inl ⟨rfl, rfl, rfl, rfl⟩)
    · cases geometryOk s.launch.params w h stride
      · exact .inr (.inr (.inl ⟨rfl, rfl, rfl, rfl, rfl⟩))
      · exact .inr (.inr (.inr ⟨rfl, rfl, rfl, rfl, rfl⟩))
  · exact .inl ⟨.inr rfl, rfl⟩

/-- The state MAP has made when it asks for the VT focus (R127). -/
def State.mappedHead (s : State) : State := { s.afterMapDraw with mapped := true, result := 1 }

theorem State.mapDevice_cases (s : State) :
    ((s.queried = false ∨ s.mapped = true) ∧ s.mapDevice = .raised .sequence s) ∨
    (s.queried = true ∧ s.mapped = false ∧ s.mapAnswer = false ∧ s.mapDevice = .done () s.afterMapDraw) ∨
    (s.queried = true ∧ s.mapped = false ∧ s.mapAnswer = true ∧ s.afterMapDraw.vtAnswer = false ∧
      s.mapDevice = .done () s.mappedHead.afterVtDraw) ∨
    (s.queried = true ∧ s.mapped = false ∧ s.mapAnswer = true ∧ s.afterMapDraw.vtAnswer = true ∧
      s.mapDevice = s.mappedHead.afterVtDraw.activateHead) := by
  have hv : s.mappedHead.vtAnswer = s.afterMapDraw.vtAnswer := rfl
  have hd : s.mapDevice = (bif !s.queried || s.mapped then .raised .sequence s
      else bif !s.mapAnswer then .done () s.afterMapDraw
      else bif s.mappedHead.vtAnswer then s.mappedHead.afterVtDraw.activateHead
      else .done () s.mappedHead.afterVtDraw) := rfl
  rw [hv] at hd
  rw [hd]
  cases s.queried <;> cases s.mapped
  · exact .inl ⟨.inl rfl, rfl⟩
  · exact .inl ⟨.inl rfl, rfl⟩
  · cases s.mapAnswer
    · exact .inr (.inl ⟨rfl, rfl, rfl, rfl⟩)
    · cases s.afterMapDraw.vtAnswer
      · exact .inr (.inr (.inl ⟨rfl, rfl, rfl, rfl, rfl⟩))
      · exact .inr (.inr (.inr ⟨rfl, rfl, rfl, rfl, rfl⟩))
  · exact .inl ⟨.inr rfl, rfl⟩

theorem State.activateHead_cases (s : State) :
    (s.mapped = false ∧ s.activateHead = .raised .sequence s) ∨
    (s.mapped = true ∧
      s.activateHead = State.flushHead { s with active := true, dirty := s.dirty ++ [s.fullArea] }) := by
  unfold State.activateHead
  cases s.mapped
  · exact .inl ⟨rfl, rfl⟩
  · exact .inr ⟨rfl, rfl⟩

theorem State.withPixel_cases (s : State) (x y : Nat) (rule : Surface → State) :
    (s.queried = false ∧ s.withPixel x y rule = .raised .sequence s) ∨
    (s.queried = true ∧ (s.width ≤ x ∨ s.height ≤ y) ∧ s.withPixel x y rule = .raised .outOfArea s) ∨
    (s.queried = true ∧ x < s.width ∧ y < s.height ∧ s.surface = none ∧ s.withPixel x y rule = .stuck .noSurface) ∨
    (∃ sf, s.queried = true ∧ x < s.width ∧ y < s.height ∧ s.surface = some sf ∧
      s.withPixel x y rule = .done () (rule sf)) := by
  unfold State.withPixel State.pixelInArea
  cases s.queried
  · exact .inl ⟨rfl, rfl⟩
  · by_cases hxy : x < s.width ∧ y < s.height
    · have : (decide (x < s.width) && decide (y < s.height)) = true := by simp [hxy]
      rw [this]
      cases hs : s.surface
      · exact .inr (.inr (.inl ⟨rfl, hxy.1, hxy.2, rfl, rfl⟩))
      · exact .inr (.inr (.inr ⟨_, rfl, hxy.1, hxy.2, rfl, rfl⟩))
    · have : (decide (x < s.width) && decide (y < s.height)) = false := by
        rw [← Bool.not_eq_true]; simpa using hxy
      rw [this]
      exact .inr (.inl ⟨rfl, by omega, rfl⟩)

theorem State.dirtyAdd_cases (s : State) (x y w h : Nat) :
    (s.queried = false ∧ s.dirtyAdd x y w h = .raised .sequence s) ∨
    (s.queried = true ∧ (s.width < x + w ∨ s.height < y + h) ∧ s.dirtyAdd x y w h = .raised .outOfArea s) ∨
    (s.queried = true ∧ x + w ≤ s.width ∧ y + h ≤ s.height ∧
      s.dirtyAdd x y w h = .done () { s with dirty := s.dirty ++ [{ x := x, y := y, w := w, h := h }] }) := by
  unfold State.dirtyAdd State.rectInArea
  cases s.queried
  · exact .inl ⟨rfl, rfl⟩
  · by_cases hxy : x + w ≤ s.width ∧ y + h ≤ s.height
    · have : (decide (x + w ≤ s.width) && decide (y + h ≤ s.height)) = true := by simp [hxy]
      rw [this]
      exact .inr (.inr ⟨rfl, hxy.1, hxy.2, rfl⟩)
    · have : (decide (x + w ≤ s.width) && decide (y + h ≤ s.height)) = false := by
        rw [← Bool.not_eq_true]; simpa using hxy
      rw [this]
      exact .inr (.inl ⟨rfl, by omega, rfl⟩)

theorem State.dirtyClear_cases (s : State) :
    (s.queried = false ∧ s.dirtyClear = .raised .sequence s) ∨
    (s.queried = true ∧ s.dirtyClear = .done () { s with dirty := [] }) := by
  unfold State.dirtyClear
  cases s.queried
  · exact .inl ⟨rfl, rfl⟩
  · exact .inr ⟨rfl, rfl⟩

theorem State.pwBase_cases (s : State) :
    (s.mapped = false ∧ s.pwBase = .raised .unmapped s) ∨ (s.mapped = true ∧ s.pwBase = .done () s.writeBase) := by
  unfold State.pwBase
  cases s.mapped
  · exact .inl ⟨rfl, rfl⟩
  · exact .inr ⟨rfl, rfl⟩

theorem State.flushHead_cases (s : State) :
    (s.active = false ∧ s.flushHead = .done () s) ∨
    (s.active = true ∧ s.mapped = false ∧ s.flushHead = .raised .unmapped s) ∨
    (s.active = true ∧ s.mapped = true ∧ s.flushHead = s.flushOver s.regionRects) := by
  unfold State.flushHead
  cases s.active
  · exact .inl ⟨rfl, rfl⟩
  · cases s.mapped
    · exact .inr (.inl ⟨rfl, rfl, rfl⟩)
    · exact .inr (.inr ⟨rfl, rfl, rfl⟩)

end Sys2Proof.Machine
end

