-- ==== Sys2Proof/Laws/Decode.lean ====
section
/-! SUPPORT. The small facts of the encoder and the decoder: the fields of an encoded word, and what a decoded word is. -/

namespace Sys2Proof

/-- A coordinate or size is below 4096 (R94). -/
theorem fitsCoord_iff (v : Nat) : fitsCoord v = true ↔ v < 4096 := by
  exact decide_eq_true_iff

theorem Opcode.code_lt (o : Opcode) : o.code < 256 := by cases o <;> decide

@[simp] theorem Opcode.ofCode_code (o : Opcode) : Opcode.ofCode o.code = some o := by cases o <;> rfl

theorem Opcode.ofCode_eq_some (n : Nat) (o : Opcode) (h : Opcode.ofCode n = some o) : n = o.code := by
  have := List.find?_some h
  simp at this
  exact this.symm

@[simp] theorem Opcode.assemble_opcode (o : Opcode) (w : Word) : (o.assemble w).opcode = o := by cases o <;> rfl

theorem bitField_lt (w : Word) (hi lo : Nat) : bitField w hi lo < 2 ^ (hi + 1 - lo) := Nat.mod_lt _ (by positivity)

/-- The operand bits of a well-formed command stay below the opcode field. -/
theorem Instr.operandBits_lt (i : Instr) (h : i.WellFormed) : i.operandBits < 2 ^ 56 := by
  cases i <;> simp [Instr.WellFormed, Instr.wellFormed, fitsCoord_iff] at h <;> simp only [Instr.operandBits] <;> omega

theorem encode_toNat (i : Instr) (h : i.WellFormed) : (encode i).toNat = i.opcode.code * 2 ^ 56 + i.operandBits := by
  have h1 := i.opcode.code_lt
  have h2 := i.operandBits_lt h
  rw [encode, BitVec.toNat_ofNat]
  omega

theorem opField_encode (i : Instr) (h : i.WellFormed) : opField (encode i) = i.opcode.code := by
  have h1 := i.opcode.code_lt
  have h2 := i.operandBits_lt h
  rw [opField, bitField, encode_toNat i h]
  omega

/-- A field below the opcode is the operand bits' field. -/
theorem bitField_encode (i : Instr) (h : i.WellFormed) (hi lo : Nat) (hh : hi < 56) (hl : lo ≤ hi) :
    bitField (encode i) hi lo = i.operandBits / 2 ^ lo % 2 ^ (hi + 1 - lo) := by
  rw [bitField, encode_toNat i h]
  have : i.opcode.code * 2 ^ 56 = 2 ^ lo * (2 ^ (hi + 1 - lo) * (i.opcode.code * 2 ^ (55 - hi))) := by
    rw [show (2 : Nat) ^ 56 = 2 ^ lo * (2 ^ (hi + 1 - lo) * 2 ^ (55 - hi)) by
      rw [← pow_add, ← pow_add]; congr 1; omega]
    ring
  rw [this, Nat.mul_add_div (by positivity), Nat.mul_add_mod]

/-- The inversion of a decoded word: its opcode is assigned, its reserved bits are 0, its fields make the command. -/
theorem decode_ok (w : Word) (i : Instr) (h : decode w = .ok i) :
    opField w = i.opcode.code ∧ i.opcode.format.reservedClear w = true ∧ i = i.opcode.assemble w := by
  unfold decode at h
  split at h
  · cases h
  · rename_i o ho
    cases hc : o.format.reservedClear w <;> simp [hc] at h
    rw [← h, Opcode.assemble_opcode]
    exact ⟨Opcode.ofCode_eq_some _ _ ho, hc, rfl⟩

/-- And the other way: such a word decodes to the command its fields make. -/
theorem decode_of_fields (w : Word) (o : Opcode) (h : opField w = o.code) (hc : o.format.reservedClear w = true) :
    decode w = .ok (o.assemble w) := by
  simp [decode, h, hc]

end Sys2Proof
end

