-- ==== Sys2Proof/Laws/Flush.lean ====
section
/-! SUPPORT. RasterArea and FlushHead as their callers cite them: when they complete, what they keep of the invariant, the
pixels a rectangle gets, and REGION_RECTS (44_surface_region.md R205, 45_flush.md R220 to R232). -/

namespace Sys2Proof.Machine

/-! ### RasterArea -/

/-- RasterArea with its checks passed and something to do is its scanlines. -/
theorem State.rasterArea_rows (s : State) (sf : Surface) (x0 y0 w h : Nat) (hm : s.mapped = true)
    (hb : s.baseValid = true) (hx : x0 + w ≤ s.width) (hy : y0 + h ≤ s.height) (hw : 0 < w) (hh : 0 < h)
    (hs : s.surface = some sf) : s.rasterArea x0 y0 w h = s.rasterRows sf x0 w (List.range' y0 h) := by
  have hw' : (w == 0) = false := beq_eq_false_iff_ne.mpr (by omega)
  have hh' : (h == 0) = false := beq_eq_false_iff_ne.mpr (by omega)
  simp [State.rasterArea, hm, hb, State.rectInArea, hx, hy, hw', hh', hs]

/-- RasterArea of an empty rectangle with its checks passed does nothing (R220). -/
theorem State.rasterArea_empty (s : State) (x0 y0 w h : Nat) (hm : s.mapped = true) (hb : s.baseValid = true)
    (hx : x0 + w ≤ s.width) (hy : y0 + h ≤ s.height) (hwh : w = 0 ∨ h = 0) :
    s.rasterArea x0 y0 w h = .done () s := by
  have : (w == 0 || h == 0) = true := by simpa using hwh
  simp [State.rasterArea, hm, hb, State.rectInArea, hx, hy, this]

/-- RasterArea completes where its checks pass, in a head whose geometry is right and has a surface. -/
theorem State.rasterArea_done (s : State) (x0 y0 w h : Nat) (hk : s.launch.params.Ok)
    (hm : s.mapped = true) (hb : s.baseValid = true) (hg : s.GeometryOk) (hs : s.surface.isSome = true) (hx : x0 + w ≤ s.width) (hy : y0 + h ≤ s.height) :
    ∃ t, s.rasterArea x0 y0 w h = .done () t ∧ s.RasterStep t := by
  by_cases hwh : w = 0 ∨ h = 0
  · exact ⟨s, s.rasterArea_empty x0 y0 w h hm hb hx hy hwh, .refl s⟩
  · obtain ⟨sf, hsf⟩ := Option.isSome_iff_exists.mp hs
    rw [s.rasterArea_rows sf x0 y0 w h hm hb hx hy (by omega) (by omega) hsf]
    obtain ⟨t, ht⟩ := s.rasterRows_done sf x0 w (List.range' y0 h) (by omega) hk hm hb hg hx fun y hym => by
      rw [List.mem_range'_1] at hym
      omega
    exact ⟨t, ht, s.rasterStep_rasterRows t sf x0 w _ ht⟩

/-- The pixels a completed RasterArea leaves (R230, R232): each pixel of the rectangle has its colour's index, and every
other pixel of video memory is as before. -/
theorem State.rasterArea_pixelAt (s t : State) (sf : Surface) (x0 y0 w h : Nat) (hk : s.launch.params.Ok)
    (hstd : s.launch.params.Standard) (hsz : s.palette.size ≤ s.launch.params.paletteCapacity) (hg : s.GeometryOk)
    (hs : s.surface = some sf) (hd : s.rasterArea x0 y0 w h = .done () t) :
    (∀ x y, x0 ≤ x → x < x0 + w → y0 ≤ y → y < y0 + h →
      t.vga.pixelAt (y * s.rowStride + x / 8) (x % 8) = BitVec.ofNat 4 (t.assignIndex (s.surf sf x y)).1) ∧
    (∀ off k, k < 8 →
      (∀ x y, x0 ≤ x → x < x0 + w → y0 ≤ y → y < y0 + h → ¬ (off = y * s.rowStride + x / 8 ∧ k = x % 8)) →
      t.vga.pixelAt off k = s.vga.pixelAt off k) := by
  unfold State.rasterArea at hd
  cases hm : s.mapped <;> simp only [hm, Bool.not_false, Bool.not_true, cond_true, cond_false] at hd
  · cases hd
  cases hr : s.rectInArea x0 y0 w h <;> simp only [hr, Bool.not_false, Bool.not_true, cond_true, cond_false] at hd
  · cases hd
  cases hb : s.baseValid <;> simp only [hb, Bool.not_false, Bool.not_true, cond_true, cond_false] at hd
  · cases hd
  simp only [State.rectInArea, Bool.and_eq_true, decide_eq_true_eq] at hr
  cases hwh : w == 0 || h == 0 <;> simp only [hwh, cond_true, cond_false] at hd
  · simp only [hs] at hd
    obtain ⟨hin, hout⟩ := s.rasterRows_pixelAt t sf x0 w (List.range' y0 h) hk hstd hsz hg hr.1
      (fun y hy => by rw [List.mem_range'_1] at hy; omega) List.nodup_range' hd
    refine ⟨fun x y h1 h2 h3 h4 => hin x y h1 h2 (List.mem_range'_1.mpr ⟨h3, h4⟩), fun off k hk8 hno => ?_⟩
    refine hout off k hk8 fun x y h1 h2 hy => ?_
    rw [List.mem_range'_1] at hy
    exact hno x y h1 h2 hy.1 hy.2
  · cases hd
    simp only [Bool.or_eq_true, beq_iff_eq] at hwh
    refine ⟨fun x y h1 h2 h3 h4 => by omega, fun _ _ _ _ => rfl⟩

/-- A completed RasterArea changes no byte but those that hold a pixel of the rectangle, whatever the base values. -/
theorem State.rasterArea_planeByte (s t : State) (x0 y0 w h off p : Nat) (hk : s.launch.params.Ok)
    (hd : s.rasterArea x0 y0 w h = .done () t) (hp : p < 4)
    (hno : ∀ x y, x0 ≤ x → x < x0 + w → y0 ≤ y → y < y0 + h → off ≠ y * s.rowStride + x / 8) :
    t.vga.planeByte p off = s.vga.planeByte p off := by
  unfold State.rasterArea at hd
  cases hm : s.mapped <;> simp only [hm, Bool.not_false, Bool.not_true, cond_true, cond_false] at hd
  · cases hd
  cases hr : s.rectInArea x0 y0 w h <;> simp only [hr, Bool.not_false, Bool.not_true, cond_true, cond_false] at hd
  · cases hd
  cases hb : s.baseValid <;> simp only [hb, Bool.not_false, Bool.not_true, cond_true, cond_false] at hd
  · cases hd
  cases hwh : w == 0 || h == 0 <;> simp only [hwh, cond_true, cond_false] at hd
  · cases hs : s.surface with
    | none => rw [hs] at hd; cases hd
    | some sf =>
      rw [hs] at hd
      have hw : 0 < w := Nat.pos_of_ne_zero fun e => by simp [e] at hwh
      exact s.rasterRows_planeByte t sf x0 w off p _ hk hw hd hp fun x y h1 h2 hy => by
        rw [List.mem_range'_1] at hy
        exact hno x y h1 h2 hy.1 hy.2
  · cases hd; rfl

/-! ### What the rasterizer keeps of the invariant -/

theorem State.RasterStep.inv {s t : State} (h : s.RasterStep t) (hs : s.Inv) (hp : t.palette.Ok s.launch.params)
    (hv : Memory.wf s.launch.params.vramPlaneBytes t.vga.vram = true) (hr : t.vga.RegistersOk s.launch.params) : t.Inv := by
  have hf := h.fields
  obtain ⟨hk, ⟨l1, l2, l3⟩, hg, -, ⟨d1, d2⟩, ⟨-, w2⟩, -, ⟨f1, f2⟩⟩ := hs
  refine ⟨h.params ▸ hk, ⟨?_, ?_, ?_⟩, h.geometry hg, h.params ▸ hp, ⟨fun r hrm => ?_, ?_⟩,
    ⟨h.params ▸ hv, fun sf hsf => ?_⟩, h.params ▸ hr, ⟨?_, ?_⟩⟩
  · simpa [hf] using l1
  · simpa [hf] using l2
  · simpa [hf] using l3
  · have := d1 r (by simpa [hf] using hrm)
    simpa [State.holdsRect, hf] using this
  · simpa [hf] using d2
  · have := w2 sf (by simpa [hf] using hsf)
    simpa [hf] using this
  · simpa [hf] using f1
  · simpa [hf] using f2

/-- The invariant is among what the rasterizer keeps. -/
theorem rasterClosed_inv : RasterClosed State.Inv where
  mask s m h := (s.rasterStep_mask m).inv h h.palette h.storage.vram h.registers
  assign s p h := by
    refine (s.rasterStep_assign p).inv h (s.assignIndex_palette_ok p h.params h.palette) (by simpa using h.storage.vram) ?_
    obtain ⟨h1, h2, h3, h4, h5⟩ := h.registers
    exact ⟨by simpa using h1, by simpa using h2, by simpa using h3, by simpa using h4, by simpa using h5⟩
  planar s off c m h _ _ ho :=
    (s.rasterStep_planar off c m).inv h (by simpa using h.palette) (s.planarEffects_wf off c m _ ho h.storage.vram)
      (s.planarEffects_registersOk off c m h.registers)

theorem State.flushStart_frame (s : State) :
    s.flushStart.result = s.result ∧ s.flushStart.isOpen = s.isOpen ∧ s.flushStart.queried = s.queried ∧
    s.flushStart.mapped = s.mapped ∧ s.flushStart.active = s.active ∧ s.flushStart.width = s.width ∧
    s.flushStart.height = s.height ∧ s.flushStart.rowStride = s.rowStride ∧ s.flushStart.size = s.size ∧
    s.flushStart.palette = s.palette ∧ s.flushStart.surface = s.surface ∧ s.flushStart.dirty = s.dirty ∧
    s.flushStart.mask = s.mask ∧ s.flushStart.fault = s.fault ∧ s.flushStart.faultCode = s.faultCode ∧
    s.flushStart.faultOpcode = s.faultOpcode ∧ s.flushStart.inbox = s.inbox ∧ s.flushStart.launch = s.launch ∧
    s.flushStart.draws = s.draws ∧ s.flushStart.vga.vram = s.vga.vram ∧ s.flushStart.vga.vramTag = s.vga.vramTag ∧
    s.flushStart.vga.sr = s.vga.sr ∧ s.flushStart.vga.bm = s.vga.bm ∧ s.flushStart.vga.latch = s.vga.latch := by
  simp [State.flushStart]

theorem State.flushStart_registers (s : State) :
    s.flushStart.vga.esr = some s.launch.params.baseEsr ∧ s.flushStart.vga.mode = some s.launch.params.baseMode ∧
    s.flushStart.vga.rot = some s.launch.params.baseRotate ∧
    s.flushStart.vga.mapMask = some s.launch.params.baseMapMask ∧
    s.flushStart.baseValid = true := by
  simp [State.flushStart]

theorem State.flushStart_inv (s : State) (h : s.Inv) : s.flushStart.Inv := by
  have hf := s.flushStart_frame
  have hreg := s.flushStart_registers
  obtain ⟨hk, ⟨l1, l2, l3⟩, ⟨g1, g2, g3, g4, g5, g6, g7⟩, hp, ⟨d1, d2⟩, ⟨w1, w2⟩, ⟨r1, -, -, -, -⟩, ⟨f1, f2⟩⟩ := h
  refine ⟨?_, ⟨?_, ?_, ?_⟩, ⟨?_, ?_, ?_, ?_, ?_, ?_, ?_⟩, ?_, ⟨?_, ?_⟩, ⟨?_, ?_⟩, ⟨?_, ?_, ?_, ?_, ?_⟩, ⟨?_, ?_⟩⟩ <;>
    simp only [hf, hreg, Option.some.injEq, State.holdsRect, eq_comm, imp_self, implies_true] <;>
    first | assumption | (simp only [eq_comm] at *; assumption)

/-- The events a flush of an open device opens with (R225, steps 1 to 3). -/
theorem State.flushStart_trace (s : State) (ho : s.isOpen = true) : s.flushStart.trace = s.trace ++ s.flushOpening := by
  by_cases hz : s.palette.size = 0
  · simp [State.flushStart, State.setPalette, State.flushOpening, State.writeBase_trace, ho, hz]
  · have hz' : (s.palette.size == 0) = false := beq_eq_false_iff_ne.mpr hz
    simp [State.flushStart, State.setPalette, State.flushOpening, State.writeBase_trace, ho, hz, hz', Palette.entries]

/-! ### REGION_RECTS -/

theorem foldl_max_le (f : Rect → Nat) (rs : List Rect) (b m : Nat) (hb : b ≤ m) (h : ∀ r ∈ rs, f r ≤ m) :
    rs.foldl (fun a r => max a (f r)) b ≤ m := by
  induction rs generalizing b with
  | nil => exact hb
  | cons r rs ih =>
    exact ih _ (Nat.max_le.mpr ⟨hb, h r (List.mem_cons_self ..)⟩) fun r' hr' => h r' (List.mem_cons_of_mem _ hr')

/-- REGION_RECTS conforms (R205): its rectangles lie inside every head that holds the dirty ones. -/
theorem Config.regionRects_inside (dirty : List Rect) (width height : Nat)
    (h : ∀ r ∈ dirty, r.x + r.w ≤ width ∧ r.y + r.h ≤ height) :
    ∀ r ∈ Config.regionRects dirty, r.x + r.w ≤ width ∧ r.y + r.h ≤ height := by
  have hr : rightEdge dirty ≤ width := foldl_max_le (fun r => r.x + r.w) dirty 0 width (Nat.zero_le _) fun r hr => (h r hr).1
  have hl : lowerEdge dirty ≤ height := foldl_max_le (fun r => r.y + r.h) dirty 0 height (Nat.zero_le _) fun r hr => (h r hr).2
  intro r hrm
  unfold Config.regionRects at hrm
  cases hc : conformingRects dirty (Config.rawRegionRects dirty) <;> rw [hc] at hrm
  · exact h r hrm
  · simp only [conformingRects, Bool.and_eq_true, List.all_eq_true] at hc
    have := hc.1 r hrm
    simp only [decide_eq_true_eq] at this
    omega

theorem State.regionRects_inside (s : State) (h : s.DirtyOk) : ∀ r ∈ s.regionRects, s.holdsRect r := by
  unfold State.regionRects
  cases s.launch.identityRects
  · exact Config.regionRects_inside s.dirty s.width s.height h.inside
  · exact h.inside

/-! ### FlushHead -/

theorem State.rasterRects_done (s : State) (rs : List Rect) (hk : s.launch.params.Ok) (hm : s.mapped = true)
    (hb : s.baseValid = true) (hg : s.GeometryOk) (hs : s.surface.isSome = true) (hr : ∀ r ∈ rs, s.holdsRect r) :
    ∃ t, s.rasterRects rs = .done () t ∧ s.RasterStep t := by
  induction rs generalizing s with
  | nil => exact ⟨s, rfl, .refl s⟩
  | cons r rs ih =>
    have hr0 := hr r (List.mem_cons_self ..)
    obtain ⟨u, hu, hstep⟩ := s.rasterArea_done r.x r.y r.w r.h hk hm hb hg hs hr0.1 hr0.2
    have hf := hstep.fields
    obtain ⟨t, ht, hstep'⟩ := ih u (hstep.params ▸ hk) (by simp [hf, hm]) (by simp [hstep.baseValid, hb]) (hstep.geometry hg)
      (by simpa [hf] using hs) (fun r' hr' => by
        have := hr r' (List.mem_cons_of_mem _ hr')
        simpa [State.holdsRect, hf] using this)
    exact ⟨t, by simp [State.rasterRects, hu, Run.andThen, ht], hstep.trans hstep'⟩

/-- A flush of a mapped active head in the invariant completes (R225, R251); it changes what a raster step changes, after
the base state and the push, and leaves no dirty rectangle. -/
theorem State.flushHead_done (s : State) (ha : s.active = true) (hm : s.mapped = true) (h : s.Inv) :
    ∃ t, s.flushHead = .done () { t with dirty := [] } ∧ s.flushStart.rasterRects s.regionRects = .done () t ∧
      s.flushStart.RasterStep t := by
  have hf := s.flushStart_frame
  have hs : s.surface.isSome = true := by rw [h.lifecycle.surface_iff]; exact h.lifecycle.mapped_queried hm
  have hg : s.flushStart.GeometryOk := (s.flushStart_inv h).geometry
  obtain ⟨t, ht, hstep⟩ := s.flushStart.rasterRects_done s.regionRects (by simpa [hf] using h.params)
    (by simp [hf, hm]) s.flushStart_registers.2.2.2.2 hg
    (by simpa [hf] using hs) (fun r hr => by
      have := s.regionRects_inside h.dirty r hr
      simpa [State.holdsRect, hf] using this)
  exact ⟨t, by simp [State.flushHead, ha, hm, State.flushOver, ht, Run.andThen], ht, hstep⟩

theorem State.clearDirty_inv (s : State) (h : s.Inv) : ({ s with dirty := [] } : State).Inv :=
  ⟨h.params, ⟨h.2.1, h.2.2, h.2.3⟩, ⟨h.3.1, h.3.2, h.3.3, h.3.4, h.3.5, h.3.6, h.3.7⟩, h.palette,
    ⟨fun _ hr => absurd hr List.not_mem_nil, fun _ => rfl⟩, ⟨h.storage.1, h.storage.2⟩, h.registers,
    ⟨h.fault.1, h.fault.2⟩⟩

/-- Every state a flush ends in keeps the invariant. -/
theorem State.flushHead_inv (s : State) (h : s.Inv) : s.flushHead.Ends State.Inv :=
  rasterClosed_inv.flushHead State.flushStart_inv State.clearDirty_inv s h

end Sys2Proof.Machine
end

