-- ==== Sys2Proof/Laws/PerInstr.lean ====
section
/-! SUPPORT. The per-instruction family Encoding: what every command's word carries (30_encoding.md rules R90 to R92). -/

namespace Sys2Proof.Laws.Encoding

/-- The word of a well-formed command holds its opcode in [63:56] and 0 in every reserved bit of its format. -/
def Statement (i : Instr) : Prop :=
  i.WellFormed → opField (encode i) = i.opcode.code ∧ i.opcode.format.reservedClear (encode i) = true

theorem openDevice : Statement .openDevice := by
  intro hi
  refine ⟨opField_encode _ hi, ?_⟩
  decide

theorem closeDevice : Statement .closeDevice := by
  intro hi
  refine ⟨opField_encode _ hi, ?_⟩
  decide

theorem query (w h stride type aux visual bpp : Nat) : Statement (.query w h stride type aux visual bpp) := by
  intro hi
  refine ⟨opField_encode _ hi, ?_⟩
  rfl

theorem mapDevice : Statement .mapDevice := by
  intro hi
  refine ⟨opField_encode _ hi, ?_⟩
  decide

theorem unmapDevice : Statement .unmapDevice := by
  intro hi
  refine ⟨opField_encode _ hi, ?_⟩
  decide

theorem activate : Statement .activate := by
  intro hi
  refine ⟨opField_encode _ hi, ?_⟩
  decide

theorem deactivate : Statement .deactivate := by
  intro hi
  refine ⟨opField_encode _ hi, ?_⟩
  decide

theorem pixWrite (x y : Nat) (pixel : Pixel) : Statement (.pixWrite x y pixel) := by
  intro hi
  refine ⟨opField_encode _ hi, ?_⟩
  rfl

theorem pixRead (x y : Nat) : Statement (.pixRead x y) := by
  intro hi
  refine ⟨opField_encode _ hi, ?_⟩
  have hb := bitField_encode (.pixRead x y) hi
  simp [Instr.WellFormed, Instr.wellFormed, fitsCoord_iff] at hi
  simp (disch := decide) only [Format.reservedClear, Instr.opcode, Opcode.format, Format.reserved, List.all_cons,
    List.all_nil, Bool.and_true, beq_iff_eq, hb, Instr.operandBits]
  omega

theorem dirtyAdd (x y w h : Nat) : Statement (.dirtyAdd x y w h) := by
  intro hi
  refine ⟨opField_encode _ hi, ?_⟩
  have hb := bitField_encode (.dirtyAdd x y w h) hi
  simp [Instr.WellFormed, Instr.wellFormed, fitsCoord_iff] at hi
  simp (disch := decide) only [Format.reservedClear, Instr.opcode, Opcode.format, Format.reserved, List.all_cons,
    List.all_nil, Bool.and_true, beq_iff_eq, hb, Instr.operandBits]
  omega

theorem dirtyClear : Statement .dirtyClear := by
  intro hi
  refine ⟨opField_encode _ hi, ?_⟩
  decide

theorem palAssign (pixel : Pixel) : Statement (.palAssign pixel) := by
  intro hi
  refine ⟨opField_encode _ hi, ?_⟩
  have hb := bitField_encode (.palAssign pixel) hi
  have := pixel.isLt
  simp (disch := decide) only [Format.reservedClear, Instr.opcode, Opcode.format, Format.reserved, List.all_cons,
    List.all_nil, Bool.and_true, beq_iff_eq, hb, Instr.operandBits]
  omega

theorem palPush : Statement .palPush := by
  intro hi
  refine ⟨opField_encode _ hi, ?_⟩
  decide

theorem palRead (index : Fin 16) : Statement (.palRead index) := by
  intro hi
  refine ⟨opField_encode _ hi, ?_⟩
  have hb := bitField_encode (.palRead index) hi
  have := index.isLt
  simp (disch := decide) only [Format.reservedClear, Instr.opcode, Opcode.format, Format.reserved, List.all_cons,
    List.all_nil, Bool.and_true, beq_iff_eq, hb, Instr.operandBits]
  omega

theorem pwBase : Statement .pwBase := by
  intro hi
  refine ⟨opField_encode _ hi, ?_⟩
  decide

theorem pwWrite (color : BitVec 4) (mask : Byte) (offset : Nat) : Statement (.pwWrite color mask offset) := by
  intro hi
  refine ⟨opField_encode _ hi, ?_⟩
  have hb := bitField_encode (.pwWrite color mask offset) hi
  have := color.isLt
  have := mask.isLt
  simp [Instr.WellFormed, Instr.wellFormed] at hi
  simp (disch := decide) only [Format.reservedClear, Instr.opcode, Opcode.format, Format.reserved, List.all_cons,
    List.all_nil, Bool.and_true, Bool.and_eq_true, beq_iff_eq, hb, Instr.operandBits]
  omega

theorem rastArea (x y w h : Nat) : Statement (.rastArea x y w h) := by
  intro hi
  refine ⟨opField_encode _ hi, ?_⟩
  have hb := bitField_encode (.rastArea x y w h) hi
  simp [Instr.WellFormed, Instr.wellFormed, fitsCoord_iff] at hi
  simp (disch := decide) only [Format.reservedClear, Instr.opcode, Opcode.format, Format.reserved, List.all_cons,
    List.all_nil, Bool.and_true, beq_iff_eq, hb, Instr.operandBits]
  omega

theorem flush : Statement .flush := by
  intro hi
  refine ⟨opField_encode _ hi, ?_⟩
  decide

end Sys2Proof.Laws.Encoding
end

