-- ==== Sys2Proof/Laws/Step.lean ====
section
/-! SUPPORT. What a step can do, said once. -/

namespace Sys2Proof.Machine

@[simp] theorem step_of_settled (s : State) (o : Host.Outcome State Fault Refusal) (h : s.fetch = .settled o) :
    step s = o := by rw [step, h]

@[simp] theorem step_of_command (s t : State) (i : Instr) (h : s.fetch = .command i t) : step s = exec i t := by
  rw [step, h]

theorem State.fetch_cons (s : State) (m : Move) (rest : List Move) (h : s.inbox = m :: rest) :
    s.fetch = State.takeMove { s with inbox := rest } m := by rw [State.fetch, h]

/-- A command's word, while not halted. -/
theorem step_command (s : State) (w : Word) (rest : List Move) (i : Instr) (h : s.inbox = .write w :: rest)
    (hf : s.fault = false) (hd : decode w = .ok i) : step s = exec i { s with inbox := rest } := by
  simp [step, s.fetch_cons _ _ h, State.takeMove, State.takeWord, hf, hd]

/-- A word the decoder refuses. -/
theorem step_illegal (s : State) (w : Word) (rest : List Move) (e : DecodeError) (h : s.inbox = .write w :: rest)
    (hf : s.fault = false) (hd : decode w = .error e) : step s = .next (State.illegal { s with inbox := rest } w) := by
  simp [step, s.fetch_cons _ _ h, State.takeMove, State.takeWord, hf, hd]

/-- A word written while halted. -/
theorem step_discards (s : State) (w : Word) (rest : List Move) (h : s.inbox = .write w :: rest)
    (hf : s.fault = true) : step s = .next { s with inbox := rest } := by
  simp [step, s.fetch_cons _ _ h, State.takeMove, State.takeWord, hf]

theorem step_vgaReset (s : State) (rest : List Move) (h : s.inbox = .vgaReset :: rest) :
    step s = .next { s with inbox := rest, vga := s.vga.reset } := by
  simp [step, s.fetch_cons _ _ h, State.takeMove]

theorem step_powerOn (s : State) (rest : List Move) (h : s.inbox = .powerOn :: rest) :
    step s = .next (State.powerOn { s with inbox := rest }) := by
  simp [step, s.fetch_cons _ _ h, State.takeMove]

theorem step_vramChange (s : State) (rest : List Move) (p : Fin 4) (off : Nat) (b : Byte)
    (h : s.inbox = .vramChange p off b :: rest) :
    step s = if off < s.launch.params.vramPlaneBytes then
        if s.active = true then .refused .environmentWhileActive
        else .next { s with inbox := rest, vga := s.vga.setPlaneByte p.val off b }
      else .refused (.noSuchByte off) := by
  rw [step, s.fetch_cons _ _ h]
  by_cases ho : off < s.launch.params.vramPlaneBytes
  · cases ha : s.active <;> simp [State.takeMove, State.changeByte, State.whileInactive, ho, Nat.blt_eq.mpr ho]
  · have hb : Nat.blt off s.launch.params.vramPlaneBytes = false := by rw [← Bool.not_eq_true, Nat.blt_eq]; exact ho
    simp [State.takeMove, State.changeByte, ho, hb]

theorem step_regChange (s : State) (rest : List Move) (r : VgaReg) (h : s.inbox = .regChange r :: rest) :
    step s = if s.active = true then .refused .environmentWhileActive
      else .next { s with inbox := rest, vga := s.vga.setReg r none } := by
  rw [step, s.fetch_cons _ _ h]
  cases ha : s.active <;> simp [State.takeMove, State.whileInactive]

theorem step_dacChange (s : State) (rest : List Move) (i : Fin 16) (h : s.inbox = .dacChange i :: rest) :
    step s = if s.active = true then .refused .environmentWhileActive
      else .next { s with inbox := rest, vga := { s.vga with dac := s.vga.dac.set i none } } := by
  rw [step, s.fetch_cons _ _ h]
  cases ha : s.active <;> simp [State.takeMove, State.whileInactive]

/-- Every way a step can end in a next state. -/
theorem step_cases (s t : State) (h : step s = .next t) :
    (s.inbox = [] ∧ t = s) ∨
    ∃ rest, (∃ w, s.inbox = .write w :: rest ∧
        ((s.fault = true ∧ t = { s with inbox := rest }) ∨
         (s.fault = false ∧ (∃ e, decode w = .error e) ∧ t = State.illegal { s with inbox := rest } w) ∨
         (s.fault = false ∧ ∃ i, decode w = .ok i ∧ exec i { s with inbox := rest } = .next t))) ∨
      (s.inbox = .vgaReset :: rest ∧ t = { s with inbox := rest, vga := s.vga.reset }) ∨
      (∃ p off b, s.inbox = .vramChange p off b :: rest ∧ s.active = false ∧
        off < s.launch.params.vramPlaneBytes ∧
        t = { s with inbox := rest, vga := s.vga.setPlaneByte p.val off b }) ∨
      (∃ r, s.inbox = .regChange r :: rest ∧ s.active = false ∧
        t = { s with inbox := rest, vga := s.vga.setReg r none }) ∨
      (∃ i, s.inbox = .dacChange i :: rest ∧ s.active = false ∧
        t = { s with inbox := rest, vga := { s.vga with dac := s.vga.dac.set i none } }) ∨
      (s.inbox = .powerOn :: rest ∧ t = State.powerOn { s with inbox := rest }) := by
  cases hi : s.inbox with
  | nil =>
    rw [step, State.fetch, hi] at h
    cases h
    exact .inl ⟨rfl, rfl⟩
  | cons m rest =>
    refine .inr ⟨rest, ?_⟩
    cases m with
    | write w =>
      refine .inl ⟨w, rfl, ?_⟩
      rcases Bool.eq_false_or_eq_true s.fault with hf | hf
      · rw [step_discards s w rest hi hf] at h
        cases h
        exact .inl ⟨hf, rfl⟩
      · cases hd : decode w with
        | error e =>
          rw [step_illegal s w rest e hi hf hd] at h
          cases h
          exact .inr (.inl ⟨hf, ⟨e, rfl⟩, rfl⟩)
        | ok i =>
          rw [step_command s w rest i hi hf hd] at h
          exact .inr (.inr ⟨hf, i, rfl, h⟩)
    | vgaReset =>
      rw [step_vgaReset s rest hi] at h
      cases h
      exact .inr (.inl ⟨rfl, rfl⟩)
    | vramChange p off b =>
      rw [step_vramChange s rest p off b hi] at h
      split at h
      · rename_i ho
        rcases Bool.eq_false_or_eq_true s.active with ha | ha
        · rw [if_pos ha] at h
          cases h
        · rw [if_neg (by simp [ha])] at h
          cases h
          exact .inr (.inr (.inl ⟨p, off, b, rfl, ha, ho, rfl⟩))
      · cases h
    | regChange r =>
      rw [step_regChange s rest r hi] at h
      rcases Bool.eq_false_or_eq_true s.active with ha | ha
      · rw [if_pos ha] at h
        cases h
      · rw [if_neg (by simp [ha])] at h
        cases h
        exact .inr (.inr (.inr (.inl ⟨r, rfl, ha, rfl⟩)))
    | dacChange i =>
      rw [step_dacChange s rest i hi] at h
      rcases Bool.eq_false_or_eq_true s.active with ha | ha
      · rw [if_pos ha] at h
        cases h
      · rw [if_neg (by simp [ha])] at h
        cases h
        exact .inr (.inr (.inr (.inr (.inl ⟨i, rfl, ha, rfl⟩))))
    | powerOn =>
      rw [step_powerOn s rest hi] at h
      cases h
      exact .inr (.inr (.inr (.inr (.inr ⟨rfl, rfl⟩))))

end Sys2Proof.Machine
end

