-- ==== Sys2Proof/Machine/Assembler.lean ====
section
/-! DEFINITION. The assembler's text and the pseudo-instructions (30_encoding.md rules R98 and R99). No step uses them: the
block takes words. Lines are lists of characters. -/

namespace Sys2Proof.Machine

/-! ### Reading a line (R98) -/

/-- The value of a digit character, in any base up to 16. -/
def digitValue (c : Char) : Option Nat :=
  if '0' ≤ c ∧ c ≤ '9' then some (c.toNat - '0'.toNat)
  else if 'a' ≤ c ∧ c ≤ 'f' then some (c.toNat - 'a'.toNat + 10)
  else if 'A' ≤ c ∧ c ≤ 'F' then some (c.toNat - 'A'.toNat + 10)
  else none

/-- The number the digits make in a base, after `acc`. -/
def digitsValue (base acc : Nat) : List Char → Option Nat
  | [] => some acc
  | c :: cs =>
    match digitValue c with
    | some d => if d < base then digitsValue base (acc * base + d) cs else none
    | none => none

/-- An operand: decimal, or `0x` and hex digits. -/
def operandValue (cs : List Char) : Option Nat :=
  match cs with
  | [] => none
  | ['0', 'x'] => none
  | '0' :: 'x' :: ds => digitsValue 16 0 ds
  | ds => digitsValue 10 0 ds

/-- The line without its comment, which `;` starts. -/
def withoutComment (line : List Char) : List Char := line.takeWhile (· ≠ ';')

/-- The characters between the separators `sep`. -/
def splitChars (sep : Char) : List Char → List (List Char)
  | [] => [[]]
  | c :: cs =>
    match splitChars sep cs with
    | [] => [[c]]
    | part :: parts => if c = sep then [] :: part :: parts else (c :: part) :: parts

/-- Without the spaces at both ends. -/
def trimmed (cs : List Char) : List Char :=
  ((cs.dropWhile (· = ' ')).reverse.dropWhile (· = ' ')).reverse

/-- The operands after a mnemonic; none where only spaces stand. -/
def operandList (cs : List Char) : Option (List Nat) :=
  if trimmed cs = [] then some [] else (splitChars ',' cs).mapM fun part => operandValue (trimmed part)

/-- The command a mnemonic and its operands, in field order, name (R98). -/
def commandOf (mnemonic : String) (operands : List Nat) : Option Instr :=
  match mnemonic, operands with
  | "OPEN", [] => some .openDevice
  | "CLOSE", [] => some .closeDevice
  | "QUERY", [w, h, stride, type, aux, visual, bpp] => some (.query w h stride type aux visual bpp)
  | "MAP", [] => some .mapDevice
  | "UNMAP", [] => some .unmapDevice
  | "ACTIVATE", [] => some .activate
  | "DEACTIVATE", [] => some .deactivate
  | "PIX_WRITE", [x, y, pixel] => if pixel < 2 ^ 32 then some (.pixWrite x y (BitVec.ofNat 32 pixel)) else none
  | "PIX_READ", [x, y] => some (.pixRead x y)
  | "DIRTY_ADD", [x, y, w, h] => some (.dirtyAdd x y w h)
  | "DIRTY_CLEAR", [] => some .dirtyClear
  | "PAL_ASSIGN", [pixel] => if pixel < 2 ^ 32 then some (.palAssign (BitVec.ofNat 32 pixel)) else none
  | "PAL_PUSH", [] => some .palPush
  | "PAL_READ", [index] => if h : index < 16 then some (.palRead ⟨index, h⟩) else none
  | "PW_BASE", [] => some .pwBase
  | "PW_WRITE", [color, mask, offset] =>
    if color < 16 ∧ mask < 256 then some (.pwWrite (BitVec.ofNat 4 color) (BitVec.ofNat 8 mask) offset) else none
  | "RAST_AREA", [x, y, w, h] => some (.rastArea x y w h)
  | "FLUSH", [] => some .flush
  | _, _ => none

/-- The command of one assembler line (R98), where it is well formed. -/
def assembleLine (line : List Char) : Option Instr :=
  let body := trimmed (withoutComment line)
  match operandList (body.dropWhile (· ≠ ' ')) with
  | none => none
  | some operands =>
    match commandOf (String.ofList (body.takeWhile (· ≠ ' '))) operands with
    | some i => bif i.wellFormed then some i else none
    | none => none

/-! ### Pseudo-instructions (R99), each the commands it expands to -/

/-- FILL X, Y, W, H, PIXEL: rows outer, columns inner. -/
def pseudoFill (x y w h : Nat) (pixel : Pixel) : List Instr :=
  (List.range' y h).flatMap fun row => (List.range' x w).map fun col => .pixWrite col row pixel

/-- DRAW X, Y, W, H, PIXEL. -/
def pseudoDraw (x y w h : Nat) (pixel : Pixel) : List Instr := pseudoFill x y w h pixel ++ [.dirtyAdd x y w h]

/-- REDRAW, in a state that gives the head's size. -/
def State.pseudoRedraw (s : State) : List Instr := [.dirtyAdd 0 0 s.width s.height, .flush]

/-- PW_WRITE_XY X, Y, COLOR, MASK, in a state that gives the row stride. -/
def State.pseudoPwWriteXy (s : State) (x y : Nat) (color : BitVec 4) (mask : Byte) : List Instr :=
  [.pwWrite color mask (s.vramOffset x y)]

/-- QUERY_VGA16 W, H, STRIDE: the compatible mode of R124, in a state that gives the parameters. -/
def State.pseudoQueryVga16 (s : State) (w h stride : Nat) : List Instr :=
  let k := s.launch.params
  [.query w h stride k.typeVgaPlanes k.auxVga4 k.visualPseudocolor k.reqBpp]

end Sys2Proof.Machine
end

