-- ==== Sys2Proof/Tests/Slice0.lean ====
section
/-! SUPPORT. The model's own tests: ill-formed commands, words written out from 30_encoding.md, small steps whose results
stand in 95_test_vectors.md (its row names are cited), and a witness for every statement that has hypotheses. -/

namespace Sys2Proof.Tests

open Sys2Proof Sys2Proof.Machine

set_option Elab.async false

/-! ### Well-formedness: one ill-formed command per check (R91, R94) -/

theorem test_wf_query_w : ¬ (Instr.query 4096 0 0 0 0 0 0).WellFormed := by decide
theorem test_wf_query_h : ¬ (Instr.query 0 4096 0 0 0 0 0).WellFormed := by decide
theorem test_wf_query_stride : ¬ (Instr.query 0 0 4096 0 0 0 0).WellFormed := by decide
theorem test_wf_query_type : ¬ (Instr.query 0 0 0 16 0 0 0).WellFormed := by decide
theorem test_wf_query_aux : ¬ (Instr.query 0 0 0 0 16 0 0).WellFormed := by decide
theorem test_wf_query_visual : ¬ (Instr.query 0 0 0 0 0 16 0).WellFormed := by decide
theorem test_wf_query_bpp : ¬ (Instr.query 0 0 0 0 0 0 256).WellFormed := by decide
theorem test_wf_query_greatest : (Instr.query 4095 4095 4095 15 15 15 255).WellFormed := by decide
theorem test_wf_pixWrite : ¬ (Instr.pixWrite 4096 0 0).WellFormed ∧ ¬ (Instr.pixWrite 0 4096 0).WellFormed := by decide
theorem test_wf_pixRead : ¬ (Instr.pixRead 4096 0).WellFormed ∧ ¬ (Instr.pixRead 0 4096).WellFormed := by decide
theorem test_wf_dirtyAdd :
    ¬ (Instr.dirtyAdd 4096 0 0 0).WellFormed ∧ ¬ (Instr.dirtyAdd 0 4096 0 0).WellFormed ∧
    ¬ (Instr.dirtyAdd 0 0 4096 0).WellFormed ∧ ¬ (Instr.dirtyAdd 0 0 0 4096).WellFormed := by decide
theorem test_wf_rastArea :
    ¬ (Instr.rastArea 4096 0 0 0).WellFormed ∧ ¬ (Instr.rastArea 0 4096 0 0).WellFormed ∧
    ¬ (Instr.rastArea 0 0 4096 0).WellFormed ∧ ¬ (Instr.rastArea 0 0 0 4096).WellFormed := by decide
theorem test_wf_pwWrite : ¬ (Instr.pwWrite 0 0 4294967296).WellFormed := by decide

/-! ### Parameters (R6) -/

/-- 'The defaults satisfy all three' (R6). -/
theorem default_ok : Params.default.Ok := by constructor <;> decide

theorem default_standard : Params.default.Standard := by constructor <;> decide

/-- Each coordinate field R91 names has COORD_BITS bits, and the bound is 4096 (R94). -/
theorem test_coordBits :
    (∀ f ∈ [(55, 44), (43, 32), (31, 20), (19, 8)], f.1 + 1 - f.2 = Config.coordBits) ∧ 2 ^ Config.coordBits = 4096 := by
  decide

/-! ### Decoding: one word for each command, from its rule's encoding line or example -/

theorem test_decode_openDevice : decode 0x0100000000000000 = .ok .openDevice := by decide +kernel
theorem test_decode_closeDevice : decode 0x0200000000000000 = .ok .closeDevice := by decide +kernel
theorem test_decode_query : decode 0x0340030008040304 = .ok (.query 1024 768 128 4 0 3 4) := by decide +kernel
theorem test_decode_mapDevice : decode 0x0400000000000000 = .ok .mapDevice := by decide +kernel
theorem test_decode_unmapDevice : decode 0x0500000000000000 = .ok .unmapDevice := by decide +kernel
theorem test_decode_activate : decode 0x0600000000000000 = .ok .activate := by decide +kernel
theorem test_decode_deactivate : decode 0x0700000000000000 = .ok .deactivate := by decide +kernel
theorem test_decode_pixWrite : decode 0x1000F001AABBCCDD = .ok (.pixWrite 15 1 0xAABBCCDD) := by decide +kernel
theorem test_decode_pixRead : decode 0x1100500000000000 = .ok (.pixRead 5 0) := by decide +kernel
theorem test_decode_dirtyAdd : decode 0x1200F00100100200 = .ok (.dirtyAdd 15 1 1 2) := by decide +kernel
theorem test_decode_dirtyClear : decode 0x1300000000000000 = .ok .dirtyClear := by decide +kernel
theorem test_decode_palAssign : decode 0x2000000000C01010 = .ok (.palAssign 0xC01010) := by decide +kernel
theorem test_decode_palPush : decode 0x2100000000000000 = .ok .palPush := by decide +kernel
theorem test_decode_palRead : decode 0x220000000000000F = .ok (.palRead 15) := by decide +kernel
theorem test_decode_pwBase : decode 0x3000000000000000 = .ok .pwBase := by decide +kernel
theorem test_decode_pwWrite : decode 0x310A0C0000000000 = .ok (.pwWrite 10 0x0C 0) := by decide +kernel
theorem test_decode_rastArea : decode 0x4000300000300100 = .ok (.rastArea 3 0 3 1) := by decide +kernel
theorem test_decode_flush : decode 0x4100000000000000 = .ok .flush := by decide +kernel

/-- ENC-1, ENC-2, ENC-12: unassigned opcodes. -/
theorem test_decode_unassigned :
    decode 0x0000000000000000 = .error .unassignedOpcode ∧ decode 0xFF00000000000000 = .error .unassignedOpcode ∧
    decode 0x0800000000000000 = .error .unassignedOpcode := by decide +kernel

/-- ENC-3, ENC-4, ENC-6 to ENC-9: reserved bits. -/
theorem test_decode_reserved :
    decode 0x0100000000000001 = .error .reservedBit ∧ decode 0x2200000000000010 = .error .reservedBit ∧
    decode 0x3110000000000000 = .error .reservedBit ∧ decode 0x4000000000000001 = .error .reservedBit ∧
    decode 0x1100000000000001 = .error .reservedBit ∧ decode 0x2000000100000000 = .error .reservedBit := by
  decide +kernel

/-- The host's table check runs on the same decoder. -/
theorem test_decodeTableWord : decodeTableWord 64 0x3105F00000000000 = some (.pwWrite 5 0xF0 0) := by decide +kernel

/-! ### Assembler and pseudo-instructions (R98, R99) -/

/-- R98's two examples. -/
theorem test_assemble_query :
    (assembleLine "QUERY 640, 480, 80, 4, 0, 3, 4".toList).map encode = some 0x032801E005040304 := by decide +kernel
theorem test_assemble_pwWrite :
    (assembleLine "PW_WRITE 5, 0xF0, 0 ; a comment".toList).map encode = some 0x3105F00000000000 := by decide +kernel

/-- R99's order: rows outer, columns inner. -/
theorem test_pseudoDraw :
    pseudoDraw 1 2 2 2 7 =
      [.pixWrite 1 2 7, .pixWrite 2 2 7, .pixWrite 1 3 7, .pixWrite 2 3 7, .dirtyAdd 1 2 2 2] := by decide

/-! ### Small states: the start states of 95_test_vectors.md section 0 -/

/-- Every byte below `n` of every plane at `b` ('VRAM = b'). -/
def vramOf (n : Nat) (b : Byte) : Memory :=
  (List.range n).flatMap fun off => (List.range 4).map fun p => (planeAddress p off, b)

/-- SURFACE_INIT = 0, the identity REGION_RECTS, one answer to each draw. -/
def launchOf (ok vt : Bool) : Launch :=
  { params := Params.default, surfaceInit := some 0, identityRects := true, openOk := [ok], mapOk := [ok],
    vtIsActive := [vt], vramReadData := [] }

/-- Reset, with a launch. -/
def closed (ok : Bool) : State := { State.reset with launch := launchOf ok false }

/-- After OPEN. -/
def opened : State := { closed true with isOpen := true }

/-- After OPEN and QUERY of a w x h head of one or more bytes a row, with pixels written. -/
def queriedHead (w h stride : Nat) (words : Assoc Pixel) (b : Byte) : State :=
  { opened with
    queried := true, width := w, height := h, rowStride := stride, size := h * stride,
    surface := some { words := words, tag := 0 }, vga := { State.reset.vga with vram := vramOf (h * stride) b } }

/-- H(w, h, stride), with pixels written. -/
def mappedHead (w h stride : Nat) (words : Assoc Pixel) (b : Byte) : State :=
  { queriedHead w h stride words b with mapped := true }

/-- H(w, h, stride)+B, with pixels written. -/
def basedHead (w h stride : Nat) (words : Assoc Pixel) (b : Byte) : State := (mappedHead w h stride words b).writeBase

/-- A palette of the given entries' top bytes. -/
def paletteOf (ps : List Pixel) : Palette := ps.foldl (Palette.insert Params.default) Palette.empty

/-- A view of the next state a command leaves. -/
def after {α : Type} (i : Instr) (s : State) (f : State → α) : Option α :=
  match exec i s with
  | .next t => some (f t)
  | .fault _ => none
  | .refused _ => none

/-- RESULT and STATUS. -/
def resultStatus (t : State) : BitVec 64 × BitVec 32 := (t.result, t.status)

/-- The four planes at an offset. -/
def planesAt (off : Nat) (t : State) : List Byte := (List.range 4).map fun p => t.vga.planeByte p off

/-- index(x, y) for the first n columns of a row. -/
def rowIndices (n y : Nat) (t : State) : List (BitVec 4) := (List.range n).map fun x => t.index x y

/-! ### One step each -/

/-- LC-1, LC-3. -/
theorem test_open : after .openDevice (closed true) resultStatus = some (1, 0x00000001) := by decide +kernel
theorem test_open_twice : after .openDevice opened resultStatus = some (0, 0x01020021) := by decide +kernel

/-- LC-23 (palette_size 3), LC-15. -/
theorem test_close :
    after .closeDevice { queriedHead 8 1 1 [] 0 with palette := paletteOf [0, 0x400000, 0x800000] } resultStatus =
      some (0, 0x00000300) := by decide +kernel
theorem test_close_mapped : after .closeDevice (mappedHead 8 1 1 [] 0) resultStatus = some (0, 0x02020027) := by
  decide +kernel

/-- LC-9, LC-7. -/
theorem test_query :
    after (.query 640 480 80 4 0 3 4) opened (fun t => (resultStatus t, t.size)) = some ((1, 0x00000003), 38400) := by
  decide +kernel
theorem test_query_incompatible_first :
    after (.query 16 2 1 4 0 3 8) opened resultStatus = some (0, 0x00000001) := by decide +kernel

/-- R97: the demand on the compatibility constants ends at 14; 0xF is no launch's. -/
theorem test_ok_greatest_constants :
    ({ Params.default with typeVgaPlanes := 14, auxVga4 := 14, visualPseudocolor := 14 } : Params).Ok := by
  constructor <;> decide
theorem test_ok_no_0xF : ¬ ({ Params.default with typeVgaPlanes := 0xF } : Params).Ok ∧
    ¬ ({ Params.default with auxVga4 := 0xF } : Params).Ok ∧
    ¬ ({ Params.default with visualPseudocolor := 0xF } : Params).Ok :=
  ⟨fun h => absurd h.type_lt (by decide), fun h => absurd h.aux_lt (by decide), fun h => absurd h.visual_lt (by decide)⟩

/-- S1: the 4x2 scenario, with a MAP that activates; LC-13: map_ok false. -/
theorem test_map_activates :
    after .mapDevice
      { queriedHead 4 2 1 [(0, 0xFF0000), (1, 0xFF0000), (4, 0x00FF00)] 0 with launch := launchOf true true }
      (fun t => (resultStatus t, rowIndices 4 0 t, rowIndices 4 1 t, planesAt 1 t)) =
    some ((1, 0x0000031F), [0, 0, 1, 1], [2, 1, 1, 1], [0x70, 0x80, 0x00, 0x00]) := by decide +kernel
theorem test_map_refused :
    after .mapDevice { queriedHead 8 1 1 [] 0 with launch := launchOf false true } resultStatus =
      some (0, 0x00000003) := by decide +kernel

/-- LC-21, LC-17. -/
theorem test_unmap :
    after .unmapDevice { basedHead 8 1 1 [] 0 with active := true } resultStatus = some (0, 0x0000001B) := by
  decide +kernel
theorem test_unmap_closed : after .unmapDevice (closed true) resultStatus = some (0, 0) := by decide +kernel

/-- FL-6: a full redraw again; LC-16. -/
theorem test_activate :
    after .activate { basedHead 8 1 1 [] 0 with active := true, palette := paletteOf [0] }
      (fun t => (resultStatus t, t.trace.drop 9 |>.take 3)) =
    some ((0, 0x0000011F),
      [.palLoad 1 [{ red := 0, green := 0, blue := 0 }], .regWrite .sr 0, .regWrite .bm 0xFF]) := by decide +kernel
theorem test_activate_unmapped : after .activate (queriedHead 8 1 1 [] 0) resultStatus = some (0, 0x06020023) := by
  decide +kernel

/-- LC-22. -/
theorem test_deactivate :
    after .deactivate { basedHead 8 1 1 [] 0 with active := true, palette := paletteOf [0, 1, 2, 3] } resultStatus =
      some (0, 0x00000417) := by decide +kernel

/-- SR-1, SR-9. -/
theorem test_pixWrite :
    after (.pixWrite 15 1 0xAABBCCDD) (queriedHead 16 2 2 [] 0) (fun t => (t.surface.map (·.words), t.dirty)) =
      some (some [(31, 0xAABBCCDD)], []) := by decide +kernel
theorem test_pixWrite_outside : after (.pixWrite 16 0 0) (queriedHead 16 2 2 [] 0) resultStatus = some (0, 0x10040023) := by
  decide +kernel

/-- SR-2, SR-15. -/
theorem test_pixRead :
    after (.pixRead 15 1) (queriedHead 16 2 2 [(31, 0xAABBCCDD)] 0) resultStatus = some (0xAABBCCDD, 0x00000003) := by
  decide +kernel
theorem test_pixRead_closed : after (.pixRead 0 0) opened resultStatus = some (0, 0x11020021) := by decide +kernel

/-- SR-13: accepted at the edge; SR-12. -/
theorem test_dirtyAdd_edge :
    after (.dirtyAdd 16 0 0 0) (queriedHead 16 2 2 [] 0) (fun t => (t.status, t.dirty)) =
      some (0x00000003, [⟨16, 0, 0, 0⟩]) := by decide +kernel
theorem test_dirtyAdd_outside :
    after (.dirtyAdd 15 1 1 2) (queriedHead 16 2 2 [] 0) resultStatus = some (0, 0x12040023) := by decide +kernel

/-- SR-8, SR-17. -/
theorem test_dirtyClear :
    after .dirtyClear { queriedHead 16 2 2 [] 0 with dirty := [⟨0, 0, 16, 2⟩] } (fun t => t.dirty) = some [] := by
  decide +kernel
theorem test_dirtyClear_closed : after .dirtyClear opened resultStatus = some (0, 0x13020021) := by decide +kernel

/-- PA-4: 0xBF0000 beside 0xFF0000; PA-10: the top-1-bit pass of a full palette. -/
theorem test_palAssign_inserts :
    after (.palAssign 0xBF0000) { mappedHead 16 2 2 [] 0 with palette := paletteOf [0xFF0000] }
      (fun t => (resultStatus t, t.trace)) =
    some ((1, 0x00000207), [.palLoad 2 [{ red := 0xFF00, green := 0, blue := 0 }, { red := 0xBF00, green := 0, blue := 0 }]]) := by
  decide +kernel
theorem test_palAssign_full :
    after (.palAssign 0xFFFF40)
      { mappedHead 16 2 2 [] 0 with
        palette := paletteOf [0x000000, 0x004000, 0x008000, 0x00C000, 0x400000, 0x404000, 0x408000, 0x40C000,
          0x800000, 0x804000, 0x808000, 0x80C000, 0xC00000, 0xC04000, 0xC08000, 0xC0C000] }
      (fun t => (resultStatus t, t.trace)) = some ((10, 0x00001007), []) := by decide +kernel

/-- PALETTE_CAPACITY = 2: a third colour that no entry agrees with gets the fallback 1 (R153, R164 by name). -/
theorem test_palAssign_capacity :
    after (.palAssign 0x0000FF)
      { opened with
        palette := paletteOf [0xFF0000, 0x00FF00],
        launch := { launchOf true true with params := { Params.default with paletteCapacity := 2 } } }
      (fun t => (t.result, t.palette.size, t.trace)) = some (1, 2, []) := by decide +kernel

/-- PA-19; PA-17: nothing while closed. -/
theorem test_palPush :
    after .palPush { opened with palette := paletteOf [0xFF0000, 0x00FF00] } (fun t => (t.trace, t.vga.dac[1], t.vga.dac[2])) =
    some ([.palLoad 2 [{ red := 0xFF00, green := 0, blue := 0 }, { red := 0, green := 0xFF00, blue := 0 }]],
      some { red := 0, green := 0xFF00, blue := 0 }, none) := by decide +kernel
theorem test_palPush_closed :
    after .palPush { closed true with palette := paletteOf [0xFF0000] } (fun t => t.trace) = some [] := by decide +kernel

/-- PA-7. -/
theorem test_palRead :
    after (.palRead 0) { opened with palette := paletteOf [0xFF0000, 0xBF0000] } resultStatus =
      some (0x0000FF0000000000, 0x00000201) := by decide +kernel

/-- PW-2, PW-9. -/
theorem test_pwBase :
    after .pwBase (mappedHead 16 2 2 [] 0) (fun t => (t.status, t.trace)) =
    some (0x00000017, [.regWrite .esr 0x0F, .regWrite .mode 0x00, .regWrite .rot 0x00, .regWrite .mapMask 0x0F]) := by
  decide +kernel
theorem test_pwBase_unmapped : after .pwBase (queriedHead 16 2 2 [] 0) resultStatus = some (0, 0x30030023) := by
  decide +kernel

/-- PW-8; PW-10: the order of the checks. -/
theorem test_pwWrite :
    after (.pwWrite 0 0x81 2) (basedHead 16 2 2 [] 0xFF) (fun t => (planesAt 2 t, rowIndices 8 1 t)) =
      some ([0x7E, 0x7E, 0x7E, 0x7E], [0, 15, 15, 15, 15, 15, 15, 0]) := by decide +kernel
theorem test_pwWrite_unmapped : after (.pwWrite 1 1 0xFFFF) (closed true) resultStatus = some (0, 0x31030020) := by
  decide +kernel

/-- RA-1; RA-8: OUT_OF_AREA before BASE_STATE. -/
theorem test_rastArea :
    after (.rastArea 3 0 3 1) (basedHead 16 2 2 [(3, 0xFF0000), (4, 0xFF0000), (5, 0x00FF00)] 0xFF)
      (fun t => (t.status, planesAt 0 t, rowIndices 9 0 t)) =
    some (0x00000217, [0xE7, 0xE3, 0xE3, 0xE3], [15, 15, 15, 0, 0, 1, 15, 15, 15]) := by decide +kernel
theorem test_rastArea_order : after (.rastArea 0 0 9 1) (mappedHead 8 1 1 [] 0) resultStatus = some (0, 0x40040027) := by
  decide +kernel

/-- FL-5: overlapping rectangles; FL-1: inactive, the region kept. -/
theorem test_flush :
    after .flush
      { basedHead 8 1 1 [(0, 0xFFFFFF)] 0 with
        active := true, palette := paletteOf [0], dirty := [⟨0, 0, 2, 1⟩, ⟨0, 0, 1, 1⟩] }
      (fun t => (t.status, rowIndices 8 0 t, t.dirty, (t.trace.filter Event.isVram).length)) =
    some (0x0000021F, [1, 0, 0, 0, 0, 0, 0, 0], [], 6) := by decide +kernel
theorem test_flush_inactive :
    after .flush { mappedHead 16 2 2 [] 0 with dirty := [⟨0, 0, 8, 1⟩] } (fun t => (t.status, t.dirty, t.trace)) =
      some (0x00000007, [⟨0, 0, 8, 1⟩], []) := by decide +kernel

/-- BASE_ESR = 0x07: PW_BASE writes it, and base_valid is 1 with it (R42, R180 by name). -/
theorem test_pwBase_parameter :
    after .pwBase
      { mappedHead 16 2 2 [] 0 with launch := { launchOf true true with params := { Params.default with baseEsr := 0x07 } } }
      (fun t => (t.baseValid, t.vga.esr)) = some (true, some 0x07) := by decide +kernel

/-! ### Steps -/

/-- A view of the next state a step leaves. -/
def stepped {α : Type} (s : State) (f : State → α) : Option α :=
  match step s with
  | .next t => some (f t)
  | .fault _ => none
  | .refused _ => none

/-- ENC-1, ENC-10 (ILLEGAL, not SEQUENCE), ENC-11 (discarded while halted). -/
theorem test_step_illegal :
    stepped ((closed true).withFetchWord 64 0) State.status = some 0x00010020 ∧
    stepped ((closed true).withFetchWord 64 0x0200000000000001) State.status = some 0x02010020 := by decide +kernel
theorem test_step_halted :
    stepped { closed true with fault := true, faultCode := 1, inbox := [.write 0x0100000000000000] } State.status =
      some 0x00010020 := by decide +kernel

/-- The host's table check: the word is run as the first command after reset. -/
theorem test_step_first :
    stepped (State.reset.withFetchWord 64 0x2000000000FF0000) State.status = some 0x00000100 := by decide +kernel

/-- PW-14: a VGA reset keeps VRAM and loses the base state. -/
theorem test_step_vgaReset :
    stepped { basedHead 16 2 2 [] 0xF0 with inbox := [.vgaReset] } (fun t => (t.status, planesAt 0 t)) =
      some (0x00000007, [0xF0, 0xF0, 0xF0, 0xF0]) := by decide +kernel

/-- R292: the run ends with the last word, whatever move of the environment would follow it. -/
theorem test_ended :
    (State.start (launchOf true true) [.vgaReset]).ended = true ∧
    (State.start (launchOf true true) [.vgaReset, .write 0]).ended = false := by decide +kernel

/-! ### Witnesses: the statements' hypotheses are met

A small head: 8 x 2 pixels, 1 byte a row, mapped, in base state, one rectangle dirty; then the same head active. -/

/-- The small head. -/
def small : State := { basedHead 8 2 1 [(0, 0xFF0000), (9, 0x00FF00)] 0 with dirty := [⟨0, 0, 2, 2⟩] }

/-- The small head, active. -/
def smallActive : State := { small with active := true }

theorem small_inv (a m : Bool) (q : List Move) (ok vt : Bool) :
    ({ small with active := a, mapped := m, inbox := q, launch := launchOf ok vt } : State).Inv where
  params := default_ok
  lifecycle := ⟨fun _ => rfl, fun _ => rfl, rfl⟩
  geometry := ⟨(by decide : 8 < 4096), (by decide : 2 < 4096), (by decide : 1 < 4096), rfl, (by decide : 2 ≤ 65536),
    (by decide : (8 + 7) / 8 ≤ 1), nofun⟩
  palette := Palette.ok_empty _
  dirty := by
    refine ⟨fun r hr => ?_, nofun⟩
    cases List.mem_singleton.mp hr
    exact ⟨(by decide : 0 + 2 ≤ 8), (by decide : 0 + 2 ≤ 2)⟩
  storage := ⟨(by decide +kernel : Memory.wf 65536 small.vga.vram = true), fun sf h => by
    cases h
    exact (by decide +kernel : Surface.wf 8 2 { words := [(0, 0xFF0000), (9, 0x00FF00)], tag := 0 } = true)⟩
  registers := by refine ⟨nofun, ?_, ?_, ?_, ?_⟩ <;> intro b h <;> cases h <;> rfl
  fault := ⟨fun _ => ⟨rfl, rfl⟩, nofun⟩

/-- The outcome is a next state. -/
def isNext (o : Host.Outcome State Fault Refusal) : Bool :=
  match o with
  | .next _ => true
  | .fault _ => false
  | .refused _ => false

theorem exists_of_isNext (o : Host.Outcome State Fault Refusal) (h : isNext o = true) : ∃ t, o = .next t := by
  cases o with
  | next t => exact ⟨t, rfl⟩
  | fault f => cases h
  | refused r => cases h

/-- DecodeOfEncodeIsTheCommand, at the greatest operands. -/
theorem witness_encode : (Instr.rastArea 4095 4095 4095 4095).WellFormed ∧ (Instr.pwWrite 15 0xFF 0xFFFFFFFF).WellFormed ∧
    (Instr.pixWrite 4095 0 0xFFFFFFFF).WellFormed := by decide

/-- EncodeOfDecodeIsTheWord and FieldWidthsBoundOperands. -/
theorem witness_decode : (∃ i, decode 0x4000300000300100 = .ok i) ∧ fitsCoord 4095 = true :=
  ⟨⟨_, test_decode_rastArea⟩, by decide⟩

/-- StepRunsTheDecodedCommand: both clauses. -/
theorem witness_step_command : (small.withNextWord 0x0500000000000000).inbox = .write 0x0500000000000000 :: [] ∧
    small.fault = false ∧ decode 0x0500000000000000 = .ok .unmapDevice ∧ small.inbox = [] := by decide +kernel

/-- IllegalWordFaults: an unassigned opcode and a reserved bit. -/
theorem witness_illegal :
    (∀ o ∈ Opcode.all, (0x0800000000000000 : Word).toNat &&& o.format.decodeMask ≠ o.code <<< 56) ∧
    (∀ o ∈ Opcode.all, (0x3110000000000000 : Word).toNat &&& o.format.decodeMask ≠ o.code <<< 56) ∧
    (∀ o : Opcode, o ∈ Opcode.all) := by
  refine ⟨by decide +kernel, by decide +kernel, fun o => ?_⟩
  cases o <;> decide

/-- HaltedBlockDiscardsWords: each clause. -/
theorem witness_halted :
    ({ small with fault := true, inbox := [.write 0] } : State).fault = true ∧
    ({ small with fault := true, inbox := [.vgaReset] } : State).inbox = [.vgaReset] ∧
    ({ small with fault := true, inbox := [.vramChange 3 65535 0xFF] } : State).inbox = [.vramChange 3 65535 0xFF] ∧
    65535 < small.launch.params.vramPlaneBytes ∧ small.active = false := by decide +kernel

/-- EnvironmentMovesChangeOnlyTheVga: each clause. -/
theorem witness_environment :
    ({ smallActive with inbox := [.vgaReset] } : State).inbox = [.vgaReset] ∧ small.active = false ∧
    ({ small with inbox := [.vramChange 0 65535 1] } : State).inbox = [.vramChange 0 65535 1] ∧
    65535 < small.launch.params.vramPlaneBytes ∧
    ({ small with inbox := [.regChange .esr] } : State).inbox = [.regChange .esr] ∧
    ({ small with inbox := [.dacChange 15] } : State).inbox = [.dacChange 15] := by decide +kernel

/-- ActiveHeadAdmitsOnlyVgaReset: a refused move, one that is not, and one of no byte. -/
theorem witness_active_head :
    smallActive.active = true ∧ isNext (step { smallActive with inbox := [.vgaReset] }) = true ∧
    isNext (step { smallActive with inbox := [.dacChange 0] }) = false ∧
    isNext (step { small with inbox := [.vramChange 0 65536 0] }) = false ∧
    small.launch.params.vramPlaneBytes ≤ 65536 := by decide +kernel

/-- PowerOnGivesTheResetState, and the second clause of OnlyResetLeavesTheFault. -/
theorem witness_powerOn :
    stepped { small with fault := true, inbox := [.powerOn] } (fun t => t.fault) = some false ∧
    stepped { small with fault := true, inbox := [.vgaReset] } (fun t => t.fault) = some true := by decide +kernel

/-- The first clause of OnlyResetLeavesTheFault. -/
theorem witness_fault_kept : ∃ t, exec .deactivate { small with fault := true } = .next t :=
  exists_of_isNext _ (by decide +kernel)

/-- EveryStepKeepsTheInvariant and NoStepLeavesTheModel, at a word that rasterizes. -/
theorem witness_invariant :
    ({ smallActive with inbox := [.write 0x4100000000000000] } : State).Inv ∧
    ∃ t, step { smallActive with inbox := [.write 0x4100000000000000] } = .next t :=
  ⟨small_inv true true _ true false, exists_of_isNext _ (by decide +kernel)⟩

/-- CommandsRaiseOnlyTheirCauses: a command that faults. -/
theorem witness_causes : small.Inv ∧ small.fault = false ∧
    after (.pixRead 8 0) small (fun t => (t.fault, t.faultCode)) = some (true, 4) :=
  ⟨small_inv false true [] true false, by decide +kernel, by decide +kernel⟩

/-- PaletteShrinksOnlyAtQuery: both ways. -/
theorem witness_palette_shrinks :
    stepped { opened with palette := paletteOf [0], inbox := [.write 0x0300800100140304] } (fun t => t.palette.size) =
      some 0 ∧
    stepped { opened with palette := paletteOf [0], inbox := [.powerOn] } (fun t => t.palette.size) = some 0 := by
  decide +kernel

/-- PaletteEntriesAreNeverReordered, OnlyQueryAndCloseWriteGeometry, OnlyTheirCommandsWriteSurfaceAndDirty. -/
theorem witness_frames :
    (Instr.palAssign 0xFF).opcode ≠ .query ∧ (Instr.palAssign 0xFF) ≠ .closeDevice ∧
    ∃ t, exec (.palAssign 0xFF) small = .next t :=
  ⟨by decide, by decide, exists_of_isNext _ (by decide +kernel)⟩

/-- TraceIsAppendOnly. -/
theorem witness_trace : (∀ rest, (small.withNextWord 0x3000000000000000).inbox ≠ .powerOn :: rest) ∧
    ∃ t, step (small.withNextWord 0x3000000000000000) = .next t :=
  ⟨fun rest h => Move.noConfusion (List.cons.inj (show Move.write 0x3000000000000000 :: [] = .powerOn :: rest from h)).1,
    exists_of_isNext _ (by decide +kernel)⟩

/-- WithoutMappingNoVgaAccess: a command that pushes the palette all the same. -/
theorem witness_unmapped : opened.mapped = false ∧ Instr.palAssign 0xFF ≠ .mapDevice ∧
    ∃ t, exec (.palAssign 0xFF) opened = .next t :=
  ⟨by decide +kernel, by decide, exists_of_isNext _ (by decide +kernel)⟩

/-- OpenCompletes: its three clauses. -/
theorem witness_open : opened.isOpen = true ∧ (closed true).isOpen = false ∧ (closed true).openAnswer = true ∧
    (closed false).isOpen = false ∧ (closed false).openAnswer = false := by decide +kernel

/-- CloseCompletes: its clauses. -/
theorem witness_close : (closed true).isOpen = false ∧ (mappedHead 8 1 1 [] 0).mapped = true ∧
    (queriedHead 8 1 1 [] 0).isOpen = true ∧ (queriedHead 8 1 1 [] 0).mapped = false := by decide +kernel

/-- QuerySetsUpTheHead, at the least stride, at the greatest size and with no pixels. -/
theorem witness_query : opened.launch.params = Params.default ∧ Params.default.Ok ∧
    opened.isOpen = true ∧ opened.queried = false ∧ (9 + 7) / 8 ≤ 2 ∧ 32768 * 2 ≤ 65536 ∧
    (0 + 7) / 8 ≤ 0 ∧ 5 * 0 ≤ 65536 ∧ Params.default.vramPlaneBytes = 65536 :=
  ⟨rfl, default_ok, by decide +kernel⟩

/-- QueryRefusesAndFaults: a mode off by one, 0xF in a field (R97), a stride one short, a size one row too great. -/
theorem witness_query_refused : (closed true).launch.params = Params.default ∧ Params.default.Ok ∧
    (closed true).isOpen = false ∧ (queriedHead 8 1 1 [] 0).queried = true ∧
    ¬ (4 = 4 ∧ 0 = 0 ∧ 3 = 3 ∧ 8 = 4) ∧ (4 = 0xF ∨ 15 = 0xF ∨ 3 = 0xF) ∧
    opened.launch.params = Params.default ∧ opened.isOpen = true ∧ opened.queried = false ∧ 1 < (9 + 7) / 8 ∧ 65536 < 32769 * 2 :=
  ⟨rfl, default_ok, by decide +kernel⟩

/-- MapCompletesWithoutFocus: its clauses. -/
theorem witness_map : opened.queried = false ∧ (mappedHead 8 1 1 [] 0).mapped = true ∧
    (queriedHead 8 1 1 [] 0).queried = true ∧ (queriedHead 8 1 1 [] 0).mapped = false ∧
    ({ queriedHead 8 1 1 [] 0 with launch := launchOf false false } : State).mapAnswer = false ∧
    (queriedHead 8 1 1 [] 0).mapAnswer = true ∧ (queriedHead 8 1 1 [] 0).afterMapDraw.vtAnswer = false := by
  decide +kernel

/-- MapWithFocusActivates. -/
theorem witness_map_focus :
    let s : State := { small with active := false, mapped := false, inbox := [], launch := launchOf true true }
    s.Inv ∧ s.launch.params.Standard ∧ s.mapped = false ∧ s.mapAnswer = true ∧ s.afterMapDraw.vtAnswer = true ∧
      s.surface = some { words := [(0, 0xFF0000), (9, 0x00FF00)], tag := 0 } :=
  ⟨small_inv false false [] true true, default_standard, by decide +kernel⟩

/-- ActivateRedrawsTheHead, RastAreaCommitsEveryPixel, RastAreaWriteCount and RastAreaEventOrder, at the whole head and at
an empty rectangle on its edge; FlushCommitsTheDirtyRegion. -/
theorem witness_raster : small.Inv ∧ smallActive.Inv ∧ small.launch.params.Standard ∧
    smallActive.launch.params.Standard ∧ smallActive.active = true ∧ smallActive.mapped = true ∧
    smallActive.surface = small.surface ∧ small.mapped = true ∧
    small.baseValid = true ∧ small.surface = some { words := [(0, 0xFF0000), (9, 0x00FF00)], tag := 0 } ∧
    0 + 8 ≤ small.width ∧ 0 + 2 ≤ small.height ∧ 8 + 0 ≤ small.width ∧ 2 + 0 ≤ small.height :=
  ⟨small_inv false true [] true false, small_inv true true [] true false, default_standard, default_standard,
    by decide +kernel⟩

/-- RastAreaWriteCount's and RastAreaEventOrder's premise that the command ends: both rows, one row, and no row. -/
theorem witness_raster_ends : (∃ t, exec (.rastArea 0 0 8 2) small = .next t) ∧
    (∃ t, exec (.rastArea 0 1 8 1) small = .next t) ∧ ∃ t, exec (.rastArea 0 1 8 0) small = .next t :=
  ⟨exists_of_isNext _ (by decide +kernel), exists_of_isNext _ (by decide +kernel), exists_of_isNext _ (by decide +kernel)⟩

/-- R222's order on the small head: each row's push, then its writes; colour-major; the second row pushes nothing new for
black. Worked out by hand from R220: row 0 is red then black, row 1 black, green, black. -/
theorem test_rastArea_order_of_events :
    after (.rastArea 0 0 8 2) { small with launch := { launchOf true true with vramReadData := [0, 0, 0, 0] } }
      (fun t => t.trace.drop 4) =
    some [.palLoad 1 [⟨0xFF00, 0, 0⟩], .palLoad 2 [⟨0xFF00, 0, 0⟩, ⟨0, 0, 0⟩],
      .regWrite .sr 0, .regWrite .bm 0x80, .vramRead 0, .vramWrite 0 1,
      .regWrite .sr 1, .regWrite .bm 0x7F, .vramRead 0, .vramWrite 0 1,
      .palLoad 3 [⟨0xFF00, 0, 0⟩, ⟨0, 0, 0⟩, ⟨0, 0xFF00, 0⟩],
      .regWrite .sr 1, .regWrite .bm 0xBF, .vramRead 1, .vramWrite 1 1,
      .regWrite .sr 2, .regWrite .bm 0x40, .vramRead 1, .vramWrite 1 1] := by decide +kernel

/-- PixWriteCompletes, PixReadCompletes and PixelCommandsFault, at the head's last pixel and one beyond it each way. -/
theorem witness_pixel : small.queried = true ∧ small.surface = some { words := [(0, 0xFF0000), (9, 0x00FF00)], tag := 0 } ∧
    7 < small.width ∧ 1 < small.height ∧ small.width ≤ 8 ∧ small.height ≤ 2 ∧ opened.queried = false := by
  decide +kernel

/-- DirtyAddCompletes and DirtyClearCompletes, at the last rectangle inside and the first outside. -/
theorem witness_dirty : small.queried = true ∧ 7 + 1 ≤ small.width ∧ 1 + 1 ≤ small.height ∧ small.width < 7 + 2 ∧
    small.height < 1 + 2 ∧ opened.queried = false := by decide +kernel

/-- RegionRectsConform: a list inside a head. -/
theorem witness_region : ∀ r ∈ [(⟨0, 0, 2, 2⟩ : Rect), ⟨8, 2, 0, 0⟩], r.x + r.w ≤ 8 ∧ r.y + r.h ≤ 2 := by decide

/-- PalAssignFindsTheFirstMatch: the second entry, not the first. -/
theorem witness_palette_match :
    Params.default.Ok ∧ 1 < (paletteOf [0xFF0000, 0x00FF00]).size ∧
    ((paletteOf [0xFF0000, 0x00FF00]).entry 1).agrees Params.default 0x00C01F 6 ∧
    ∀ j < 1, ¬ ((paletteOf [0xFF0000, 0x00FF00]).entry j).agrees Params.default 0x00C01F 6 := by
  refine ⟨default_ok, ?_⟩
  simp only [← Palette.entryMatches_iff]
  decide +kernel

/-- PalAssignInserts: an open and a closed device, room for the last entry. -/
theorem witness_palette_insert :
    let P := paletteOf ((List.range 15).map fun k => BitVec.ofNat 32 (k % 4 * 0x40 + k / 4 * 0x4000))
    P.size < Params.default.paletteCapacity ∧ (∀ j < P.size, ¬ (P.entry j).agrees Params.default 0xFF0000 6) ∧
    opened.isOpen = true ∧ (closed true).isOpen = false := by
  simp only [← Palette.entryMatches_iff]
  decide +kernel

/-- PalAssignOnAFullPalette: a colour only the top-1-bit pass matches (at entry 0, and not before entry 10), and one no
pass matches. -/
theorem witness_palette_full :
    let P := paletteOf ((List.range 16).map fun k => BitVec.ofNat 32 (k / 4 * 0x400000 + k % 4 * 0x4000))
    P.size = Params.default.paletteCapacity ∧ (∀ j < 16, ¬ (P.entry j).agrees Params.default 0x7F7F7F 6) ∧
      (P.entry 0).agrees Params.default 0x7F7F7F 7 ∧ (∀ j < 16, ¬ (P.entry j).agrees Params.default 0xFFFF40 6) ∧
      (P.entry 10).agrees Params.default 0xFFFF40 7 ∧ (∀ j < 10, ¬ (P.entry j).agrees Params.default 0xFFFF40 7) ∧
      (∀ j < 16, ¬ (P.entry j).agrees Params.default 0x0000FF 6) ∧
      ∀ j < 16, ¬ (P.entry j).agrees Params.default 0x0000FF 7 := by
  simp only [← Palette.entryMatches_iff]
  decide +kernel

/-- AssignedIndexIsStable and AssignedEntryReproducesTopBits: two words that differ in alpha only, and a palette grown
by one entry since. -/
theorem witness_stable : small.launch.params = Params.default ∧
    sameChannels 0x00FF0000 0x12FF0000 ∧ small.palette.size ≤ 16 ∧
    (small.assignIndex 0x00FF0000).2.palette.extends (paletteOf [0xFF0000, 0x00FF00]) ∧
    (paletteOf [0xFF0000, 0x00FF00]).size ≤ 16 := by
  refine ⟨rfl, by unfold sameChannels; decide +kernel, by decide +kernel, ?_, by decide +kernel⟩
  exact ⟨by decide +kernel, by decide +kernel⟩

/-- PalPushCompletes: its clauses. -/
theorem witness_push : (closed true).isOpen = false ∧ opened.palette.size = 0 ∧ opened.isOpen = true ∧
    (paletteOf [0]).size ≠ 0 := by decide +kernel

/-- PwBaseCompletes, PwWriteCompletes and PwWriteFaults: each clause, at the last offset inside and the first outside. -/
theorem witness_planar : small.mapped = true ∧ opened.mapped = false ∧ small.baseValid = true ∧
    (mappedHead 8 2 1 [] 0).mapped = true ∧ (mappedHead 8 2 1 [] 0).baseValid = false ∧ 1 < small.size ∧
    small.size ≤ 2 ∧ small.size ≤ small.launch.params.vramPlaneBytes ∧ small.launch.params.standardBase = true := by
  decide +kernel

/-- PlanarWriteIgnoresReadData: two states that differ in the data their reads return, and a write both complete. -/
theorem witness_read_data :
    let t : State := { small with launch := { launchOf true false with vramReadData := [0xAA] } }
    t.launch.params.Standard ∧ small.vga.vram = t.vga.vram ∧ small.vga.vramTag = t.vga.vramTag ∧
      (∃ s', small.planarWrite 1 5 0xF0 = .done () s') ∧ ∃ t', t.planarWrite 1 5 0xF0 = .done () t' :=
  ⟨default_standard, rfl, rfl, ⟨_, rfl⟩, ⟨_, rfl⟩⟩

/-- PlanarWritesCompose, at the last pixel, and IndexIsTheSumOverPlanes. -/
theorem witness_compose : small.launch.params.Standard ∧ small.launch.params.Ok ∧ 7 < 8 :=
  ⟨default_standard, default_ok, by decide⟩

/-- RastAreaFaults: each clause; its checks in order. -/
theorem witness_raster_faults : opened.mapped = false ∧ small.mapped = true ∧ small.width < 1 + 8 ∧ small.height < 1 + 2 ∧
    0 + 8 ≤ (mappedHead 8 2 1 [] 0).width ∧ 0 + 2 ≤ (mappedHead 8 2 1 [] 0).height ∧
    (mappedHead 8 2 1 [] 0).baseValid = false ∧ small.baseValid = true := by decide +kernel

/-- InactiveOrUnmappedFlush: both clauses. -/
theorem witness_flush : small.active = false ∧ smallActive.active = true ∧
    ({ smallActive with mapped := false } : State).mapped = false := by decide +kernel

/-- EmptyFlushWritesNoVram, with a palette and without. -/
theorem witness_empty_flush :
    ({ smallActive with dirty := [] } : State).regionRects = [] ∧ smallActive.mapped = true ∧
    smallActive.palette.size = 0 ∧ smallActive.isOpen = true := by decide +kernel

/-- StatusIsALiveView, at a full palette; its base_valid, with and without the base state. -/
theorem witness_status : (16 : Nat) ≤ 16 ∧ small.launch.params = Params.default ∧ small.baseValid = true ∧
    State.reset.baseValid = false := by decide +kernel

end Sys2Proof.Tests
end

section
/-! SUPPORT. The invariant along a step: what it reads of a state, the updates that keep it, every command's rule, every
move of the host and the environment (00_scope.md R6, 10_state.md R28 to R46, 60_exceptions.md R250 and R261). -/

/-! ### A decoded command is well formed (R91, R94) -/

namespace Sys2Proof

/-- A 12-bit field is a coordinate. -/
theorem fitsCoord_bitField (w : Word) (hi lo : Nat) (h : hi + 1 - lo = 12) : fitsCoord (bitField w hi lo) = true := by
  have := bitField_lt w hi lo
  rw [h] at this
  exact (fitsCoord_iff _).mpr this

theorem Opcode.assemble_wellFormed (o : Opcode) (w : Word) : (o.assemble w).WellFormed := by
  have hc := fitsCoord_bitField w
  cases o with
  | query =>
    have htype : bitField w 19 16 < 16 := bitField_lt w 19 16
    have haux : bitField w 15 12 < 16 := bitField_lt w 15 12
    have hvisual : bitField w 11 8 < 16 := bitField_lt w 11 8
    have hbpp : bitField w 7 0 < 256 := bitField_lt w 7 0
    simp [assemble, Instr.WellFormed, Instr.wellFormed, hc, htype, haux, hvisual, hbpp]
  | pwWrite =>
    have hoffset : bitField w 31 0 < 4294967296 := bitField_lt w 31 0
    simp [assemble, Instr.WellFormed, Instr.wellFormed, hoffset]
  | pixWrite | pixRead | dirtyAdd | rastArea => simp [assemble, Instr.WellFormed, Instr.wellFormed, hc]
  | _ => rfl

theorem decode_wellFormed (w : Word) (i : Instr) (h : decode w = .ok i) : i.WellFormed := by
  obtain ⟨-, -, hi⟩ := decode_ok w i h
  rw [hi]
  exact i.opcode.assemble_wellFormed w

end Sys2Proof

namespace Sys2Proof.Machine

/-! ### What the invariant reads

Each part carries over to a state that agrees on the fields the part reads. -/

theorem State.LifecycleOk.of_eq {s t : State} (h : s.LifecycleOk) (ho : t.isOpen = s.isOpen := by simp)
    (hq : t.queried = s.queried := by simp) (hm : t.mapped = s.mapped := by simp)
    (hs : t.surface = s.surface := by simp) : t.LifecycleOk where
  queried_open := by rw [hq, ho]; exact h.queried_open
  mapped_queried := by rw [hq, hm]; exact h.mapped_queried
  surface_iff := by rw [hq, hs]; exact h.surface_iff

theorem State.GeometryOk.of_eq {s t : State} (h : s.GeometryOk) (hq : t.queried = s.queried := by simp)
    (hw : t.width = s.width := by simp) (hh : t.height = s.height := by simp)
    (hr : t.rowStride = s.rowStride := by simp) (hs : t.size = s.size := by simp)
    (hk : t.launch.params = s.launch.params := by simp) : t.GeometryOk where
  width_lt := hw ▸ h.width_lt
  height_lt := hh ▸ h.height_lt
  stride_lt := hr ▸ h.stride_lt
  size_eq := by rw [hs, hh, hr]; exact h.size_eq
  size_le := by rw [hs, hk]; exact h.size_le
  stride_ge := by rw [hw, hr]; exact h.stride_ge
  closed := by rw [hq, hw, hh, hr]; exact h.closed

/-- A geometry of zeros is legal, with a head or without. -/
theorem State.geometryOk_of_zero (s : State) (hw : s.width = 0) (hh : s.height = 0) (hr : s.rowStride = 0)
    (hs : s.size = 0) : s.GeometryOk where
  width_lt := by rw [hw]; decide
  height_lt := by rw [hh]; decide
  stride_lt := by rw [hr]; decide
  size_eq := by rw [hs, hh, Nat.zero_mul]
  size_le := hs ▸ Nat.zero_le _
  stride_ge := by rw [hw, hr]
  closed _ := ⟨hw, hh, hr⟩

theorem State.DirtyOk.of_eq {s t : State} (h : s.DirtyOk) (hd : t.dirty = s.dirty := by simp)
    (hq : t.queried = s.queried := by simp) (hw : t.width = s.width := by simp)
    (hh : t.height = s.height := by simp) : t.DirtyOk where
  inside := by unfold State.holdsRect; rw [hd, hw, hh]; exact h.inside
  closed := by rw [hq, hd]; exact h.closed

theorem State.StorageOk.of_eq {s t : State} (h : s.StorageOk) (hv : t.vga.vram = s.vga.vram := by simp)
    (hk : t.launch.params = s.launch.params := by simp) (hs : t.surface = s.surface := by simp)
    (hw : t.width = s.width := by simp) (hh : t.height = s.height := by simp) : t.StorageOk where
  vram := by rw [hk, hv]; exact h.vram
  surface := by rw [hs, hw, hh]; exact h.surface

theorem State.FaultOk.of_eq {s t : State} (h : s.FaultOk) (hf : t.fault = s.fault := by simp)
    (hc : t.faultCode = s.faultCode := by simp) (ho : t.faultOpcode = s.faultOpcode := by simp) : t.FaultOk where
  clear := by rw [hf, hc, ho]; exact h.clear
  code := by rw [hf, hc]; exact h.code

theorem Vga.RegistersOk.of_eq {k : Params} {v w : Vga} (h : v.RegistersOk k) (h0 : w.sr = v.sr := by simp)
    (h1 : w.esr = v.esr := by simp) (h2 : w.mode = v.mode := by simp) (h3 : w.rot = v.rot := by simp)
    (h4 : w.mapMask = v.mapMask := by simp) : w.RegistersOk k where
  sr := h0 ▸ h.sr
  esr := h1 ▸ h.esr
  mode := h2 ▸ h.mode
  rot := h3 ▸ h.rot
  mapMask := h4 ▸ h.mapMask

/-- The state with every field the invariant does not read put to a fixed value. -/
def State.invView (s : State) : State :=
  { s with
    result := 0, active := false, mask := [], trace := [], inbox := [], draws := 0
    launch := { Launch.allOpen with params := s.launch.params }
    vga := { s.vga with bm := none, latch := Vector.replicate 4 none, vramTag := 0, dac := Vector.replicate 16 none } }

theorem State.invView_inv (s : State) : s.invView.Inv ↔ s.Inv where
  mp h := ⟨h.params, h.lifecycle.of_eq rfl rfl rfl rfl, h.geometry.of_eq rfl rfl rfl rfl rfl rfl, h.palette,
    h.dirty.of_eq rfl rfl rfl rfl, h.storage.of_eq rfl rfl rfl rfl rfl, h.registers.of_eq rfl rfl rfl rfl rfl,
    h.fault.of_eq rfl rfl rfl⟩
  mpr h := ⟨h.params, h.lifecycle.of_eq rfl rfl rfl rfl, h.geometry.of_eq rfl rfl rfl rfl rfl rfl, h.palette,
    h.dirty.of_eq rfl rfl rfl rfl, h.storage.of_eq rfl rfl rfl rfl rfl, h.registers.of_eq rfl rfl rfl rfl rfl,
    h.fault.of_eq rfl rfl rfl⟩

/-- The invariant carries over to every state that looks the same to it. -/
theorem State.Inv.of_view {s t : State} (h : s.Inv) (e : t.invView = s.invView := by rfl) : t.Inv :=
  t.invView_inv.mp (e ▸ s.invView_inv.mpr h)

/-! ### The updates that keep it -/

theorem FaultCode.number_range (c : FaultCode) : 1 ≤ c.number.toNat ∧ c.number.toNat ≤ 7 := by cases c <;> decide

theorem State.enterFault_inv (s : State) (c : FaultCode) (op : BitVec 8) (h : s.Inv) : (s.enterFault c op).Inv where
  params := h.params
  lifecycle := h.lifecycle.of_eq
  geometry := h.geometry.of_eq
  palette := h.palette
  dirty := h.dirty.of_eq
  storage := h.storage.of_eq
  registers := h.registers
  fault := ⟨nofun, fun _ => c.number_range⟩

theorem State.setOpen_inv (s : State) (h : s.Inv) : ({ s with isOpen := true } : State).Inv where
  params := h.params
  lifecycle := ⟨fun _ => rfl, h.lifecycle.mapped_queried, h.lifecycle.surface_iff⟩
  geometry := h.geometry.of_eq
  palette := h.palette
  dirty := h.dirty.of_eq
  storage := h.storage.of_eq
  registers := h.registers
  fault := h.fault.of_eq

theorem State.setMapped_inv (s : State) (b : Bool) (h : s.Inv) (hb : b = true → s.queried = true) :
    ({ s with mapped := b } : State).Inv where
  params := h.params
  lifecycle := ⟨h.lifecycle.queried_open, hb, h.lifecycle.surface_iff⟩
  geometry := h.geometry.of_eq
  palette := h.palette
  dirty := h.dirty.of_eq
  storage := h.storage.of_eq
  registers := h.registers
  fault := h.fault.of_eq

/-- The dirty list grows by a rectangle inside the head while there is a head (R203, R206). -/
theorem State.addDirty_inv (s : State) (r : Rect) (h : s.Inv) (hq : s.queried = true) (hr : s.holdsRect r) :
    ({ s with dirty := s.dirty ++ [r] } : State).Inv where
  params := h.params
  lifecycle := h.lifecycle.of_eq
  geometry := h.geometry.of_eq
  palette := h.palette
  dirty := by
    refine ⟨fun q hqm => ?_, fun hc => absurd (hq.symm.trans hc) nofun⟩
    rcases List.mem_append.mp hqm with hm | hm
    · exact h.dirty.inside q hm
    · rw [List.mem_singleton.mp hm]
      exact hr
  storage := h.storage.of_eq
  registers := h.registers
  fault := h.fault.of_eq

theorem State.writeSurface_inv (s : State) (sf : Surface) (x y : Nat) (pixel : Pixel) (h : s.Inv)
    (hs : s.surface = some sf) (hx : x < s.width) (hy : y < s.height) :
    ({ s with surface := some (sf.write s.width x y pixel) } : State).Inv where
  params := h.params
  lifecycle := ⟨h.lifecycle.queried_open, h.lifecycle.mapped_queried, by simpa [hs] using h.lifecycle.surface_iff⟩
  geometry := h.geometry.of_eq
  palette := h.palette
  dirty := h.dirty.of_eq
  storage := by
    refine ⟨h.storage.vram, fun sf' e => ?_⟩
    cases e
    exact sf.write_wf _ _ x y pixel (h.storage.surface sf hs) hx hy
  registers := h.registers
  fault := h.fault.of_eq

/-- The VGA side may take any condition with canonical planes and legal register values. -/
theorem State.setVga_inv (s : State) (v : Vga) (h : s.Inv) (hv : Memory.wf s.launch.params.vramPlaneBytes v.vram = true)
    (hr : v.RegistersOk s.launch.params) : ({ s with vga := v } : State).Inv where
  params := h.params
  lifecycle := h.lifecycle.of_eq
  geometry := h.geometry.of_eq
  palette := h.palette
  dirty := h.dirty.of_eq
  storage := ⟨hv, h.storage.surface⟩
  registers := hr
  fault := h.fault.of_eq

theorem Vga.unknown_registersOk (k : Params) (tag : Nat) : (Vga.unknown tag).RegistersOk k :=
  ⟨nofun, nofun, nofun, nofun, nofun⟩

theorem Vga.reset_registersOk (k : Params) (v : Vga) : v.reset.RegistersOk k :=
  (Vga.unknown_registersOk k v.vramTag).of_eq rfl rfl rfl rfl rfl

theorem Vga.forgetReg_registersOk {k : Params} {v : Vga} (r : VgaReg) (h : v.RegistersOk k) :
    (v.setReg r none).RegistersOk k := by
  obtain ⟨h0, h1, h2, h3, h4⟩ := h
  cases r with
  | sr => exact ⟨nofun, h1, h2, h3, h4⟩
  | esr => exact ⟨h0, nofun, h2, h3, h4⟩
  | mode => exact ⟨h0, h1, nofun, h3, h4⟩
  | rot => exact ⟨h0, h1, h2, nofun, h4⟩
  | mapMask => exact ⟨h0, h1, h2, h3, nofun⟩
  | bm => exact ⟨h0, h1, h2, h3, h4⟩

theorem State.writeBase_inv (s : State) (h : s.Inv) : s.writeBase.Inv := by
  have hr : s.writeBase.vga.RegistersOk s.launch.params := by
    rw [State.writeBase_vga]
    exact ⟨h.registers.sr, fun _ e => (Option.some.inj e).symm, fun _ e => (Option.some.inj e).symm,
      fun _ e => (Option.some.inj e).symm, fun _ e => (Option.some.inj e).symm⟩
  have hv : Memory.wf s.launch.params.vramPlaneBytes s.writeBase.vga.vram = true := by simpa using h.storage.vram
  exact (s.setVga_inv _ h hv hr).of_view

/-- A push touches the DAC and the trace only. -/
theorem State.setPalette_inv (s : State) (h : s.Inv) : s.setPalette.Inv :=
  h.of_view (by simp [State.invView])

/-- A run starts in the invariant, whatever the host will send, if its launch meets the parameters' demands (R6, R292). -/
theorem State.start_inv (launch : Launch) (inbox : List Move) (hk : launch.params.Ok) :
    (State.start launch inbox).Inv where
  params := hk
  lifecycle := ⟨nofun, nofun, rfl⟩
  geometry := State.geometryOk_of_zero _ rfl rfl rfl rfl
  palette := Palette.ok_empty _
  dirty := ⟨nofun, fun _ => rfl⟩
  storage := ⟨rfl, nofun⟩
  registers := Vga.unknown_registersOk _ _
  fault := ⟨fun _ => ⟨rfl, rfl⟩, nofun⟩

theorem State.powerOn_inv (s : State) (h : s.Inv) : s.powerOn.Inv :=
  (State.start_inv s.launch s.inbox h.params).of_view

/-! ### The rules -/

theorem State.openDevice_inv (s : State) (h : s.Inv) : s.openDevice.Ends State.Inv := by
  rcases s.openDevice_cases with ⟨-, e⟩ | ⟨-, -, e⟩ | ⟨-, -, e⟩ <;> rw [e]
  · exact h
  · exact (s.setOpen_inv h).of_view
  · exact h.of_view

/-- CLOSE of an unmapped device leaves no head (R122). -/
theorem State.closeDevice_inv (s : State) (h : s.Inv) : s.closeDevice.Ends State.Inv := by
  rcases s.closeDevice_cases with ⟨-, e⟩ | ⟨-, hm, e⟩ <;> rw [e]
  · exact h
  · exact {
      params := h.params
      lifecycle := ⟨nofun, fun hc => absurd (hm.symm.trans hc) nofun, rfl⟩
      geometry := State.geometryOk_of_zero _ rfl rfl rfl rfl
      palette := h.palette
      dirty := ⟨nofun, fun _ => rfl⟩
      storage := ⟨h.storage.vram, nofun⟩
      registers := h.registers
      fault := h.fault.of_eq }

/-- A head whose geometry passed GeometryOK, within the fields' widths (R125, R94). -/
theorem State.setupHead_inv (s : State) (w h stride : Nat) (hs : s.Inv) (ho : s.isOpen = true)
    (hw : w < 2 ^ Config.coordBits) (hh : h < 2 ^ Config.coordBits) (hst : stride < 2 ^ Config.coordBits)
    (hg : geometryOk s.launch.params w h stride = true) : (s.setupHead w h stride).Inv := by
  obtain ⟨hge, hle⟩ := (geometryOk_iff hs.params w h stride).mp hg
  exact {
    params := hs.params
    lifecycle := ⟨fun _ => ho, fun _ => rfl, rfl⟩
    geometry := ⟨hw, hh, hst, rfl, hle, hge, nofun⟩
    palette := Palette.ok_empty _
    dirty := ⟨nofun, nofun⟩
    storage := ⟨hs.storage.vram, fun sf e => by cases e; rfl⟩
    registers := hs.registers
    fault := hs.fault.of_eq }

theorem State.queryDevice_inv (s : State) (w h stride type aux visual bpp : Nat) (hs : s.Inv)
    (hi : (Instr.query w h stride type aux visual bpp).WellFormed) :
    (s.queryDevice w h stride type aux visual bpp).Ends State.Inv := by
  simp only [Instr.WellFormed, Instr.wellFormed, fitsCoord, Bool.and_eq_true, decide_eq_true_eq] at hi
  obtain ⟨⟨⟨⟨⟨⟨hw, hh⟩, hst⟩, -⟩, -⟩, -⟩, -⟩ := hi
  rcases s.queryDevice_cases w h stride type aux visual bpp with
    ⟨-, e⟩ | ⟨-, -, -, e⟩ | ⟨-, -, -, -, e⟩ | ⟨ho, -, -, hg, e⟩ <;> rw [e]
  · exact hs
  · exact hs
  · exact hs
  · exact s.setupHead_inv w h stride hs ho hw hh hst hg

/-- ACTIVATE adds the full area, which lies in the head, and flushes (R129). -/
theorem State.activateHead_inv (s : State) (h : s.Inv) : s.activateHead.Ends State.Inv := by
  rcases s.activateHead_cases with ⟨-, e⟩ | ⟨hm, e⟩ <;> rw [e]
  · exact h
  · have hfull : s.holdsRect s.fullArea := by simp [State.holdsRect, State.fullArea]
    have hadd := s.addDirty_inv s.fullArea h (h.lifecycle.mapped_queried hm) hfull
    exact State.flushHead_inv _ hadd.of_view

theorem State.mapDevice_inv (s : State) (h : s.Inv) : s.mapDevice.Ends State.Inv := by
  rcases s.mapDevice_cases with ⟨-, e⟩ | ⟨-, -, -, e⟩ | ⟨hq, -, -, -, e⟩ | ⟨hq, -, -, -, e⟩ <;> rw [e]
  · exact h
  · exact h.of_view
  · exact (s.setMapped_inv true h fun _ => hq).of_view
  · exact State.activateHead_inv _ (s.setMapped_inv true h fun _ => hq).of_view

theorem State.pixWrite_inv (s : State) (x y : Nat) (pixel : Pixel) (h : s.Inv) :
    (s.pixWrite x y pixel).Ends State.Inv := by
  unfold State.pixWrite
  rcases s.withPixel_cases x y fun sf => { s with surface := some (sf.write s.width x y pixel) } with
    ⟨-, e⟩ | ⟨-, -, e⟩ | ⟨-, -, -, -, e⟩ | ⟨sf, -, hx, hy, hs, e⟩ <;> rw [e]
  · exact h
  · exact h
  · trivial
  · exact s.writeSurface_inv sf x y pixel h hs hx hy

theorem State.pixRead_inv (s : State) (x y : Nat) (h : s.Inv) : (s.pixRead x y).Ends State.Inv := by
  unfold State.pixRead
  rcases s.withPixel_cases x y fun sf => { s with result := (s.surf sf x y).setWidth 64 } with
    ⟨-, e⟩ | ⟨-, -, e⟩ | ⟨-, -, -, -, e⟩ | ⟨sf, -, -, -, -, e⟩ <;> rw [e]
  · exact h
  · exact h
  · trivial
  · exact h.of_view

theorem State.dirtyAdd_inv (s : State) (x y w h : Nat) (hs : s.Inv) : (s.dirtyAdd x y w h).Ends State.Inv := by
  rcases s.dirtyAdd_cases x y w h with ⟨-, e⟩ | ⟨-, -, e⟩ | ⟨hq, hx, hy, e⟩ <;> rw [e]
  · exact hs
  · exact hs
  · exact s.addDirty_inv ⟨x, y, w, h⟩ hs hq ⟨hx, hy⟩

theorem State.dirtyClear_inv (s : State) (h : s.Inv) : s.dirtyClear.Ends State.Inv := by
  rcases s.dirtyClear_cases with ⟨-, e⟩ | ⟨-, e⟩ <;> rw [e]
  · exact h
  · exact s.clearDirty_inv h

theorem State.pwBase_inv (s : State) (h : s.Inv) : s.pwBase.Ends State.Inv := by
  rcases s.pwBase_cases with ⟨-, e⟩ | ⟨-, e⟩ <;> rw [e]
  · exact h
  · exact s.writeBase_inv h

/-- Every rule of a well-formed command, completed or raised, ends in a state of the invariant. -/
theorem commandRule_inv (i : Instr) (s : State) (hi : i.WellFormed) (h : s.Inv) :
    (commandRule i s).Ends State.Inv := by
  cases i with
  | openDevice => exact s.openDevice_inv h
  | closeDevice => exact s.closeDevice_inv h
  | query w ht stride type aux visual bpp => exact s.queryDevice_inv w ht stride type aux visual bpp h hi
  | mapDevice => exact s.mapDevice_inv h
  | unmapDevice => exact s.setMapped_inv false h nofun
  | activate => exact s.activateHead_inv h
  | deactivate => exact State.Inv.of_view (t := s.deactivate) h
  | pixWrite x y pixel => exact s.pixWrite_inv x y pixel h
  | pixRead x y => exact s.pixRead_inv x y h
  | dirtyAdd x y w ht => exact s.dirtyAdd_inv x y w ht h
  | dirtyClear => exact s.dirtyClear_inv h
  | palAssign p => exact State.Inv.of_view (t := s.palAssign p) (rasterClosed_inv.assign s p h)
  | palPush => exact s.setPalette_inv h
  | palRead k => exact State.Inv.of_view (t := s.palRead k) h
  | pwBase => exact s.pwBase_inv h
  | pwWrite c m off => exact s.planarWrite_ends off c m h (rasterClosed_inv.planar s off c m h)
  | rastArea x y w ht => exact rasterClosed_inv.rasterArea s x y w ht h
  | flush => exact s.flushHead_inv h

/-! ### A step -/

theorem exec_inv (i : Instr) (s t : State) (hi : i.WellFormed) (h : s.Inv) (ht : exec i s = .next t) : t.Inv := by
  have hends := commandRule_inv i { s with result := 0 } hi h.of_view
  rcases exec_next i s t ht with e | ⟨c, u, e, rfl⟩ <;> rw [e] at hends
  · exact hends
  · exact u.enterFault_inv c _ hends

/-- Settles O15: each way a step can go keeps the invariant; a word's command is well formed, so its rule does. -/
theorem everyStepKeepsTheInvariant : Obligations.EveryStepKeepsTheInvariant := by
  intro s t h hst
  rcases step_cases s t hst with ⟨-, rfl⟩ | ⟨rest, ⟨w, -, hw⟩ | ⟨-, rfl⟩ | ⟨p, off, b, -, -, ho, rfl⟩ |
    ⟨r, -, -, rfl⟩ | ⟨i, -, -, rfl⟩ | ⟨-, rfl⟩⟩
  · exact h
  · have hrest : ({ s with inbox := rest } : State).Inv := h.of_view
    rcases hw with ⟨-, rfl⟩ | ⟨-, -, rfl⟩ | ⟨-, i, hd, hx⟩
    · exact hrest
    · exact State.enterFault_inv _ _ _ hrest
    · exact exec_inv i _ t (decode_wellFormed w i hd) hrest hx
  · exact (s.setVga_inv s.vga.reset h h.storage.vram (Vga.reset_registersOk _ _)).of_view
  · have hv := Vga.wf_setPlaneByte _ s.vga p.val off b h.storage.vram p.isLt ho
    exact (s.setVga_inv (s.vga.setPlaneByte p.val off b) h hv h.registers.of_eq).of_view
  · have hv : Memory.wf s.launch.params.vramPlaneBytes (s.vga.setReg r none).vram = true := by
      simpa using h.storage.vram
    exact (s.setVga_inv (s.vga.setReg r none) h hv (Vga.forgetReg_registersOk r h.registers)).of_view
  · exact h.of_view
  · exact State.powerOn_inv _ (State.Inv.of_view (t := { s with inbox := rest }) h)

end Sys2Proof.Machine
end

section
/-! SUPPORT. What a command keeps, said once for every command but QUERY and CLOSE, and the statements about the state's
elements that follow (10_state.md R22 to R33, R42 and R47). -/

namespace Sys2Proof.Machine

/-! ### How a command ends -/

theorem Run.Ends.mono {α : Type} {r : Run α} {P Q : State → Prop} (h : r.Ends P) (hPQ : ∀ t, P t → Q t) : r.Ends Q := by
  cases r with
  | done a t => exact hPQ t h
  | raised c t => exact hPQ t h
  | stuck e => trivial

/-- What holds wherever a command's rule ends, and survives the fault entry, holds wherever the command ends. -/
theorem exec_ends {P : State → Prop} {i : Instr} {s t : State} (h : exec i s = .next t)
    (hrule : (commandRule i { s with result := 0 }).Ends P)
    (hfault : ∀ u c op, P u → P (State.enterFault u c op)) : P t := by
  rcases exec_next i s t h with e | ⟨c, u, e, rfl⟩ <;> rw [e] at hrule
  · exact hrule
  · exact hfault u c _ hrule

/-! ### The frame of a command -/

/-- The commands that can flush the head (R226, R129, R127). -/
def mayFlush (i : Instr) : Prop := i = .flush ∨ i = .activate ∨ i = .mapDevice

/-- What every command but QUERY and CLOSE keeps from `s` to `t`: the geometry, `queried` and the parameters as they were;
the palette only grown, within the capacity; the trace only lengthened; and the surface and the dirty list, but for the
commands that write them. -/
structure CommandFrame (i : Instr) (s t : State) : Prop where
  width : t.width = s.width := by simp
  height : t.height = s.height := by simp
  rowStride : t.rowStride = s.rowStride := by simp
  size : t.size = s.size := by simp
  queried : t.queried = s.queried := by simp
  params : t.launch.params = s.launch.params := by simp
  palette : s.palette.Grows s.launch.params t.palette := by simp [Palette.Grows.refl]
  capacity : s.palette.size ≤ s.launch.params.paletteCapacity → t.palette.size ≤ s.launch.params.paletteCapacity := by
    simp
  trace : s.trace <+: t.trace := by simp
  surface : i.opcode ≠ .pixWrite → t.surface = s.surface := by simp
  dirty : i.opcode ≠ .dirtyAdd → i ≠ .dirtyClear → ¬ mayFlush i → t.dirty = s.dirty := by simp

theorem CommandFrame.trans {i : Instr} {s t u : State} (h : CommandFrame i s t) (g : CommandFrame i t u) :
    CommandFrame i s u where
  width := g.width.trans h.width
  height := g.height.trans h.height
  rowStride := g.rowStride.trans h.rowStride
  size := g.size.trans h.size
  queried := g.queried.trans h.queried
  params := g.params.trans h.params
  palette := h.palette.trans (h.params ▸ g.palette)
  capacity hs := h.params ▸ g.capacity (h.params ▸ h.capacity hs)
  trace := h.trace.trans g.trace
  surface hi := (g.surface hi).trans (h.surface hi)
  dirty ha hc hf := (g.dirty ha hc hf).trans (h.dirty ha hc hf)

/-! ### Rasterizing and flushing -/

theorem State.RasterStep.commandFrame {s t : State} (i : Instr) (h : s.RasterStep t)
    (hsize : s.palette.size ≤ s.launch.params.paletteCapacity → t.palette.size ≤ s.launch.params.paletteCapacity) :
    CommandFrame i s t := by
  have hf := h.fields
  exact { width := by simp [hf], height := by simp [hf], rowStride := by simp [hf], size := by simp [hf],
          queried := by simp [hf], params := h.params, palette := h.palette, capacity := hsize, trace := h.trace,
          surface := by simp [hf], dirty := by simp [hf] }

theorem State.assignIndex_commandFrame (i : Instr) (s : State) (p : Pixel) : CommandFrame i s (s.assignIndex p).2 :=
  (s.rasterStep_assign p).commandFrame i (s.assignIndex_size_le p)

theorem State.planarEffects_commandFrame (i : Instr) (s : State) (off : Nat) (c : BitVec 4) (m : Byte) :
    CommandFrame i s (s.planarEffects off c m) :=
  (s.rasterStep_planar off c m).commandFrame i (by simp)

theorem rasterClosed_commandFrame (i : Instr) (s : State) : RasterClosed (CommandFrame i s) where
  mask _ _ h := h.trans {}
  assign t p h := h.trans (t.assignIndex_commandFrame i p)
  planar t off c m h _ _ _ := h.trans (t.planarEffects_commandFrame i off c m)

theorem State.flushStart_commandFrame (i : Instr) (s : State) : CommandFrame i s s.flushStart :=
  have hemit : CommandFrame i s (s.emit .ttyGraphics) := {}
  have hbase : CommandFrame i (s.emit .ttyGraphics) (s.emit .ttyGraphics).writeBase :=
    { trace := by simp [State.writeBase_trace] }
  have hpush : CommandFrame i (s.emit .ttyGraphics).writeBase (s.emit .ttyGraphics).writeBase.setPalette :=
    { trace := State.setPalette_trace_prefix _ }
  hemit.trans (hbase.trans hpush)

theorem State.flushHead_ends (i : Instr) (hi : mayFlush i) (s : State) : s.flushHead.Ends (CommandFrame i s) :=
  (rasterClosed_commandFrame i s).flushHead (fun t h => h.trans (t.flushStart_commandFrame i))
    (fun _ h => h.trans { dirty := fun _ _ hn => absurd hi hn }) s {}

theorem State.activateHead_ends (i : Instr) (hi : mayFlush i) (s : State) : s.activateHead.Ends (CommandFrame i s) := by
  rcases s.activateHead_cases with ⟨-, e⟩ | ⟨-, e⟩ <;> rw [e]
  · exact {}
  · exact (State.flushHead_ends i hi _).mono fun _ h => .trans { dirty := fun _ _ hn => absurd hi hn } h

theorem State.mappedHead_commandFrame (i : Instr) (s : State) : CommandFrame i s s.mappedHead.afterVtDraw :=
  have hmap : CommandFrame i s s.mappedHead := by unfold State.mappedHead; exact {}
  hmap.trans {}

theorem State.mapDevice_ends (s : State) : s.mapDevice.Ends (CommandFrame .mapDevice s) := by
  rcases s.mapDevice_cases with ⟨-, e⟩ | ⟨-, -, -, e⟩ | ⟨-, -, -, -, e⟩ | ⟨-, -, -, -, e⟩ <;> rw [e]
  · exact {}
  · exact {}
  · exact s.mappedHead_commandFrame _
  · exact (State.activateHead_ends _ (.inr (.inr rfl)) _).mono fun _ h => (s.mappedHead_commandFrame _).trans h

/-! ### The other rules -/

theorem State.openDevice_ends (s : State) : s.openDevice.Ends (CommandFrame .openDevice s) := by
  rcases s.openDevice_cases with ⟨-, e⟩ | ⟨-, -, e⟩ | ⟨-, -, e⟩ <;> rw [e]
  · exact {}
  · exact {}
  · exact {}

theorem State.withPixel_ends {P : State → Prop} (s : State) (x y : Nat) (rule : Surface → State) (h : P s)
    (hrule : ∀ sf, P (rule sf)) : (s.withPixel x y rule).Ends P := by
  rcases s.withPixel_cases x y rule with ⟨-, e⟩ | ⟨-, -, e⟩ | ⟨-, -, -, -, e⟩ | ⟨sf, -, -, -, -, e⟩ <;> rw [e]
  · exact h
  · exact h
  · trivial
  · exact hrule sf

theorem State.dirtyAdd_ends (s : State) (x y w h : Nat) :
    (s.dirtyAdd x y w h).Ends (CommandFrame (.dirtyAdd x y w h) s) := by
  rcases s.dirtyAdd_cases x y w h with ⟨-, e⟩ | ⟨-, -, e⟩ | ⟨-, -, -, e⟩ <;> rw [e]
  · exact {}
  · exact {}
  · exact { dirty := fun ha => absurd rfl ha }

theorem State.dirtyClear_ends (s : State) : s.dirtyClear.Ends (CommandFrame .dirtyClear s) := by
  rcases s.dirtyClear_cases with ⟨-, e⟩ | ⟨-, e⟩ <;> rw [e]
  · exact {}
  · exact { dirty := fun _ hc => absurd rfl hc }

theorem State.pwBase_ends (s : State) : s.pwBase.Ends (CommandFrame .pwBase s) := by
  rcases s.pwBase_cases with ⟨-, e⟩ | ⟨-, e⟩ <;> rw [e]
  · exact {}
  · exact { trace := by simp [State.writeBase_trace] }

theorem State.setResult_commandFrame (i : Instr) (s : State) (r : BitVec 64) :
    CommandFrame i s { s with result := r } := {}

/-- Every rule but QUERY's and CLOSE's, completed or raised, keeps its frame. -/
theorem commandRule_frame (i : Instr) (s : State) (hq : i.opcode ≠ .query) (hc : i ≠ .closeDevice) :
    (commandRule i s).Ends (CommandFrame i s) := by
  cases i with
  | openDevice => exact s.openDevice_ends
  | closeDevice => exact absurd rfl hc
  | query w h stride type aux visual bpp => exact absurd rfl hq
  | mapDevice => exact s.mapDevice_ends
  | unmapDevice => exact show CommandFrame _ s s.unmapDevice from {}
  | activate => exact s.activateHead_ends _ (.inr (.inl rfl))
  | deactivate => exact show CommandFrame _ s s.deactivate from {}
  | pixWrite x y pixel => exact s.withPixel_ends x y _ {} fun _ => { surface := fun hp => absurd rfl hp }
  | pixRead x y => exact s.withPixel_ends x y _ {} fun _ => s.setResult_commandFrame _ _
  | dirtyAdd x y w h => exact s.dirtyAdd_ends x y w h
  | dirtyClear => exact s.dirtyClear_ends
  | palAssign p => exact (s.assignIndex_commandFrame _ p).trans (State.setResult_commandFrame _ _ _)
  | palPush => exact show CommandFrame _ s s.setPalette from { trace := s.setPalette_trace_prefix }
  | palRead k => exact s.setResult_commandFrame _ _
  | pwBase => exact s.pwBase_ends
  | pwWrite c m off => exact s.planarWrite_ends off c m {} fun _ _ _ => s.planarEffects_commandFrame _ off c m
  | rastArea x y w h => exact (rasterClosed_commandFrame _ s).rasterArea s x y w h {}
  | flush => exact s.flushHead_ends _ (.inl rfl)

theorem exec_frame {i : Instr} {s t : State} (h : exec i s = .next t) (hq : i.opcode ≠ .query)
    (hc : i ≠ .closeDevice) : CommandFrame i s t :=
  exec_ends h ((commandRule_frame i _ hq hc).mono fun _ hrule => (s.setResult_commandFrame i 0).trans hrule)
    fun _ _ _ hu => hu.trans {}

/-! ### QUERY and CLOSE -/

theorem State.closeDevice_ends (s : State) :
    s.closeDevice.Ends fun t => t.palette = s.palette ∧ t.trace = s.trace := by
  rcases s.closeDevice_cases with ⟨-, e⟩ | ⟨-, -, e⟩ <;> rw [e]
  · exact ⟨rfl, rfl⟩
  · exact ⟨rfl, rfl⟩

theorem State.queryDevice_ends (s : State) (w h stride type aux visual bpp : Nat) :
    (s.queryDevice w h stride type aux visual bpp).Ends fun t => t.trace = s.trace := by
  rcases s.queryDevice_cases w h stride type aux visual bpp with
    ⟨-, e⟩ | ⟨-, -, -, e⟩ | ⟨-, -, -, -, e⟩ | ⟨-, -, -, -, e⟩ <;> rw [e]
  · exact rfl
  · exact rfl
  · exact rfl
  · exact rfl

theorem exec_closeDevice_keeps {s t : State} (h : exec .closeDevice s = .next t) :
    t.palette = s.palette ∧ t.trace = s.trace :=
  exec_ends (P := fun u => u.palette = s.palette ∧ u.trace = s.trace) h (State.closeDevice_ends _) fun _ _ _ hu => hu

theorem exec_query_trace {w ht stride type aux visual bpp : Nat} {s t : State}
    (h : exec (.query w ht stride type aux visual bpp) s = .next t) : t.trace = s.trace :=
  exec_ends (P := fun u => u.trace = s.trace) h (State.queryDevice_ends _ w ht stride type aux visual bpp)
    fun _ _ _ hu => hu

theorem exec_trace_prefix (i : Instr) (s t : State) (h : exec i s = .next t) : s.trace <+: t.trace := by
  cases i with
  | query w ht stride type aux visual bpp => rw [exec_query_trace h]
  | closeDevice => rw [(exec_closeDevice_keeps h).2]
  | _ => exact (exec_frame h nofun nofun).trace

/-! ### The statements -/

/-- Settles O19: CLOSE keeps the palette, and every other command's frame says how it grows. -/
theorem paletteEntriesAreNeverReordered : Obligations.PaletteEntriesAreNeverReordered := by
  intro i s t hq h
  by_cases hc : i = .closeDevice
  · subst hc
    rw [(exec_closeDevice_keeps h).1]
    exact ⟨⟨Nat.le_refl _, fun _ _ => rfl⟩, id⟩
  · have hf := exec_frame h hq hc
    exact ⟨⟨hf.palette.size_le, hf.palette.kept⟩, hf.capacity⟩

/-- Settles O20: of the ways a step can go, a command lengthens the trace, power-on alone starts a new one, and the rest
leave it. -/
theorem traceIsAppendOnly : Obligations.TraceIsAppendOnly := by
  intro s t hst hp
  rcases step_cases s t hst with ⟨-, rfl⟩ | ⟨rest, ⟨w, -, hw⟩ | ⟨-, rfl⟩ | ⟨p, off, b, -, -, -, rfl⟩ |
    ⟨r, -, -, rfl⟩ | ⟨k, -, -, rfl⟩ | ⟨hi, -⟩⟩
  · exact List.prefix_refl _
  · rcases hw with ⟨-, rfl⟩ | ⟨-, -, rfl⟩ | ⟨-, i, -, hx⟩
    · exact List.prefix_refl _
    · exact List.prefix_refl _
    · exact exec_trace_prefix i { s with inbox := rest } t hx
  · exact List.prefix_refl _
  · exact List.prefix_refl _
  · exact List.prefix_refl _
  · exact List.prefix_refl _
  · exact absurd hi (hp rest)

/-- Settles O22: the geometry and `queried` are part of the frame. -/
theorem onlyQueryAndCloseWriteGeometry : Obligations.OnlyQueryAndCloseWriteGeometry := by
  intro i s t hq hc h
  have hf := exec_frame h hq hc
  exact ⟨hf.width, hf.height, hf.rowStride, hf.size, hf.queried⟩

/-- Settles O23: the surface and the dirty list are part of the frame of every command but their writers. -/
theorem onlyTheirCommandsWriteSurfaceAndDirty : Obligations.OnlyTheirCommandsWriteSurfaceAndDirty := by
  intro i s t hq hc h
  have hf := exec_frame h hq hc
  refine ⟨hf.surface, fun hadd hclear hflush hactivate hmap => hf.dirty hadd hclear ?_⟩
  rintro (e | e | e)
  · exact hflush e
  · exact hactivate e
  · exact hmap e

/-! ### STATUS -/

/-- A concatenation as a number: the left part above the right part's bits. -/
theorem toNat_append_eq_add {m n : Nat} (x : BitVec m) (y : BitVec n) :
    (x ++ y).toNat = x.toNat * 2 ^ n + y.toNat := by
  rw [BitVec.toNat_append, ← Nat.shiftLeft_add_eq_or_of_lt y.isLt, Nat.shiftLeft_eq]

/-- STATUS as the sum of its fields, each at its bit (R24). -/
theorem State.status_toNat (s : State) (hsize : s.palette.size ≤ 16) :
    s.status.toNat = s.isOpen.toNat + s.queried.toNat * 2 + s.mapped.toNat * 4 + s.active.toNat * 8 +
      s.baseValid.toNat * 16 + s.fault.toNat * 32 + s.palette.size * 2 ^ 8 + s.faultCode.toNat * 2 ^ 16 +
      s.faultOpcode.toNat * 2 ^ 24 := by
  have hpsize : s.palette.size % 2 ^ 5 = s.palette.size := Nat.mod_eq_of_lt (by omega)
  simp only [State.status, toNat_append_eq_add, BitVec.toNat_ofBool, BitVec.toNat_ofNat, hpsize]
  omega

/-- base_valid is 1 exactly where the four base registers are known to hold their base values (R42). -/
theorem State.baseValid_iff (s : State) :
    s.baseValid = true ↔
      s.vga.esr = some s.launch.params.baseEsr ∧ s.vga.mode = some s.launch.params.baseMode ∧
      s.vga.rot = some s.launch.params.baseRotate ∧ s.vga.mapMask = some s.launch.params.baseMapMask := by
  simp [State.baseValid, Vga.baseValid, and_assoc]

/-- Settles O60: STATUS read as a sum of its fields, and base_valid by the base registers, at any parameters and at the
defaults. -/
theorem statusIsALiveView : Obligations.StatusIsALiveView := by
  refine ⟨by decide, ?_⟩
  rintro s k rfl
  refine ⟨s.status_toNat, s.baseValid_iff, fun hdefault => ?_⟩
  rw [s.baseValid_iff, hdefault]
  rfl

/-! ### Steps and RESULT -/

/-- Settles O6: a command's word is decoded and executed; an empty inbox leaves nothing to take. -/
theorem stepRunsTheDecodedCommand : Obligations.StepRunsTheDecodedCommand := by
  refine ⟨step_command, fun s hempty => ?_⟩
  have hidle : s.fetch = .settled (.next s) := by rw [State.fetch, hempty]
  exact step_of_settled s _ hidle

/-- Settles O24: a command runs its rule from RESULT 0, whatever RESULT was. -/
theorem commandsForgetTheOldResult : Obligations.CommandsForgetTheOldResult := by
  intro i s r
  rw [exec_eq, exec_eq, runCommand, runCommand]

end Sys2Proof.Machine
end

section
/-! SUPPORT. The pixel view of video memory as a sum over the planes, and the statement about it (20_memory.md R61 to
R63). -/

namespace Sys2Proof.Machine

/-- The bit of a byte as R63 writes it, by a shift and a mask. -/
theorem toNat_getLsbD_eq_shiftRight_and_one (b : Byte) (i : Nat) :
    (b.getLsbD i).toNat = (b.toNat >>> i) &&& 1 := by
  rw [← BitVec.testBit_toNat, Nat.toNat_testBit, Nat.shiftRight_eq_div_pow, Nat.and_one_is_mod]

/-- A pixel as the sum of its planes' bits, plane p's at bit p. -/
theorem Vga.pixelAt_toNat (v : Vga) (off k : Nat) :
    (v.pixelAt off k).toNat =
      (List.range 4).foldl (fun a p => a + ((v.planeByte p off).getLsbD (7 - k)).toNat <<< p) 0 := by
  simp only [pixelAt, toNat_append_eq_add, BitVec.toNat_ofBool, Nat.shiftLeft_eq, List.range_succ, List.range_zero,
    List.nil_append, List.foldl_append, List.foldl_cons, List.foldl_nil]
  omega

/-- With 8 pixels to a byte, pixel (x, y) stands at bit 7 - (x mod 8) of the byte at y * row_stride + x / 8 (R61). -/
theorem State.index_eq_pixelAt (s : State) (x y : Nat) (hpixels : s.launch.params.pixelsPerByte = 8) :
    s.index x y = s.vga.pixelAt (y * s.rowStride + x / 8) (x % 8) := by
  rw [index, vramOffset, byteColumn, hpixels]

/-- Settles O52: the pixel's place, the pixel as the sum of its planes' bits, and each bit by a shift and a mask. -/
theorem indexIsTheSumOverPlanes : Obligations.IndexIsTheSumOverPlanes := by
  intro s x y hparams
  rw [s.index_eq_pixelAt x y hparams.pixels, Vga.pixelAt_toNat]
  simp only [toNat_getLsbD_eq_shiftRight_and_one]

end Sys2Proof.Machine
end

section
/-! SUPPORT. A word as its opcode field and its operand bits, the decode masks as bit ranges, and the statements about
decoding and encoding (30_encoding.md R90 to R98, 60_exceptions.md R252). -/

namespace Sys2Proof

/-! ### From a command to its word and back (R91, R95) -/

/-- Every command's word has its opcode and no reserved bit: the per-instruction family, put together. -/
theorem Laws.Encoding.statement (i : Instr) : Statement i := by
  cases i with
  | openDevice => exact openDevice
  | closeDevice => exact closeDevice
  | query w h stride type aux visual bpp => exact query w h stride type aux visual bpp
  | mapDevice => exact mapDevice
  | unmapDevice => exact unmapDevice
  | activate => exact activate
  | deactivate => exact deactivate
  | pixWrite x y pixel => exact pixWrite x y pixel
  | pixRead x y => exact pixRead x y
  | dirtyAdd x y w h => exact dirtyAdd x y w h
  | dirtyClear => exact dirtyClear
  | palAssign pixel => exact palAssign pixel
  | palPush => exact palPush
  | palRead index => exact palRead index
  | pwBase => exact pwBase
  | pwWrite color mask offset => exact pwWrite color mask offset
  | rastArea x y w h => exact rastArea x y w h
  | flush => exact flush

/-- Each operand field of a well-formed command's word holds the operand. -/
theorem assemble_encode (i : Instr) (hi : i.WellFormed) : i.opcode.assemble (encode i) = i := by
  have hfield := bitField_encode i hi
  cases i with
  | query | pixRead | dirtyAdd | rastArea =>
    simp [Instr.WellFormed, Instr.wellFormed, fitsCoord_iff] at hi
    simp (disch := decide) only [Instr.opcode, Opcode.assemble, hfield, Instr.operandBits, Instr.query.injEq,
      Instr.pixRead.injEq, Instr.dirtyAdd.injEq, Instr.rastArea.injEq]
    omega
  | pixWrite x y pixel =>
    have hpixel := pixel.isLt
    simp [Instr.WellFormed, Instr.wellFormed, fitsCoord_iff] at hi
    simp (disch := decide) only [Instr.opcode, Opcode.assemble, hfield, Instr.operandBits, Instr.pixWrite.injEq,
      ← BitVec.toNat_inj, BitVec.toNat_ofNat]
    omega
  | palAssign pixel =>
    have hpixel := pixel.isLt
    simp (disch := decide) only [Instr.opcode, Opcode.assemble, hfield, Instr.operandBits, Instr.palAssign.injEq,
      ← BitVec.toNat_inj, BitVec.toNat_ofNat]
    omega
  | palRead index =>
    have hindex := index.isLt
    simp (disch := decide) only [Instr.opcode, Opcode.assemble, hfield, Instr.operandBits, Instr.palRead.injEq,
      Fin.ext_iff, Fin.val_ofNat]
    omega
  | pwWrite color mask offset =>
    have hcolor := color.isLt
    have hmask := mask.isLt
    simp [Instr.WellFormed, Instr.wellFormed] at hi
    simp (disch := decide) only [Instr.opcode, Opcode.assemble, hfield, Instr.operandBits, Instr.pwWrite.injEq,
      ← BitVec.toNat_inj, BitVec.toNat_ofNat]
    omega
  | _ => rfl

/-- Settles O1: the word has the command's opcode and no reserved bit, so it decodes to what its fields make, and these
hold the operands. -/
theorem decodeOfEncodeIsTheCommand : Obligations.DecodeOfEncodeIsTheCommand := by
  intro i hi
  obtain ⟨hop, hclear⟩ := Laws.Encoding.statement i hi
  rw [decode_of_fields _ _ hop hclear, assemble_encode i hi]

/-! ### From a word to its command and back -/

/-- The fields and the reserved bits of a format cover bits 55 to 0: with the reserved bits 0, the operands the fields
make give those bits again. -/
theorem Opcode.operandBits_assemble (o : Opcode) (w : Word) (hclear : o.format.reservedClear w = true) :
    (o.assemble w).operandBits = w.toNat % 2 ^ 56 := by
  cases o with
  | query | pixWrite =>
    simp only [assemble, Instr.operandBits, bitField, BitVec.toNat_ofNat]
    omega
  | pixRead | dirtyAdd | rastArea | palAssign | palRead | pwWrite =>
    simp [format, Format.reservedClear, Format.reserved, bitField] at hclear
    simp [assemble, Instr.operandBits, bitField]
    omega
  | _ =>
    simp only [format, Format.reservedClear, Format.reserved, List.all_cons, List.all_nil, Bool.and_true, beq_iff_eq,
      bitField, pow_zero, Nat.div_one] at hclear
    exact hclear.symm

/-- Settles O2: the word is its opcode field above its operand bits, and the command's word has both. -/
theorem encodeOfDecodeIsTheWord : Obligations.EncodeOfDecodeIsTheWord := by
  intro w i h
  obtain ⟨hop, hclear, hfields⟩ := decode_ok w i h
  have hbits : i.operandBits = w.toNat % 2 ^ 56 := hfields ▸ i.opcode.operandBits_assemble w hclear
  have hw := w.isLt
  apply BitVec.eq_of_toNat_eq
  rw [encode_toNat i (decode_wellFormed w i h), hbits, ← hop, opField, bitField]
  omega

/-- Settles O3: a decoded command's operands are fields; coordinates are below 4096, so a product of two is at most
4095 * 4095. -/
theorem fieldWidthsBoundOperands : Obligations.FieldWidthsBoundOperands := by
  refine ⟨decode_wellFormed, fun a b c ha hb hc => ?_⟩
  rw [fitsCoord_iff] at ha hb hc
  have hmul : a * b ≤ 4095 * 4095 := Nat.mul_le_mul (by omega) (by omega)
  omega

/-! ### The decode masks (R92) -/

/-- The mask of the bits hi to lo. -/
def rangeMask (hi lo : Nat) : Nat := (2 ^ (hi + 1 - lo) - 1) <<< lo

/-- Masking a word with a bit range leaves the field at its place. -/
theorem and_rangeMask (w : Word) (hi lo : Nat) : w.toNat &&& rangeMask hi lo = bitField w hi lo <<< lo := by
  rw [bitField, ← Nat.shiftRight_eq_div_pow, ← Nat.and_two_pow_sub_one_eq_mod, Nat.shiftLeft_and_distrib, rangeMask]
  apply Nat.eq_of_testBit_eq
  intro k
  by_cases hk : lo ≤ k <;> simp [hk]

/-- A format's reserved mask is the union of its reserved ranges. -/
theorem Format.reservedMask_eq_or (f : Format) :
    f.reservedMask = f.reserved.foldr (fun r m => rangeMask r.1 r.2 ||| m) 0 := by
  cases f <;> decide

theorem Format.reservedMask_lt (f : Format) : f.reservedMask < 2 ^ 56 := by
  cases f <;> decide

/-- A format's decode mask is the opcode's bits and the reserved ones. -/
theorem Format.decodeMask_eq_or (f : Format) : f.decodeMask = rangeMask 63 56 ||| f.reservedMask := by
  cases f <;> decide

/-- Fields of a word are all 0 exactly where the word has no bit in the union of their ranges. -/
theorem all_bitField_eq_zero_iff (w : Word) (ranges : List (Nat × Nat)) :
    (ranges.all fun r => bitField w r.1 r.2 == 0) = true ↔
      w.toNat &&& ranges.foldr (fun r m => rangeMask r.1 r.2 ||| m) 0 = 0 := by
  induction ranges with
  | nil => simp
  | cons r rest ih =>
    simp [Nat.and_or_distrib_left, Nat.or_eq_zero_iff, and_rangeMask, Nat.shiftLeft_eq_zero_iff, ← ih]

theorem Format.reservedClear_iff (f : Format) (w : Word) :
    f.reservedClear w = true ↔ w.toNat &&& f.reservedMask = 0 := by
  rw [f.reservedMask_eq_or]
  exact all_bitField_eq_zero_iff w f.reserved

/-- A word masked with a format's decode mask is the opcode `code` alone exactly where its opcode field is `code` and
its reserved bits are 0: the two parts of the masked word share no bit. -/
theorem and_decodeMask_eq_iff (w : Word) (f : Format) (code : Nat) :
    w.toNat &&& f.decodeMask = code <<< 56 ↔ opField w = code ∧ f.reservedClear w = true := by
  have hlow : w.toNat &&& f.reservedMask < 2 ^ 56 := Nat.lt_of_le_of_lt Nat.and_le_right f.reservedMask_lt
  rw [f.reservedClear_iff, f.decodeMask_eq_or, Nat.and_or_distrib_left, and_rangeMask,
    ← Nat.shiftLeft_add_eq_or_of_lt hlow, ← opField, Nat.shiftLeft_eq, Nat.shiftLeft_eq]
  omega

/-- A word decodes to a command of opcode `o` exactly where its opcode field is `o` and `o`'s reserved bits are 0. -/
theorem decode_opcode_iff (w : Word) (o : Opcode) :
    (∃ i, decode w = .ok i ∧ i.opcode = o) ↔ opField w = o.code ∧ o.format.reservedClear w = true := by
  constructor
  · rintro ⟨i, hd, rfl⟩
    obtain ⟨hop, hclear, -⟩ := decode_ok w i hd
    exact ⟨hop, hclear⟩
  · rintro ⟨hop, hclear⟩
    exact ⟨o.assemble w, decode_of_fields w o hop hclear, o.assemble_opcode w⟩

/-- R92's rule: a word selects a command of opcode `o` exactly by the decode mask of its format. -/
theorem decode_opcode_iff_mask (w : Word) (o : Opcode) :
    (∃ i, decode w = .ok i ∧ i.opcode = o) ↔ w.toNat &&& o.format.decodeMask = o.code <<< 56 := by
  rw [decode_opcode_iff, and_decodeMask_eq_iff]

/-- Settles O4: the masks are the table's, and the masked word compares the opcode field and the reserved bits. -/
theorem wordSelectsCommandByMask : Obligations.WordSelectsCommandByMask := by
  refine ⟨fun f => ?_, by decide, decode_opcode_iff_mask⟩
  cases f <;> decide

/-- A word that no opcode's mask selects is refused. -/
theorem decode_error_of_unselected (w : Word) (h : ∀ o : Opcode, w.toNat &&& o.format.decodeMask ≠ o.code <<< 56) :
    ∃ e, decode w = .error e := by
  cases hd : decode w with
  | error e => exact ⟨e, rfl⟩
  | ok i => exact absurd ((decode_opcode_iff_mask w i.opcode).mp ⟨i, hd, rfl⟩) (h i.opcode)

/-- The opcode field as FAULT_OPCODE keeps it: the word's top 8 bits. -/
theorem ofNat_opField (w : Word) : BitVec.ofNat 8 (opField w) = BitVec.ofNat 8 (w.toNat >>> 56) := by
  rw [opField, bitField, Nat.shiftRight_eq_div_pow]
  exact BitVec.eq_of_toNat_eq (by simp)

/-- Settles O7: decode refuses the word, and the step is the fault entry ILLEGAL with its opcode field. -/
theorem illegalWordFaults : Obligations.IllegalWordFaults := by
  intro s w rest hinbox hrunning hunselected
  obtain ⟨e, hd⟩ := decode_error_of_unselected w hunselected
  rw [Machine.step_illegal s w rest e hinbox hrunning hd, Machine.State.illegal, ofNat_opField]
  rfl

/-- Settles O5: the words are literals, so the decoder computes each answer. -/
theorem sampleWordsDecode : Obligations.SampleWordsDecode := by
  unfold Obligations.SampleWordsDecode
  decide

end Sys2Proof
end

section
/-! SUPPORT. How each lifecycle rule goes under its checks' conditions, one equation per case, and the statements about
OPEN, CLOSE, QUERY, UNMAP, DEACTIVATE and MAP without focus (41_lifecycle.md R121 to R130). -/

namespace Sys2Proof.Machine

/-! ### The rules' equations -/

theorem State.openDevice_of_open (s : State) (h : s.isOpen = true) : s.openDevice = .raised .sequence s := by
  simp [openDevice, h]

theorem State.openDevice_of_granted (s : State) (h : s.isOpen = false) (ha : s.openAnswer = true) :
    s.openDevice = .done () { s.afterOpenDraw with isOpen := true, result := 1 } := by
  simp [openDevice, h, ha]

theorem State.openDevice_of_denied (s : State) (h : s.isOpen = false) (ha : s.openAnswer = false) :
    s.openDevice = .done () s.afterOpenDraw := by
  simp [openDevice, h, ha, afterOpenDraw]

theorem State.closeDevice_raises (s : State) (h : s.isOpen = false ∨ s.mapped = true) :
    s.closeDevice = .raised .sequence s := by
  rcases h with h | h <;> simp [closeDevice, h]

theorem State.closeDevice_done (s : State) (h : s.isOpen = true) (hm : s.mapped = false) :
    s.closeDevice = .done () { s with
      isOpen := false, queried := false, active := false,
      width := 0, height := 0, rowStride := 0, size := 0, surface := none, dirty := [] } := by
  simp [closeDevice, h, hm]

theorem State.queryDevice_raises_sequence (s : State) (w h stride type aux visual bpp : Nat)
    (hs : s.isOpen = false ∨ s.queried = true) :
    s.queryDevice w h stride type aux visual bpp = .raised .sequence s := by
  rcases hs with hs | hs <;> simp [queryDevice, hs]

section
variable (s : State) (w h stride type aux visual bpp : Nat) (ho : s.isOpen = true) (hq : s.queried = false)
include ho hq

theorem State.queryDevice_refuses (hc : compatible s.launch.params type aux visual bpp = false) :
    s.queryDevice w h stride type aux visual bpp = .done () s := by
  simp [queryDevice, ho, hq, hc]

theorem State.queryDevice_raises_geometry (hc : compatible s.launch.params type aux visual bpp = true)
    (hg : geometryOk s.launch.params w h stride = false) :
    s.queryDevice w h stride type aux visual bpp = .raised .geometry s := by
  simp [queryDevice, ho, hq, hc, hg]

theorem State.queryDevice_done (hc : compatible s.launch.params type aux visual bpp = true)
    (hg : geometryOk s.launch.params w h stride = true) :
    s.queryDevice w h stride type aux visual bpp = .done () (s.setupHead w h stride) := by
  simp [queryDevice, ho, hq, hc, hg]

end

theorem State.mapDevice_raises (s : State) (h : s.queried = false ∨ s.mapped = true) :
    s.mapDevice = .raised .sequence s := by
  rcases h with h | h <;> simp [mapDevice, h]

theorem State.mapDevice_of_denied (s : State) (hq : s.queried = true) (hm : s.mapped = false)
    (ha : s.mapAnswer = false) : s.mapDevice = .done () s.afterMapDraw := by
  simp [mapDevice, hq, hm, ha]

theorem State.mapDevice_of_granted (s : State) (hq : s.queried = true) (hm : s.mapped = false)
    (ha : s.mapAnswer = true) :
    s.mapDevice = bif s.afterMapDraw.vtAnswer then s.mappedHead.afterVtDraw.activateHead
      else .done () s.mappedHead.afterVtDraw := by
  simp only [mapDevice, hq, hm, ha, Bool.not_true, Bool.or_self, cond_false]
  rfl

theorem State.activateHead_raises (s : State) (h : s.mapped = false) : s.activateHead = .raised .sequence s := by
  simp [activateHead, h]

/-- R124's conditions hold of the launch's own constants. -/
theorem compatible_self (k : Params) :
    compatible k k.typeVgaPlanes k.auxVga4 k.visualPseudocolor k.reqBpp = true :=
  (compatible_iff ..).mpr ⟨rfl, rfl, rfl, rfl⟩

/-! ### The statements -/

/-- Settles O25: each case is one equation of OPEN's rule, run from RESULT 0. -/
theorem openCompletes : Obligations.OpenCompletes := by
  refine ⟨by decide, fun s => ⟨fun ho => ?_, fun ho ha => ?_, fun ho ha => ?_⟩⟩
  · exact exec_raised .openDevice s _ _ (State.openDevice_of_open _ ho)
  · exact exec_done .openDevice s _ (State.openDevice_of_granted _ ho ha)
  · exact exec_done .openDevice s _ (State.openDevice_of_denied _ ho ha)

/-- Settles O26: CLOSE's rule raises, or clears the elements named and no other. -/
theorem closeCompletes : Obligations.CloseCompletes := by
  refine ⟨by decide, fun s => ⟨fun h => ?_, fun ho hm => ?_⟩⟩
  · exact exec_raised .closeDevice s _ _ (State.closeDevice_raises _ h)
  · exact exec_done .closeDevice s _ (State.closeDevice_done _ ho hm)

/-- Settles O27: the head QUERY sets up has a surface without a written word, so each pixel reads as SURFACE_INIT. -/
theorem querySetsUpTheHead : Obligations.QuerySetsUpTheHead := by
  rintro s k w h stride rfl hk ho hq hge hle
  have hg := (geometryOk_iff hk w h stride).mpr ⟨hge, hle⟩
  have hdone := State.queryDevice_done { s with result := 0 } w h stride _ _ _ _ ho hq (compatible_self _) hg
  exact ⟨_, { words := [], tag := s.draws }, exec_done (.query ..) s _ hdone, rfl, rfl, fun _ _ => rfl⟩

/-- Settles O28: the checks in order; 0xF in a field is one way to be incompatible. -/
theorem queryRefusesAndFaults : Obligations.QueryRefusesAndFaults := by
  rintro s k w h stride type aux visual bpp rfl hk
  have refuses (ho : s.isOpen = true) (hq : s.queried = false)
      (hc : compatible s.launch.params type aux visual bpp = false) :
      exec (.query w h stride type aux visual bpp) s = .next { s with result := 0 } :=
    exec_done (.query ..) s _ (State.queryDevice_refuses _ _ _ _ _ _ _ _ ho hq hc)
  refine ⟨fun hs => ?_, fun ho hq hne => ?_, fun ho hq hF => ?_, fun ho hq hbad => ?_⟩
  · exact exec_raised (.query ..) s _ _ (State.queryDevice_raises_sequence _ _ _ _ _ _ _ _ hs)
  · exact refuses ho hq (by rwa [← Bool.not_eq_true, compatible_iff])
  · exact refuses ho hq (compatible_0xF hk bpp hF)
  · have hg : geometryOk s.launch.params w h stride = false := by
      rw [← Bool.not_eq_true, geometryOk_iff hk]
      omega
    exact exec_raised (.query ..) s _ _
      (State.queryDevice_raises_geometry { s with result := 0 } _ _ _ _ _ _ _ ho hq (compatible_self _) hg)

/-- Settles O29: MAP without the VT focus, by the equations of its rule. -/
theorem mapCompletesWithoutFocus : Obligations.MapCompletesWithoutFocus := by
  refine fun s => ⟨fun h => ?_, fun hq hm ha => ?_, fun hq hm ha hv => ?_⟩
  · exact exec_raised .mapDevice s _ _ (State.mapDevice_raises _ h)
  · exact exec_done .mapDevice s _ (State.mapDevice_of_denied _ hq hm ha)
  · have hmap := State.mapDevice_of_granted { s with result := 0 } hq hm ha
    rw [show ({ s with result := 0 } : State).afterMapDraw.vtAnswer = false from hv] at hmap
    exact exec_done .mapDevice s _ hmap

/-- Settles O31: UNMAP's rule makes no check and is one update. -/
theorem unmapCompletes : Obligations.UnmapCompletes :=
  ⟨by decide, fun s => exec_done .unmapDevice s _ rfl⟩

/-- Settles O32: DEACTIVATE's rule makes no check and is one update. -/
theorem deactivateCompletes : Obligations.DeactivateCompletes :=
  fun s => exec_done .deactivate s _ rfl

end Sys2Proof.Machine
end

section
/-! SUPPORT. What a completed flush leaves in video memory, the DAC and the trace, rectangle by rectangle, and the
statements about redrawing the whole head (41_lifecycle.md R127 and R129, 45_flush.md R225 to R230). -/

/-! ### The region's rectangles cover the dirty pixels (R205) -/

namespace Sys2Proof

theorem Rect.covers_iff (r : Rect) (x y : Nat) :
    r.covers x y = true ↔ r.x ≤ x ∧ x < r.x + r.w ∧ r.y ≤ y ∧ y < r.y + r.h := by
  simp [Rect.covers, and_assoc]

theorem coveredBy_iff (rs : List Rect) (x y : Nat) : coveredBy rs x y = true ↔ ∃ r ∈ rs, r.covers x y = true := by
  simp [coveredBy]

theorem le_foldl_max (f : Rect → Nat) (rs : List Rect) (b : Nat) :
    b ≤ rs.foldl (fun a r => max a (f r)) b ∧ ∀ r ∈ rs, f r ≤ rs.foldl (fun a r => max a (f r)) b := by
  induction rs generalizing b with
  | nil => exact ⟨Nat.le_refl b, nofun⟩
  | cons q rs ih =>
    obtain ⟨hacc, hrest⟩ := ih (max b (f q))
    refine ⟨Nat.le_trans (Nat.le_max_left ..) hacc, fun r hr => ?_⟩
    rcases List.mem_cons.mp hr with rfl | hr
    · exact Nat.le_trans (Nat.le_max_right ..) hacc
    · exact hrest r hr

theorem lt_edges_of_coveredBy {rs : List Rect} {x y width height : Nat}
    (hr : ∀ r ∈ rs, r.x + r.w ≤ width ∧ r.y + r.h ≤ height) (h : coveredBy rs x y = true) : x < width ∧ y < height := by
  obtain ⟨r, hmem, hcov⟩ := (coveredBy_iff rs x y).mp h
  have := hr r hmem
  have := (r.covers_iff x y).mp hcov
  omega

theorem inside_own_edges (rs : List Rect) : ∀ r ∈ rs, r.x + r.w ≤ rightEdge rs ∧ r.y + r.h ≤ lowerEdge rs :=
  fun r hr => ⟨(le_foldl_max (fun r => r.x + r.w) rs 0).2 r hr, (le_foldl_max (fun r => r.y + r.h) rs 0).2 r hr⟩

end Sys2Proof

namespace Sys2Proof.Machine

/-- R205 (c): inside the edges by conformance, and outside them neither list covers a pixel. -/
theorem Config.coveredBy_regionRects (dirty : List Rect) (x y : Nat) :
    coveredBy (Config.regionRects dirty) x y = coveredBy dirty x y := by
  by_cases hxy : x < rightEdge dirty ∧ y < lowerEdge dirty
  · unfold Config.regionRects
    cases hc : conformingRects dirty (Config.rawRegionRects dirty) with
    | false => rfl
    | true =>
      simp only [conformingRects, Bool.and_eq_true, List.all_eq_true, List.mem_range, beq_iff_eq] at hc
      exact hc.2 x hxy.1 y hxy.2
  · have hdirty := inside_own_edges dirty
    have hregion := Config.regionRects_inside dirty _ _ hdirty
    rw [Bool.eq_false_iff.mpr fun h => hxy (lt_edges_of_coveredBy hregion h),
      Bool.eq_false_iff.mpr fun h => hxy (lt_edges_of_coveredBy hdirty h)]

theorem State.coveredBy_regionRects (s : State) (x y : Nat) :
    coveredBy s.regionRects x y = coveredBy s.dirty x y := by
  unfold regionRects
  cases s.launch.identityRects with
  | false => exact Config.coveredBy_regionRects s.dirty x y
  | true => rfl

/-! ### A head ready to be drawn -/

/-- A mapped head in base state, in the invariant, with the surface `sf`. -/
structure State.Drawable (s : State) (sf : Surface) : Prop where
  inv : s.Inv
  mapped : s.mapped = true
  base : s.baseValid = true
  surface : s.surface = some sf

/-- Rasterizing leaves the head ready to be drawn. -/
theorem State.Drawable.rasterArea {s u : State} {sf : Surface} (hs : s.Drawable sf) {x0 y0 w h : Nat}
    (hd : s.rasterArea x0 y0 w h = .done () u) : u.Drawable sf ∧ s.RasterStep u := by
  have hinv := rasterClosed_inv.rasterArea s x0 y0 w h hs.inv
  have hstep := s.rasterClosed_step.rasterArea s x0 y0 w h (.refl s)
  rw [hd] at hinv hstep
  have hf := hstep.fields
  exact ⟨⟨hinv, by simp [hf, hs.mapped], by simp [hstep.baseValid, hs.base], by simp [hf, hs.surface]⟩, hstep⟩

theorem State.RasterStep.holdsRect {s u : State} (h : s.RasterStep u) {r : Rect} (hr : s.holdsRect r) :
    u.holdsRect r := by
  simpa [State.holdsRect, h.fields] using hr

theorem State.rasterRects_cons_done {s t : State} {r : Rect} {rs : List Rect}
    (h : s.rasterRects (r :: rs) = .done () t) :
    ∃ u, s.rasterArea r.x r.y r.w r.h = .done () u ∧ u.rasterRects rs = .done () t := by
  obtain ⟨_, u, hu, ht⟩ := Run.andThen_done _ _ _ _ h
  exact ⟨u, hu, ht⟩

theorem State.rasterRects_step {s t : State} {rs : List Rect} (h : s.rasterRects rs = .done () t) : s.RasterStep t := by
  have := s.rasterClosed_step.rasterRects rs s (.refl s)
  rwa [h] at this

/-! ### Pixels -/

/-- Pixel (x, y) shows the index of its surface word's colour, and that colour needs no insertion any more. -/
structure State.Drawn (s : State) (sf : Surface) (x y : Nat) : Prop where
  index : s.index x y = BitVec.ofNat 4 (s.assignIndex (s.surf sf x y)).1
  settled : s.palette.Settled s.launch.params (s.surf sf x y)

/-- A drawn pixel stays drawn while its bits stay (R160, R230). -/
theorem State.Drawn.step {s t : State} {sf : Surface} {x y : Nat} (h : s.Drawn sf x y) (hk : s.launch.params.Ok)
    (hstep : s.RasterStep t) (hkept : t.index x y = s.index x y) : t.Drawn sf x y where
  index := by
    have hgrows : (s.assignIndex (s.surf sf x y)).2.palette.Grows s.launch.params t.palette := by
      rw [s.assignIndex_of_settled _ hk h.settled]
      exact hstep.palette
    rw [hkept, h.index, hstep.surf, State.assignIndex_stable s t _ _ hk hstep.params ⟨rfl, rfl, rfl⟩ hgrows]
  settled := by
    rw [hstep.params, hstep.surf]
    exact h.settled.grows hstep.palette

/-- Two pixels of a head at one place of video memory are the same (R61). -/
theorem pixelPlace_inj {width stride x y x' y' : Nat} (hst : (width + 7) / 8 ≤ stride) (hx : x < width)
    (hx' : x' < width) (hoff : y * stride + x / 8 = y' * stride + x' / 8) (hbit : x % 8 = x' % 8) : x = x' ∧ y = y' := by
  obtain ⟨hbyte, hy⟩ := pixelKey_inj (width := stride) (by omega) (by omega) hoff
  exact ⟨by omega, hy⟩

theorem State.rasterRows_settled (s t : State) (sf : Surface) (x0 w : Nat) (ys : List Nat) (hk : s.launch.params.Ok)
    (h : s.rasterRows sf x0 w ys = .done () t) :
    ∀ x y, x0 ≤ x → x < x0 + w → y ∈ ys → t.palette.Settled s.launch.params (s.surf sf x y) := by
  induction ys generalizing s with
  | nil => exact fun x y _ _ hy => absurd hy List.not_mem_nil
  | cons y0 ys ih =>
    obtain ⟨_, u, hu, hrest⟩ := Run.andThen_done _ _ _ _ h
    have hstep := s.rasterStep_rasterRow u sf x0 w y0 hu
    intro x y hx hxw hy
    rcases List.mem_cons.mp hy with rfl | hy
    · exact (s.rasterRow_settled u sf x0 w y x hx hxw hk hu).grows
        (hstep.params ▸ (u.rasterStep_rasterRows t sf x0 w ys hrest).palette)
    · have := ih u (hstep.params ▸ hk) hrest x y hx hxw hy
      rwa [hstep.surf, hstep.params] at this

section
variable {s t u : State} {sf : Surface} {r : Rect} {rs : List Rect} {x y : Nat}

theorem State.Drawable.rasterArea_drawn (hs : s.Drawable sf) (hstd : s.launch.params.Standard) (hr : s.holdsRect r)
    (hd : s.rasterArea r.x r.y r.w r.h = .done () u) (hcov : r.covers x y = true) : u.Drawn sf x y := by
  have hstep := (hs.rasterArea hd).2
  have hk := hs.inv.params
  have hpixels := (s.rasterArea_pixelAt u sf _ _ _ _ hk hstd hs.inv.palette.size_le hs.inv.geometry hs.surface hd).1
  obtain ⟨hx, hxw, hy, hyh⟩ := (r.covers_iff x y).mp hcov
  have hrows := s.rasterArea_rows sf _ _ _ _ hs.mapped hs.base hr.1 hr.2 (by omega) (by omega) hs.surface
  rw [hd] at hrows
  refine ⟨?_, ?_⟩
  · rw [u.index_eq_pixelAt x y (by rw [hstep.params, hk.pixels]), hstep.surf, ← hpixels x y hx hxw hy hyh]
    simp [hstep.fields]
  · rw [hstep.params, hstep.surf]
    exact s.rasterRows_settled u sf _ _ _ hk hrows.symm x y hx hxw (List.mem_range'_1.mpr ⟨hy, hyh⟩)

/-- A rectangle leaves every other pixel of the head as it was (R232). -/
theorem State.Drawable.rasterArea_index_of_not_covers (hs : s.Drawable sf) (hstd : s.launch.params.Standard)
    (hr : s.holdsRect r) (hd : s.rasterArea r.x r.y r.w r.h = .done () u) (hx : x < s.width)
    (hcov : r.covers x y = false) : u.index x y = s.index x y := by
  have hstep := (hs.rasterArea hd).2
  have hk := hs.inv.params
  have hothers := (s.rasterArea_pixelAt u sf _ _ _ _ hk hstd hs.inv.palette.size_le hs.inv.geometry hs.surface hd).2
  have hrs : u.rowStride = s.rowStride := by simp [hstep.fields]
  rw [u.index_eq_pixelAt x y (by rw [hstep.params, hk.pixels]), s.index_eq_pixelAt x y hk.pixels, hrs]
  refine hothers _ _ (Nat.mod_lt _ (by decide)) fun x' y' h1 h2 h3 h4 ⟨hoff, hbit⟩ => ?_
  obtain ⟨rfl, rfl⟩ := pixelPlace_inj hs.inv.geometry.stride_ge hx (Nat.lt_of_lt_of_le h2 hr.1) hoff hbit
  rw [(r.covers_iff x y).mpr ⟨h1, h2, h3, h4⟩] at hcov
  cases hcov

theorem State.Drawable.rasterRects_index_of_not_coveredBy (hs : s.Drawable sf) (hstd : s.launch.params.Standard)
    (hr : ∀ r ∈ rs, s.holdsRect r) (hd : s.rasterRects rs = .done () t) (hx : x < s.width)
    (hcov : coveredBy rs x y = false) : t.index x y = s.index x y := by
  induction rs generalizing s with
  | nil => cases hd; rfl
  | cons r rs ih =>
    obtain ⟨u, hu, hrest⟩ := State.rasterRects_cons_done hd
    obtain ⟨hdraw, hstep⟩ := hs.rasterArea hu
    obtain ⟨hr0, hrs⟩ := List.forall_mem_cons.mp hr
    obtain ⟨hcov0, hcovs⟩ := Bool.or_eq_false_iff.mp hcov
    rw [ih hdraw (hstep.params ▸ hstd) (fun q hq => hstep.holdsRect (hrs q hq)) hrest (by simpa [hstep.fields] using hx)
      hcovs]
    exact hs.rasterArea_index_of_not_covers hstd hr0 hu hx hcov0

/-- Every pixel of the rectangles is drawn: by the last rectangle that covers it, which the later ones leave (R230). -/
theorem State.Drawable.rasterRects_drawn (hs : s.Drawable sf) (hstd : s.launch.params.Standard)
    (hr : ∀ r ∈ rs, s.holdsRect r) (hd : s.rasterRects rs = .done () t) (hcov : coveredBy rs x y = true) :
    t.Drawn sf x y := by
  induction rs generalizing s with
  | nil => cases hcov
  | cons r rs ih =>
    obtain ⟨u, hu, hrest⟩ := State.rasterRects_cons_done hd
    obtain ⟨hdraw, hstep⟩ := hs.rasterArea hu
    obtain ⟨hr0, hrs⟩ := List.forall_mem_cons.mp hr
    have hstd' := hstep.params ▸ hstd
    have hrs' : ∀ q ∈ rs, u.holdsRect q := fun q hq => hstep.holdsRect (hrs q hq)
    cases hlater : coveredBy rs x y with
    | true => exact ih hdraw hstd' hrs' hrest hlater
    | false =>
      have hcov0 : r.covers x y = true := by
        rcases Bool.or_eq_true_iff.mp hcov with h | h
        · exact h
        · exact absurd (hlater.symm.trans h) nofun
      have hx : x < u.width := by
        have := (r.covers_iff x y).mp hcov0
        have := (hstep.holdsRect hr0).1
        omega
      exact (hs.rasterArea_drawn hstd hr0 hu hcov0).step hdraw.inv.params (State.rasterRects_step hrest)
        (hdraw.rasterRects_index_of_not_coveredBy hstd' hrs' hrest hx hlater)

/-! ### Plane bytes -/

theorem State.Drawable.rasterRects_sameBytes (hs : s.Drawable sf) (hd : s.rasterRects rs = .done () t) :
    s.vga.sameBytesOutside t.vga fun off => ∃ x y, coveredBy rs x y = true ∧ off = y * s.rowStride + x / 8 := by
  intro p off hp hno
  induction rs generalizing s with
  | nil => cases hd; rfl
  | cons r rs ih =>
    obtain ⟨u, hu, hrest⟩ := State.rasterRects_cons_done hd
    obtain ⟨hdraw, hstep⟩ := hs.rasterArea hu
    have hstride : u.rowStride = s.rowStride := by simp [hstep.fields]
    rw [ih hdraw hrest fun ⟨x, y, hcov, hoff⟩ =>
      hno ⟨x, y, Bool.or_eq_true_iff.mpr (.inr hcov), by rw [hoff, hstride]⟩]
    refine s.rasterArea_planeByte u _ _ _ _ off p hs.inv.params hu hp fun x y h1 h2 h3 h4 hoff => hno ⟨x, y, ?_, hoff⟩
    exact Bool.or_eq_true_iff.mpr (.inl ((r.covers_iff x y).mpr ⟨h1, h2, h3, h4⟩))

end

/-! ### The DAC follows the palette -/

/-- The device is open and its DAC holds the palette's entries, `dac0` from palette_size on. -/
def State.DacFollows (dac0 : Vector (Option Slots) 16) (s : State) : Prop :=
  s.isOpen = true ∧ ∀ j : Fin 16, s.vga.dac[j] = if j.val < s.palette.size then some (s.palette.entry j.val) else dac0[j]

/-- A push over a DAC that agrees with `dac0` from palette_size on makes the DAC follow. -/
theorem State.setPalette_dacFollows (s : State) (dac0 : Vector (Option Slots) 16) (ho : s.isOpen = true)
    (hrest : ∀ j : Fin 16, s.palette.size ≤ j.val → s.vga.dac[j] = dac0[j]) : s.setPalette.DacFollows dac0 := by
  refine ⟨by simpa using ho, fun j => ?_⟩
  have hpush : s.setPalette.vga.dac[j] = if j.val < s.palette.size then some (s.palette.entry j.val) else s.vga.dac[j] :=
    s.setPalette_dac ho j.val j.isLt
  have hpalette : s.setPalette.palette = s.palette := by simp
  rw [hpush, hpalette]
  split
  · rfl
  · next hj => exact hrest j (by omega)

/-- Each insertion pushes, and nothing else of the rasterizer touches palette or DAC (R152, R156). -/
theorem rasterClosed_dacFollows (dac0 : Vector (Option Slots) 16) : RasterClosed (State.DacFollows dac0) where
  mask _ _ h := h
  assign s p h := by
    rcases s.assignIndex_state p with e | ⟨-, e⟩ <;> rw [e]
    · exact h
    · refine State.setPalette_dacFollows _ dac0 h.1 fun j hj => ?_
      have hj' : ¬ j.val < s.palette.size := Nat.not_lt.mpr (Nat.le_of_succ_le hj)
      exact (h.2 j).trans (if_neg hj')
  planar s off c m h _ _ _ := by simpa [State.DacFollows] using h

/-! ### A flush -/

/-- What FlushHead() of an active head does from `s` to `t` (R225 to R230): the opening events, the base state, the DAC
following the palette, every dirty pixel drawn, every other pixel and byte as before, and nothing dirty. -/
structure State.Flushed (s : State) (sf : Surface) (t : State) : Prop where
  head : s.sameHead t
  result : t.result = s.result
  active : t.active = s.active
  dirty : t.dirty = []
  base : t.baseValid = true
  palette : s.palette.extends t.palette
  trace : s.trace ++ s.flushOpening <+: t.trace
  dac : ∀ j : Fin 16, t.vga.dac[j] = if j.val < t.palette.size then some (t.palette.entry j.val) else s.vga.dac[j]
  drawn : s.launch.params.Standard → ∀ x y, coveredBy s.dirty x y = true →
    t.index x y = BitVec.ofNat 4 (t.assignIndex (s.surf sf x y)).1
  kept : s.launch.params.Standard → ∀ x y, x < s.width → coveredBy s.dirty x y = false → t.index x y = s.index x y
  bytes : s.vga.sameBytesOutside t.vga fun off => ∃ x y, coveredBy s.dirty x y = true ∧ off = y * s.rowStride + x / 8

theorem State.flushStart_drawable {s : State} {sf : Surface} (h : s.Inv) (hm : s.mapped = true)
    (hs : s.surface = some sf) : s.flushStart.Drawable sf where
  inv := s.flushStart_inv h
  mapped := by simp [s.flushStart_frame, hm]
  base := by simp [s.flushStart_registers]
  surface := by simp [s.flushStart_frame, hs]

theorem State.flushStart_planeByte (s : State) (p off : Nat) :
    s.flushStart.vga.planeByte p off = s.vga.planeByte p off :=
  Vga.planeByte_of_vram _ _ _ _ (by simp [s.flushStart_frame]) (by simp [s.flushStart_frame])

theorem State.flushStart_index (s : State) (x y : Nat) : s.flushStart.index x y = s.index x y := by
  simp [State.index, State.vramOffset, Vga.pixelAt, s.flushStart_planeByte, s.flushStart_frame]

theorem State.flushStart_dacFollows (s : State) (ho : s.isOpen = true) : s.flushStart.DacFollows s.vga.dac :=
  State.setPalette_dacFollows _ _ (by simpa using ho) fun j _ => by simp

/-- FlushHead() of an active mapped head in the invariant completes, and commits the dirty region (R225, R230). -/
theorem State.flushHead_commits (s : State) (sf : Surface) (h : s.Inv) (ha : s.active = true) (hm : s.mapped = true)
    (hs : s.surface = some sf) : ∃ t, s.flushHead = .done () t ∧ s.Flushed sf t := by
  obtain ⟨t, hdone, hrects, hstep⟩ := s.flushHead_done ha hm h
  have hstart := s.flushStart_frame
  have hf := hstep.fields
  have ho : s.isOpen = true := h.lifecycle.queried_open (h.lifecycle.mapped_queried hm)
  have hdraw := State.flushStart_drawable h hm hs
  have hr : ∀ r ∈ s.regionRects, s.flushStart.holdsRect r := fun r hmem => by
    simpa [State.holdsRect, hstart] using s.regionRects_inside h.dirty r hmem
  have hdac := (rasterClosed_dacFollows s.vga.dac).rasterRects s.regionRects _ (s.flushStart_dacFollows ho)
  rw [hrects] at hdac
  have hsurf (x y : Nat) : s.flushStart.surf sf x y = s.surf sf x y :=
    State.surf_congr _ _ _ _ _ (by simp [hstart]) (by simp [hstart])
  refine ⟨_, hdone, ?_⟩
  exact {
    head := by simp [State.sameHead, hf, hstart]
    result := by simp [hf, hstart]
    active := by simp [hf, hstart]
    dirty := rfl
    base := hstep.baseValid.trans hdraw.base
    palette := by
      have hgrows := hstep.palette
      simp only [hstart] at hgrows
      exact ⟨hgrows.size_le, hgrows.kept⟩
    trace := s.flushStart_trace ho ▸ hstep.trace
    dac := hdac.2
    drawn hstd x y hcov := by
      rw [← s.coveredBy_regionRects] at hcov
      have hindex := (hdraw.rasterRects_drawn (by simpa [hstart] using hstd) hr hrects hcov).index
      rw [hstep.surf, hsurf] at hindex
      exact hindex.trans (congrArg _ (State.assignIndex_congr _ _ _ rfl rfl))
    kept hstd x y hx hcov := by
      rw [← s.coveredBy_regionRects] at hcov
      exact (hdraw.rasterRects_index_of_not_coveredBy (by simpa [hstart] using hstd) hr hrects
        (by simpa [hstart] using hx) hcov).trans (s.flushStart_index x y)
    bytes p off hp hno := by
      refine (hdraw.rasterRects_sameBytes hrects p off hp ?_).trans (s.flushStart_planeByte p off)
      simpa [hstart, s.coveredBy_regionRects] using hno }

/-! ### Redrawing the whole head -/

/-- A redrawn head, seen from a state that agrees on what the redraw reads. -/
theorem State.HeadRedrawn.of_eq {s u t : State} {sf : Surface} (h : u.HeadRedrawn sf t)
    (hp : u.palette = s.palette := by rfl) (hv : u.vga = s.vga := by rfl) (ht : u.trace = s.trace := by rfl)
    (hw : u.width = s.width := by rfl) (hh : u.height = s.height := by rfl) (hr : u.rowStride = s.rowStride := by rfl)
    (hk : u.launch.params = s.launch.params := by rfl)
    (hi : u.launch.surfaceInit = s.launch.surfaceInit := by rfl) : s.HeadRedrawn sf t where
  active := h.active
  dirty := h.dirty
  base := h.base
  palette := hp ▸ h.palette
  pixels hstd x y hx hy := by
    rw [State.surf_congr u s sf x y hw.symm hi.symm]
    exact h.pixels (hk ▸ hstd) x y (hw ▸ hx) (hh ▸ hy)
  dac := hv ▸ h.dac
  bytes := by
    have hbytes := h.bytes
    rwa [hv, hw, hh, hr] at hbytes
  trace := by
    have htrace := h.trace
    unfold State.flushOpening at htrace ⊢
    rwa [ht, hp, hk] at htrace

/-- With the full area dirty, every pixel of the head is (R129). -/
theorem coveredBy_append_fullArea (s : State) (rs : List Rect) (x y : Nat) (hx : x < s.width) (hy : y < s.height) :
    coveredBy (rs ++ [s.fullArea]) x y = true :=
  (coveredBy_iff ..).mpr ⟨s.fullArea, by simp, by simp [Rect.covers_iff, State.fullArea, hx, hy]⟩

theorem State.addFullArea_inv (s : State) (h : s.Inv) (hm : s.mapped = true) :
    ({ s with active := true, dirty := s.dirty ++ [s.fullArea] } : State).Inv :=
  (s.addDirty_inv s.fullArea h (h.lifecycle.mapped_queried hm) (by simp [State.holdsRect, State.fullArea])).of_view

/-- Activate() of a mapped head in the invariant is a flush whose dirty region is the whole head (R129). -/
theorem State.activateHead_redraws (s : State) (sf : Surface) (h : s.Inv) (hm : s.mapped = true)
    (hs : s.surface = some sf) :
    ∃ t, s.activateHead = .done () t ∧ t.result = s.result ∧ s.sameHead t ∧ s.HeadRedrawn sf t := by
  have hactivate : s.activateHead = State.flushHead { s with active := true, dirty := s.dirty ++ [s.fullArea] } := by
    simp [State.activateHead, hm]
  have hinv := s.addFullArea_inv h hm
  obtain ⟨t, hdone, hfl⟩ := State.flushHead_commits _ sf hinv rfl hm hs
  refine ⟨t, hactivate.trans hdone, hfl.result, hfl.head, ?_⟩
  exact {
    active := hfl.active
    dirty := hfl.dirty
    base := hfl.base
    palette := hfl.palette
    pixels := fun hstd x y hx hy => hfl.drawn hstd x y (coveredBy_append_fullArea s s.dirty x y hx hy)
    dac := hfl.dac
    bytes := fun p off hp hno => hfl.bytes p off hp fun ⟨x, y, hcov, hoff⟩ => by
      obtain ⟨hx, hy⟩ := lt_edges_of_coveredBy hinv.dirty.inside hcov
      exact hno ⟨x, y, hx, hy, hoff⟩
    trace := hfl.trace }

/-- Settles O33: ACTIVATE is Activate(), run from RESULT 0. -/
theorem activateRedrawsTheHead : Obligations.ActivateRedrawsTheHead := by
  refine ⟨fun s hm => exec_raised .activate s _ _ (State.activateHead_raises _ hm), fun s sf h hm hs => ?_⟩
  obtain ⟨t, hdone, hresult, hhead, hdrawn⟩ := State.activateHead_redraws { s with result := 0 } sf h.of_view hm hs
  exact ⟨t, exec_done .activate s t hdone, hresult, hhead, hdrawn.of_eq⟩

/-- Settles O30: MAP sets `mapped` and RESULT, which keeps the invariant, and then runs Activate(). -/
theorem mapWithFocusActivates : Obligations.MapWithFocusActivates := by
  intro s sf h hm ha hv hs
  have hq : s.queried = true := by rw [← h.lifecycle.surface_iff, hs]; rfl
  have hmap := State.mapDevice_of_granted { s with result := 0 } hq hm ha
  rw [show ({ s with result := 0 } : State).afterMapDraw.vtAnswer = true from hv, cond_true] at hmap
  have hinv : (State.mappedHead { s with result := 0 }).afterVtDraw.Inv := (s.setMapped_inv true h fun _ => hq).of_view
  obtain ⟨t, hdone, hresult, hhead, hdrawn⟩ := State.activateHead_redraws _ sf hinv rfl hs
  exact ⟨t, exec_done .mapDevice s t (hmap.trans hdone), hresult, hhead, hdrawn.of_eq⟩

end Sys2Proof.Machine
end

section
/-! SUPPORT. The palette manager's search written as R151's comparison, one equation per way AssignIndex and the push end,
and the statements about the palette and its three commands (42_palette.md R150 to R164). -/

namespace Sys2Proof.Machine

/-! ### The push (R156) -/

theorem State.setPalette_of_idle (s : State) (h : s.isOpen = false ∨ s.palette.size = 0) : s.setPalette = s := by
  rcases h with h | h <;> simp [setPalette, h]

theorem State.setPalette_of_open (s : State) (ho : s.isOpen = true) (hz : s.palette.size ≠ 0) :
    s.setPalette = { s with
      vga := { s.vga with dac := s.setPalette.vga.dac }
      trace := s.trace ++ [.palLoad s.palette.size s.palette.entries] } := by
  rw [setPalette, ho, beq_eq_false_iff_ne.mpr hz]
  rfl

/-- A push touches the DAC and the trace only. -/
theorem State.setPalette_eq (s : State) :
    s.setPalette = { s with vga := { s.vga with dac := s.setPalette.vga.dac }, trace := s.setPalette.trace } := by
  by_cases h : s.isOpen = false ∨ s.palette.size = 0
  · rw [s.setPalette_of_idle h]
  · rw [s.setPalette_of_open (by simpa using fun ho => h (.inl ho)) fun hz => h (.inr hz)]

/-! ### The insertion with its push (R152, R156) -/

theorem State.insertColor_eq (s : State) (p : Pixel) :
    s.insertColor p = { s with
      palette := s.palette.insert s.launch.params p
      vga := { s.vga with dac := (s.insertColor p).vga.dac }
      trace := (s.insertColor p).trace } :=
  State.setPalette_eq { s with palette := s.palette.insert s.launch.params p }

theorem State.insertColor_of_closed (s : State) (p : Pixel) (h : s.isOpen = false) :
    s.insertColor p = { s with palette := s.palette.insert s.launch.params p } :=
  State.setPalette_of_idle _ (.inl h)

theorem State.insertColor_of_open (s : State) (p : Pixel) (ho : s.isOpen = true) :
    s.insertColor p = { s with
      palette := s.palette.insert s.launch.params p
      vga := { s.vga with dac := (s.insertColor p).vga.dac }
      trace := s.trace ++
        [.palLoad (s.palette.insert s.launch.params p).size (s.palette.insert s.launch.params p).entries] } :=
  State.setPalette_of_open { s with palette := s.palette.insert s.launch.params p } ho (Nat.succ_ne_zero _)

theorem State.insertColor_dac (s : State) (p : Pixel) (ho : s.isOpen = true) (j : Nat) (hj : j < 16) :
    (s.insertColor p).vga.dac[j] = if j < (s.palette.insert s.launch.params p).size
      then some ((s.palette.insert s.launch.params p).entry j) else s.vga.dac[j] :=
  State.setPalette_dac { s with palette := s.palette.insert s.launch.params p } ho j hj

/-! ### PAL_PUSH and PAL_READ -/

/-- Settles O45: the push is nothing in the one case, and in the other loads every entry from 0. -/
theorem palPushCompletes : Obligations.PalPushCompletes := by
  refine ⟨by decide, fun s => ⟨fun hidle => ?_, fun ho hz =>
    ⟨(State.setPalette { s with result := 0 }).vga.dac, ?_, fun j => ?_⟩⟩⟩
  · exact exec_done .palPush s _ (congrArg (Run.done ()) (State.setPalette_of_idle _ hidle))
  · exact exec_done .palPush s _ (congrArg (Run.done ()) (State.setPalette_of_open _ ho hz))
  · exact State.setPalette_dac { s with result := 0 } ho j.val j.isLt

/-- Settles O46: the word decodes at each of the 16 indices, and RESULT is a concatenation. -/
theorem palReadCompletes : Obligations.PalReadCompletes := by
  refine ⟨by decide, fun s i => ⟨_, exec_done (.palRead i) s _ rfl, ?_⟩⟩
  simp only [toNat_append_eq_add, BitVec.toNat_ofNat]
  omega

/-! ### The search (R151, R153) -/

theorem Palette.entryMatches_eq_false_iff (k : Params) (P : Palette) (i : Nat) (p : Pixel) (sh : Nat) :
    P.entryMatches k i p sh = false ↔ ¬ (P.entry i).agrees k p sh := by
  rw [← entryMatches_iff, Bool.not_eq_true]

/-- The first entry that agrees is the one found. -/
theorem Palette.firstMatch_eq_some_iff_agrees (k : Params) (P : Palette) (p : Pixel) (sh i : Nat) :
    P.firstMatch k p sh = some i ↔
      i < P.size ∧ (P.entry i).agrees k p sh ∧ ∀ j < i, ¬ (P.entry j).agrees k p sh := by
  simp only [firstMatch_eq_some, entryMatches_iff, entryMatches_eq_false_iff]

theorem Palette.firstMatch_eq_none_iff_agrees (k : Params) (P : Palette) (p : Pixel) (sh : Nat) :
    P.firstMatch k p sh = none ↔ ∀ j < P.size, ¬ (P.entry j).agrees k p sh := by
  simp only [firstMatch_eq_none, entryMatches_eq_false_iff]

/-- Agreement in the bits from `sh` up is agreement in those from any greater shift up. -/
theorem Slots.agrees.mono {k : Params} {e : Slots} {p : Pixel} {sh sh' : Nat} (h : e.agrees k p sh) (hle : sh ≤ sh') :
    e.agrees k p sh' := by
  obtain ⟨d, rfl⟩ := Nat.exists_eq_add_of_le hle
  obtain ⟨hr, hg, hb⟩ := h
  simp only [agrees, Nat.shiftRight_add _ sh d, hr, hg, hb, and_self]

/-! ### The looser passes of a full palette (R155) -/

theorem mem_looserShifts (k : Params) (sh : Nat) :
    sh ∈ List.range' (k.shiftFirst + 1) (k.shiftLast - k.shiftFirst) ↔ k.shiftFirst < sh ∧ sh ≤ k.shiftLast := by
  rw [List.mem_range'_1]
  omega

/-- The passes end at the first shift that finds an entry. -/
theorem Palette.passes_append_cons (k : Params) (P : Palette) (p : Pixel) (tighter looser : List Nat) (sh i : Nat)
    (hbefore : ∀ sh' ∈ tighter, P.firstMatch k p sh' = none) (hsh : P.firstMatch k p sh = some i) :
    P.passes k p (tighter ++ sh :: looser) = i := by
  simp [passes, List.findSome?_append, List.findSome?_eq_none_iff.mpr hbefore, hsh]

theorem Palette.looser_of_match (k : Params) (P : Palette) (p : Pixel) (sh i : Nat) (hfirst : k.shiftFirst < sh)
    (hlast : sh ≤ k.shiftLast) (hsh : P.firstMatch k p sh = some i)
    (hbefore : ∀ sh', k.shiftFirst < sh' → sh' < sh → P.firstMatch k p sh' = none) : P.looser k p = i := by
  obtain ⟨d, rfl⟩ := Nat.exists_eq_add_of_le hfirst
  have hsplit : List.range' (k.shiftFirst + 1) (k.shiftLast - k.shiftFirst) =
      List.range' (k.shiftFirst + 1) d ++
        (k.shiftFirst + 1 + d) :: List.range' (k.shiftFirst + 1 + d + 1) (k.shiftLast - (k.shiftFirst + 1 + d)) := by
    rw [← List.range'_succ, List.range'_append_1]
    congr 1
    omega
  rw [looser, hsplit]
  refine P.passes_append_cons k p _ _ _ i (fun sh' hmem => ?_) hsh
  rw [List.mem_range'_1] at hmem
  exact hbefore sh' (by omega) (by omega)

theorem Palette.looser_of_none (k : Params) (P : Palette) (p : Pixel)
    (h : ∀ sh, k.shiftFirst < sh → sh ≤ k.shiftLast → P.firstMatch k p sh = none) : P.looser k p = P.size - 1 := by
  have hnone : ∀ sh ∈ List.range' (k.shiftFirst + 1) (k.shiftLast - k.shiftFirst), P.firstMatch k p sh = none :=
    fun sh hmem => h sh ((mem_looserShifts k sh).mp hmem).1 ((mem_looserShifts k sh).mp hmem).2
  rw [looser, passes, List.findSome?_eq_none_iff.mpr hnone, Option.getD_none]

/-- The looser passes give what one of them finds, or, none finding any, the last entry. -/
theorem Palette.looser_cases (k : Params) (P : Palette) (p : Pixel) :
    (∃ sh, k.shiftFirst < sh ∧ sh ≤ k.shiftLast ∧ P.firstMatch k p sh = some (P.looser k p)) ∨
    (P.looser k p = P.size - 1 ∧ ∀ sh, k.shiftFirst < sh → sh ≤ k.shiftLast → P.firstMatch k p sh = none) := by
  by_cases h : ∀ sh, k.shiftFirst < sh → sh ≤ k.shiftLast → P.firstMatch k p sh = none
  · exact .inr ⟨P.looser_of_none k p h, h⟩
  · left
    unfold looser passes
    cases hf : (List.range' (k.shiftFirst + 1) (k.shiftLast - k.shiftFirst)).findSome? fun sh => P.firstMatch k p sh with
    | none =>
      exact absurd (fun sh h1 h2 => List.findSome?_eq_none_iff.mp hf sh ((mem_looserShifts k sh).mpr ⟨h1, h2⟩)) h
    | some i =>
      obtain ⟨sh, hmem, hi⟩ := List.exists_of_findSome?_eq_some hf
      obtain ⟨h1, h2⟩ := (mem_looserShifts k sh).mp hmem
      exact ⟨sh, h1, h2, hi⟩

/-! ### AssignIndex and PAL_ASSIGN -/

theorem State.assignIndex_of_room (s : State) (p : Pixel) (hk : s.launch.params.Ok)
    (hn : s.palette.firstMatch s.launch.params p s.launch.params.shiftFirst = none)
    (hlt : s.palette.size < s.launch.params.paletteCapacity) : s.assignIndex p = (s.palette.size, s.insertColor p) := by
  rcases s.assignIndex_cases p hk with ⟨i, hi, -⟩ | ⟨-, -, e⟩ | ⟨-, hge, -⟩
  · rw [hn] at hi
    cases hi
  · exact e
  · omega

theorem State.assignIndex_of_full (s : State) (p : Pixel) (hk : s.launch.params.Ok)
    (hn : s.palette.firstMatch s.launch.params p s.launch.params.shiftFirst = none)
    (hge : s.launch.params.paletteCapacity ≤ s.palette.size) :
    s.assignIndex p = (s.palette.looser s.launch.params p, s) := by
  rcases s.assignIndex_cases p hk with ⟨i, hi, -⟩ | ⟨-, hlt, -⟩ | ⟨-, -, e⟩
  · rw [hn] at hi
    cases hi
  · omega
  · exact e

/-- PAL_ASSIGN of a colour that needs no insertion changes nothing but RESULT. -/
theorem exec_palAssign_of_found (s : State) (p : Pixel) (i : Nat)
    (h : State.assignIndex { s with result := 0 } p = (i, { s with result := 0 })) :
    exec (.palAssign p) s = .next { s with result := BitVec.ofNat 64 i } :=
  exec_done (.palAssign p) s _ (by simp only [commandRule, State.palAssign, h])

/-- Settles O40: the first entry that agrees is what the first pass finds. -/
theorem palAssignFindsTheFirstMatch : Obligations.PalAssignFindsTheFirstMatch := by
  rintro s k p i rfl hk hi hagrees hfirst
  have hfound := (s.palette.firstMatch_eq_some_iff_agrees _ p _ i).mpr ⟨hi, hagrees, hfirst⟩
  exact exec_palAssign_of_found s p i (State.assignIndex_of_match { s with result := 0 } p i hk hfound)

/-- Settles O41: the insertion writes one entry of the mirror, and the push that follows it the DAC and the trace. -/
theorem palAssignInserts : Obligations.PalAssignInserts := by
  rintro s k p rfl hk hroom hno
  have hnone := (s.palette.firstMatch_eq_none_iff_agrees _ p _).mpr hno
  have hassign := State.assignIndex_of_room { s with result := 0 } p hk hnone hroom
  have hself := Palette.entry_insert_self s.launch.params s.palette p (Nat.lt_of_lt_of_le hroom (capacity_le_16 hk))
  have hexec : exec (.palAssign p) s = .next { State.insertColor { s with result := 0 } p with
      result := BitVec.ofNat 64 s.palette.size } :=
    exec_done (.palAssign p) s _ (by simp only [commandRule, State.palAssign, hassign])
  refine ⟨_, hexec, ?_⟩
  simp only [State.insertColor_palette, hself, slotOf_toNat hk, Palette.size_insert, true_and]
  refine ⟨?_, fun j hj => Palette.entry_insert_of_ne _ _ p j hj, fun hclosed => ?_, fun ho => ⟨?_, fun j => ?_⟩⟩
  · rw [State.insertColor_eq]
  · rw [State.insertColor_of_closed { s with result := 0 } p hclosed]
    exact ⟨rfl, rfl⟩
  · rw [State.insertColor_of_open { s with result := 0 } p ho]
    rfl
  · exact State.insertColor_dac { s with result := 0 } p ho j.val j.isLt

/-- Settles O42: no entry found at SHIFT_FIRST and no room leave the looser passes. -/
theorem palAssignOnAFullPalette : Obligations.PalAssignOnAFullPalette := by
  rintro s k p rfl hk hfull hno
  rw [← hfull] at hno ⊢
  have hassign := State.assignIndex_of_full { s with result := 0 } p hk
    ((s.palette.firstMatch_eq_none_iff_agrees _ p _).mpr hno) hfull.ge
  refine ⟨fun sh i h1 h2 hi hagrees hfirst hbefore => ?_, fun hnone => ?_⟩
  · have hloose := s.palette.looser_of_match _ p sh i h1 h2
      ((s.palette.firstMatch_eq_some_iff_agrees _ p sh i).mpr ⟨hi, hagrees, hfirst⟩)
      fun sh' h1' h2' => (s.palette.firstMatch_eq_none_iff_agrees _ p sh').mpr (hbefore sh' h1' h2')
    exact exec_palAssign_of_found s p i (hassign.trans (by rw [hloose]))
  · have hloose := s.palette.looser_of_none _ p
      fun sh h1 h2 => (s.palette.firstMatch_eq_none_iff_agrees _ p sh).mpr (hnone sh h1 h2)
    exact exec_palAssign_of_found s p _ (hassign.trans (by rw [hloose]))

/-- Settles O43: a palette that only had entries appended has grown, and indices are stable while it grows. -/
theorem assignedIndexIsStable : Obligations.AssignedIndexIsStable := by
  intro s u p q hk hparams _ hext hu hsame
  exact s.assignIndex_stable u p q hk hparams hsame (.of_extends hext hu)

/-- The entry of the index AssignIndex gives (R161): it agrees at SHIFT_FIRST, and is the exact colour if inserted; it
agrees at a looser shift, the palette being full; or no entry agrees at any shift, and it is the last of a full palette. -/
theorem State.assignIndex_entry (s : State) (p : Pixel) (hk : s.launch.params.Ok) :
    let k := s.launch.params
    let r := s.assignIndex p
    let e := r.2.palette.entry r.1
    (e.agrees k p k.shiftFirst ∧ (r.1 = s.palette.size →
      e = { red := slotOf k (redOf p), green := slotOf k (greenOf p), blue := slotOf k (blueOf p) })) ∨
    (k.paletteCapacity ≤ s.palette.size ∧ r.1 < s.palette.size ∧
      ((∃ sh, k.shiftFirst < sh ∧ sh ≤ k.shiftLast ∧ e.agrees k p sh) ∨
        (r.1 = s.palette.size - 1 ∧ r.2 = s ∧
          ∀ sh, k.shiftFirst ≤ sh → sh ≤ k.shiftLast → ∀ j < s.palette.size, ¬ (s.palette.entry j).agrees k p sh))) := by
  intro k r e
  rcases s.assignIndex_cases p hk with ⟨i, hi, heq⟩ | ⟨-, hroom, heq⟩ | ⟨hn, hfull, heq⟩
  · obtain ⟨hlt, hagrees, -⟩ := (s.palette.firstMatch_eq_some_iff_agrees k p _ i).mp hi
    refine .inl ?_
    simp only [e, r, heq]
    exact ⟨hagrees, fun h => absurd h hlt.ne⟩
  · have h16 := Nat.lt_of_lt_of_le hroom (capacity_le_16 hk)
    have hself := s.palette.entry_insert_self k p h16
    refine .inl ?_
    simp only [e, r, heq, insertColor_palette]
    exact ⟨(Palette.entryMatches_iff k _ _ p _).mp (s.palette.entryMatches_insert_self hk p _ h16), fun _ => hself⟩
  · have hpos := hk.capacity_pos
    refine .inr ⟨hfull, ?_, ?_⟩
    · simp only [r, heq]
      exact s.palette.passes_lt k p _ (by omega)
    · simp only [e, r, heq]
      rcases s.palette.looser_cases k p with ⟨sh, h1, h2, hi⟩ | ⟨hlast, hnone⟩
      · exact .inl ⟨sh, h1, h2, ((s.palette.firstMatch_eq_some_iff_agrees k p sh _).mp hi).2.1⟩
      · refine .inr ⟨hlast, trivial, fun sh h1 h2 => (s.palette.firstMatch_eq_none_iff_agrees k p sh).mp ?_⟩
        rcases Nat.eq_or_lt_of_le h1 with rfl | hlt
        · exact hn
        · exact hnone sh hlt h2

/-- Settles O44: the three ways of the entry, at any parameters; at the defaults the passes are 6 and 7, and agreement at
6 is agreement at 7. -/
theorem assignedEntryReproducesTopBits : Obligations.AssignedEntryReproducesTopBits := by
  rintro s k p rfl hk hle
  have hcases := s.assignIndex_entry p hk
  dsimp only at hcases ⊢
  have hshifts := hk.shifts
  refine ⟨fun hroom => ?_, ?_, fun hsize => ?_, fun hdefault => ⟨fun hroom => ?_, fun hfull => ?_⟩⟩
  · rcases hcases with ⟨hfirst, -⟩ | ⟨hfull, -⟩
    · exact hfirst
    · omega
  · rcases hcases with ⟨hfirst, -⟩ | ⟨hfull, -, ⟨sh, h1, h2, hsh⟩ | ⟨hlast, hsame, hnone⟩⟩
    · exact .inl ⟨_, Nat.le_refl _, hshifts, hfirst⟩
    · exact .inl ⟨sh, h1.le, h2, hsh⟩
    · have hsize : s.palette.size = s.launch.params.paletteCapacity := Nat.le_antisymm hle hfull
      exact .inr ⟨hsize, hsize ▸ hlast, hsame, hsize ▸ hnone⟩
  · rcases hcases with ⟨-, hexact⟩ | ⟨-, hlt, -⟩
    · simp only [hexact hsize, slotOf_channel hk, and_self]
    · omega
  · rw [hdefault] at hcases
    rcases hcases with ⟨hfirst, -⟩ | ⟨hfull, -⟩
    · exact hfirst
    · exact absurd hroom (Nat.not_lt.mpr hfull)
  · rw [hdefault] at hcases
    rcases hcases with ⟨hfirst, -⟩ | ⟨-, -, ⟨sh, -, h2, hsh⟩ | ⟨hlast, -, hnone⟩⟩
    · exact .inl (hfirst.mono (by decide : 6 ≤ 7))
    · exact .inl (hsh.mono h2)
    · rw [hfull] at hlast hnone
      exact .inr ⟨hlast, hnone 7 (by decide) (by decide)⟩

/-! ### What shrinks the palette (R162, R126) -/

theorem exec_query_palette {w ht stride type aux visual bpp : Nat} {s t : State}
    (h : exec (.query w ht stride type aux visual bpp) s = .next t) :
    t.palette = s.palette ∨ (t.palette = Palette.empty ∧ s.queried = false ∧ t.queried = true) := by
  refine exec_ends (P := fun u => u.palette = s.palette ∨
    (u.palette = Palette.empty ∧ s.queried = false ∧ u.queried = true)) h ?_ fun _ _ _ hu => hu
  rcases State.queryDevice_cases { s with result := 0 } w ht stride type aux visual bpp with
    ⟨-, e⟩ | ⟨-, -, -, e⟩ | ⟨-, -, -, -, e⟩ | ⟨-, hq, -, -, e⟩ <;> simp only [commandRule, e]
  · exact .inl rfl
  · exact .inl rfl
  · exact .inl rfl
  · exact .inr ⟨rfl, hq, rfl⟩

/-- Of the commands only a QUERY that sets up the head shrinks the palette. -/
theorem exec_shrinks_palette {i : Instr} {s t : State} (h : exec i s = .next t) (hlt : t.palette.size < s.palette.size) :
    i.opcode = .query ∧ t.palette = Palette.empty ∧ s.queried = false ∧ t.queried = true := by
  by_cases hq : i.opcode = .query
  · refine ⟨hq, ?_⟩
    cases i with
    | query w ht stride type aux visual bpp =>
      rcases exec_query_palette h with hsame | hreset
      · rw [hsame] at hlt
        exact absurd hlt (Nat.lt_irrefl _)
      · exact hreset
    | _ => cases hq
  · have hgrows := (paletteEntriesAreNeverReordered i s t hq h).1.1
    omega

/-- Settles O18: of the ways a step can go, power-on starts from the empty palette, a command shrinks it only as a QUERY
that sets up the head, and the rest leave it. -/
theorem paletteShrinksOnlyAtQuery : Obligations.PaletteShrinksOnlyAtQuery := by
  intro s t hst hlt
  rcases step_cases s t hst with ⟨-, rfl⟩ | ⟨rest, ⟨w, hi, hw⟩ | ⟨-, rfl⟩ | ⟨p, off, b, -, -, -, rfl⟩ |
    ⟨r, -, -, rfl⟩ | ⟨k, -, -, rfl⟩ | ⟨hi, rfl⟩⟩
  · exact absurd hlt (Nat.lt_irrefl _)
  · rcases hw with ⟨-, rfl⟩ | ⟨-, -, rfl⟩ | ⟨-, i, hd, hx⟩
    · exact absurd hlt (Nat.lt_irrefl _)
    · exact absurd hlt (Nat.lt_irrefl _)
    · obtain ⟨hop, hempty, hbefore, hafter⟩ := exec_shrinks_palette hx hlt
      have hcode : opField w = 0x03 := by rw [(decode_ok w i hd).1, hop]; rfl
      exact ⟨hempty, rest, .inr ⟨w, hi, hcode, hbefore, hafter⟩⟩
  · exact absurd hlt (Nat.lt_irrefl _)
  · exact absurd hlt (Nat.lt_irrefl _)
  · exact absurd hlt (Nat.lt_irrefl _)
  · exact absurd hlt (Nat.lt_irrefl _)
  · exact ⟨rfl, rest, .inl hi⟩

end Sys2Proof.Machine
end

section
/-! SUPPORT. How PW_BASE's and PW_WRITE's rules go under their checks' conditions, one equation per case, what the planar
engine leaves of the registers, latches and planes, and the statements about both (43_planar_write.md R180 to R186). -/

namespace Sys2Proof.Machine

/-! ### The rules' equations (R180 to R183, R255) -/

theorem State.writeBase_eq (s : State) :
    s.writeBase = { s with
      vga := { s.vga with
        esr := some s.launch.params.baseEsr, mode := some s.launch.params.baseMode,
        rot := some s.launch.params.baseRotate, mapMask := some s.launch.params.baseMapMask }
      trace := s.trace ++ [.regWrite .esr s.launch.params.baseEsr, .regWrite .mode s.launch.params.baseMode,
        .regWrite .rot s.launch.params.baseRotate, .regWrite .mapMask s.launch.params.baseMapMask] } := by
  rw [← writeBase_vga, ← writeBase_trace]
  rfl

theorem State.pwBase_raises (s : State) (h : s.mapped = false) : s.pwBase = .raised .unmapped s := by
  simp [pwBase, h]

theorem State.pwBase_done (s : State) (h : s.mapped = true) : s.pwBase = .done () s.writeBase := by
  simp [pwBase, h]

/-- A planar write that completes leaves its effects and nothing more. -/
theorem State.planarWrite_done_inv {s t : State} {off : Nat} {c : BitVec 4} {m : Byte}
    (h : s.planarWrite off c m = .done () t) : t = s.planarEffects off c m := by
  rcases s.planarWrite_cases off c m with ⟨-, e⟩ | ⟨-, -, e⟩ | ⟨-, -, -, e⟩ | ⟨-, -, -, -, e⟩ | ⟨-, -, -, -, e⟩ <;>
    cases e.symm.trans h
  rfl

section
variable (s : State) (off : Nat) (c : BitVec 4) (m : Byte)

theorem State.planarWrite_raises_unmapped (h : s.mapped = false) : s.planarWrite off c m = .raised .unmapped s := by
  simp [planarWrite, h]

theorem State.planarWrite_raises_baseState (hm : s.mapped = true) (hb : s.baseValid = false) :
    s.planarWrite off c m = .raised .baseState s := by
  simp [planarWrite, hm, hb]

theorem State.planarWrite_raises_outOfMap (hm : s.mapped = true) (hb : s.baseValid = true) (hs : s.size ≤ off) :
    s.planarWrite off c m = .raised .outOfMap s := by
  simp [planarWrite, hm, hb, Nat.ble_eq.mpr hs]

/-! ### What a planar write leaves (R64, R66) -/

/-- The latches hold the byte's old planes: the read comes before the write. -/
theorem State.planarEffects_latch (k : Fin 4) :
    (s.planarEffects off c m).vga.latch[k] = some (s.vga.planeByte k.val off) := by
  have hlatch : (s.planarEffects off c m).vga.latch = (s.vga.loadLatches off).latch := rfl
  rw [hlatch]
  match k with
  | 0 | 1 | 2 | 3 => rfl

theorem State.planarEffects_sameBytesOutside :
    s.vga.sameBytesOutside (s.planarEffects off c m).vga (fun off' => off' = off) :=
  fun p off' hp hne => s.planarEffects_planeByte_ne off off' p c m hp hne

/-- The block's own state is no part of a planar write (R182). -/
theorem State.planarEffects_sameBlock : s.sameBlock (s.planarEffects off c m) := by
  simp [sameBlock]

end

/-! ### STATUS shows base_valid (R24) -/

theorem State.status_bit_baseValid (s : State) : s.status.getLsbD 4 = s.baseValid := by
  simp only [status, BitVec.getLsbD_append]
  simp

/-! ### The statements -/

/-- Settles O48: inside the mapping every check passes, and the effects are those of R182. -/
theorem pwWriteCompletes : Obligations.PwWriteCompletes := by
  intro s color mask offset hm hb hs hsize
  have hrule := State.planarWrite_done { s with result := 0 } offset color mask hm hb hs (Nat.lt_of_lt_of_le hs hsize)
  obtain ⟨d, hor, htrace⟩ := State.planarEffects_trace { s with result := 0 } offset color mask
  obtain ⟨hsr, hbm, hesr, hmode, hrot, hmapMask, hdac, -⟩ :=
    State.planarEffects_registers { s with result := 0 } offset color mask
  simp only [BitVec.ofNat_toNat]
  refine ⟨_, d, exec_done (.pwWrite color mask offset) s _ hrule, State.planarEffects_sameBlock _ offset color mask,
    by simp, by simp, fun hstd k _ => ?_, State.planarEffects_sameBytesOutside _ offset color mask, hsr, hbm,
    State.planarEffects_latch _ offset color mask, hesr, hmode, hrot, hmapMask, hdac, hor, htrace⟩
  simpa using State.planarEffects_pixelAt { s with result := 0 } offset offset k color mask hstd.base

/-- Settles O50: at the written offset each plane's byte is made of the colour, the mask and the old byte, and elsewhere
it is the old byte; no read data stands in either. -/
theorem planarWriteIgnoresReadData : Obligations.PlanarWriteIgnoresReadData := by
  intro s t s' t' color mask offset hstd htstd hvram htag hs' ht' p off hp _
  have hold : ∀ off, t.vga.planeByte p off = s.vga.planeByte p off :=
    fun off => Vga.planeByte_of_vram s.vga t.vga p off hvram.symm htag.symm
  rw [State.planarWrite_done_inv hs', State.planarWrite_done_inv ht',
    s.planarEffects_planeByte offset off p color mask hstd.base hp,
    t.planarEffects_planeByte offset off p color mask htstd.base hp, planarByte, planarByte, hold, hold]

/-- Settles O51, by induction on the writes: where a later write selects the pixel, the first does not matter; where none
does, the pixel is what the first write left. -/
theorem planarWritesCompose : Obligations.PlanarWritesCompose := by
  intro s offset k writes hstd _
  induction writes generalizing s with
  | nil => rfl
  | cons w later ih =>
    have hfirst := s.planarEffects_pixelAt offset offset k w.1 w.2 hstd.base
    have hlater := ih (s.planarEffects offset w.1 w.2) (by simpa using hstd)
    rw [List.foldl_cons, hlater, hfirst, List.reverse_cons, List.find?_append]
    cases later.reverse.find? (fun w => w.2.getLsbD (7 - k)) with
    | some v => rfl
    | none => cases hsel : w.2.getLsbD (7 - k) <;> simp [hsel]

/-- Settles O47: mapped, the rule is WriteBase, which leaves base_valid 1; unmapped, it raises. -/
theorem pwBaseCompletes : Obligations.PwBaseCompletes := by
  refine ⟨by decide, ?_⟩
  rintro s k rfl
  refine ⟨fun hm => ⟨_, exec_done .pwBase s _ (State.pwBase_done _ hm), State.writeBase_eq _, ?_, ?_⟩, fun hm =>
    exec_raised .pwBase s _ _ (State.pwBase_raises _ hm)⟩
  · exact State.baseValid_writeBase _
  · rw [State.status_bit_baseValid, State.baseValid_writeBase]

/-- Settles O49: the checks in order, each raising with nothing done but RESULT <- 0. -/
theorem pwWriteFaults : Obligations.PwWriteFaults := by
  intro s color mask offset
  refine ⟨fun hm => ?_, fun hm hb => ?_, fun hm hb hs => ?_⟩
  · exact exec_raised (.pwWrite ..) s _ _ (State.planarWrite_raises_unmapped _ offset color mask hm)
  · exact exec_raised (.pwWrite ..) s _ _ (State.planarWrite_raises_baseState _ offset color mask hm hb)
  · exact exec_raised (.pwWrite ..) s _ _ (State.planarWrite_raises_outOfMap _ offset color mask hm hb hs)

end Sys2Proof.Machine
end

section
/-! SUPPORT. How the surface and dirty-region rules go under their checks' conditions, one equation per case, and the
statements about PIX_WRITE, PIX_READ, DIRTY_ADD, DIRTY_CLEAR and REGION_RECTS (44_surface_region.md R200 to R205). -/

namespace Sys2Proof.Machine

/-! ### The rules' equations -/

theorem State.withPixel_raises_sequence (s : State) (x y : Nat) (rule : Surface → State) (h : s.queried = false) :
    s.withPixel x y rule = .raised .sequence s := by
  simp [withPixel, h]

theorem State.withPixel_raises_outOfArea (s : State) (x y : Nat) (rule : Surface → State) (hq : s.queried = true)
    (h : s.width ≤ x ∨ s.height ≤ y) : s.withPixel x y rule = .raised .outOfArea s := by
  have harea : s.pixelInArea x y = false := by
    rw [pixelInArea, Bool.and_eq_false_iff, decide_eq_false_iff_not, decide_eq_false_iff_not]
    omega
  simp [withPixel, hq, harea]

theorem State.withPixel_done (s : State) (sf : Surface) (x y : Nat) (rule : Surface → State) (hq : s.queried = true)
    (hsf : s.surface = some sf) (hx : x < s.width) (hy : y < s.height) :
    s.withPixel x y rule = .done () (rule sf) := by
  simp [withPixel, pixelInArea, hq, hsf, hx, hy]

theorem State.dirtyAdd_raises_sequence (s : State) (x y w h : Nat) (hq : s.queried = false) :
    s.dirtyAdd x y w h = .raised .sequence s := by
  simp [dirtyAdd, hq]

theorem State.dirtyAdd_raises_outOfArea (s : State) (x y w h : Nat) (hq : s.queried = true)
    (hout : s.width < x + w ∨ s.height < y + h) : s.dirtyAdd x y w h = .raised .outOfArea s := by
  have harea : s.rectInArea x y w h = false := by
    rw [rectInArea, Bool.and_eq_false_iff, decide_eq_false_iff_not, decide_eq_false_iff_not]
    omega
  simp [dirtyAdd, hq, harea]

theorem State.dirtyAdd_done (s : State) (x y w h : Nat) (hq : s.queried = true) (hx : x + w ≤ s.width)
    (hy : y + h ≤ s.height) : s.dirtyAdd x y w h = .done () { s with dirty := s.dirty ++ [⟨x, y, w, h⟩] } := by
  simp [dirtyAdd, rectInArea, hq, hx, hy]

theorem State.dirtyClear_raises (s : State) (h : s.queried = false) : s.dirtyClear = .raised .sequence s := by
  simp [dirtyClear, h]

theorem State.dirtyClear_done (s : State) (h : s.queried = true) : s.dirtyClear = .done () { s with dirty := [] } := by
  simp [dirtyClear, h]

/-! ### The statements -/

/-- Settles O34: the surface after one write reads as the written word at (x, y) and as before at every other pixel. -/
theorem pixWriteCompletes : Obligations.PixWriteCompletes := by
  intro s sf x y pixel hq hsf hx hy
  refine ⟨sf.write s.width x y pixel, ?_, ?_, fun x' y' hx' hne => ?_⟩
  · exact exec_done (.pixWrite ..) s _ (State.withPixel_done _ sf x y _ hq hsf hx hy)
  · rw [s.surf_write sf x y x y pixel hx hx, if_pos ⟨rfl, rfl⟩]
  · rw [s.surf_write sf x y x' y' pixel hx hx', if_neg hne]

/-- Settles O39: any choice REGION_RECTS keeps is inside every head that holds the dirty list, and covers its pixels. -/
theorem regionRectsConform : Obligations.RegionRectsConform :=
  fun dirty width height h =>
    ⟨Config.regionRects_inside dirty width height h, Config.coveredBy_regionRects dirty⟩

/-- Settles O35: the rule extends the pixel's word with zeros into RESULT. -/
theorem pixReadCompletes : Obligations.PixReadCompletes := by
  intro s sf x y hq hsf hx hy
  rw [BitVec.ofNat_toNat]
  exact exec_done (.pixRead x y) s _ (State.withPixel_done _ sf x y _ hq hsf hx hy)

/-- Settles O36: both commands make the checks of `State.withPixel`, before any effect but RESULT <- 0. -/
theorem pixelCommandsFault : Obligations.PixelCommandsFault := by
  refine fun s x y pixel => ⟨fun hq => ⟨?_, ?_⟩, fun hq hout => ⟨?_, ?_⟩⟩
  · exact exec_raised (.pixWrite ..) s _ _ (State.withPixel_raises_sequence _ x y _ hq)
  · exact exec_raised (.pixRead ..) s _ _ (State.withPixel_raises_sequence _ x y _ hq)
  · exact exec_raised (.pixWrite ..) s _ _ (State.withPixel_raises_outOfArea _ x y _ hq hout)
  · exact exec_raised (.pixRead ..) s _ _ (State.withPixel_raises_outOfArea _ x y _ hq hout)

/-- Settles O37: the word is the opcode above the operand bits, and each case is one equation of DIRTY_ADD's rule. -/
theorem dirtyAddCompletes : Obligations.DirtyAddCompletes := by
  refine ⟨fun x y w h hwf => ?_, fun s x y w h => ⟨fun hq hx hy => ?_, fun hq => ?_, fun hq hout => ?_⟩⟩
  · rw [encode_toNat _ hwf]
    simp only [Instr.opcode, Opcode.code, Instr.operandBits, Nat.add_assoc]
  · exact exec_done (.dirtyAdd ..) s _ (State.dirtyAdd_done _ x y w h hq hx hy)
  · exact exec_raised (.dirtyAdd ..) s _ _ (State.dirtyAdd_raises_sequence _ x y w h hq)
  · exact exec_raised (.dirtyAdd ..) s _ _ (State.dirtyAdd_raises_outOfArea _ x y w h hq hout)

/-- Settles O38: DIRTY_CLEAR's rule raises, or sets the dirty list and nothing else. -/
theorem dirtyClearCompletes : Obligations.DirtyClearCompletes := by
  refine ⟨by decide, fun s => ⟨fun hq => ?_, fun hq => ?_⟩⟩
  · exact exec_done .dirtyClear s _ (State.dirtyClear_done _ hq)
  · exact exec_raised .dirtyClear s _ _ (State.dirtyClear_raises _ hq)

end Sys2Proof.Machine
end

section
/-! SUPPORT. How RasterArea goes under its checks' conditions, why no rule stops in the invariant, and the statements
about the model's own stops, the faults of RAST_AREA and the flushes that draw nothing (45_flush.md R220 to R231). -/

namespace Sys2Proof.Machine

/-! ### RasterArea's checks (R220, R255) -/

section
variable (s : State) (x y w h : Nat)

theorem State.rasterArea_raises_unmapped (hm : s.mapped = false) : s.rasterArea x y w h = .raised .unmapped s := by
  simp [rasterArea, hm]

theorem State.rasterArea_raises_outOfArea (hm : s.mapped = true) (hout : s.width < x + w ∨ s.height < y + h) :
    s.rasterArea x y w h = .raised .outOfArea s := by
  have harea : s.rectInArea x y w h = false := by
    rw [rectInArea, Bool.and_eq_false_iff, decide_eq_false_iff_not, decide_eq_false_iff_not]
    omega
  simp [rasterArea, hm, harea]

theorem State.rasterArea_raises_baseState (hm : s.mapped = true) (hx : x + w ≤ s.width) (hy : y + h ≤ s.height)
    (hb : s.baseValid = false) : s.rasterArea x y w h = .raised .baseState s := by
  simp [rasterArea, rectInArea, hm, hx, hy, hb]

end

/-! ### No rule stops in the invariant (R32, R125, R223) -/

theorem State.Inv.surface_isSome {s : State} (hs : s.Inv) (hm : s.mapped = true) : s.surface.isSome = true := by
  rw [hs.lifecycle.surface_iff]
  exact hs.lifecycle.mapped_queried hm

theorem State.rasterArea_not_stuck (s : State) (x y w h : Nat) (hs : s.Inv) (e : Fault) :
    s.rasterArea x y w h ≠ .stuck e := by
  cases hm : s.mapped with
  | false =>
    rw [s.rasterArea_raises_unmapped x y w h hm]
    exact nofun
  | true =>
    by_cases harea : x + w ≤ s.width ∧ y + h ≤ s.height
    · cases hb : s.baseValid with
      | false =>
        rw [s.rasterArea_raises_baseState x y w h hm harea.1 harea.2 hb]
        exact nofun
      | true =>
        obtain ⟨t, ht, -⟩ :=
          s.rasterArea_done x y w h hs.params hm hb hs.geometry (hs.surface_isSome hm) harea.1 harea.2
        rw [ht]
        exact nofun
    · rw [s.rasterArea_raises_outOfArea x y w h hm (by omega)]
      exact nofun

/-- Every offset inside the mapping lies in a plane. -/
theorem State.planarWrite_not_stuck (s : State) (off : Nat) (c : BitVec 4) (m : Byte) (hs : s.Inv) (e : Fault) :
    s.planarWrite off c m ≠ .stuck e := by
  have hsize := hs.geometry.size_le
  rcases s.planarWrite_cases off c m with ⟨-, h⟩ | ⟨-, -, h⟩ | ⟨-, -, -, h⟩ | ⟨-, -, hin, hout, -⟩ | ⟨-, -, -, -, h⟩
  · simp [h]
  · simp [h]
  · simp [h]
  · omega
  · simp [h]

/-- A surface exists whenever one is read. -/
theorem State.withPixel_not_stuck (s : State) (x y : Nat) (rule : Surface → State) (hs : s.Inv) (e : Fault) :
    s.withPixel x y rule ≠ .stuck e := by
  have hsurface := hs.lifecycle.surface_iff
  rcases s.withPixel_cases x y rule with ⟨-, h⟩ | ⟨-, -, h⟩ | ⟨hq, -, -, hnone, -⟩ | ⟨sf, -, -, -, -, h⟩
  · simp [h]
  · simp [h]
  · simp [hq, hnone] at hsurface
  · simp [h]

theorem State.flushHead_not_stuck (s : State) (hs : s.Inv) (e : Fault) : s.flushHead ≠ .stuck e := by
  rcases s.flushHead_cases with ⟨-, h⟩ | ⟨-, -, h⟩ | ⟨ha, hm, -⟩
  · simp [h]
  · simp [h]
  · obtain ⟨t, h, -⟩ := s.flushHead_done ha hm hs
    simp [h]

theorem State.activateHead_not_stuck (s : State) (hs : s.Inv) (e : Fault) : s.activateHead ≠ .stuck e := by
  rcases s.activateHead_cases with ⟨-, h⟩ | ⟨hm, h⟩
  · simp [h]
  · rw [h]
    exact State.flushHead_not_stuck _ (s.addFullArea_inv hs hm) e

theorem State.mapDevice_not_stuck (s : State) (hs : s.Inv) (e : Fault) : s.mapDevice ≠ .stuck e := by
  rcases s.mapDevice_cases with ⟨-, h⟩ | ⟨-, -, -, h⟩ | ⟨-, -, -, -, h⟩ | ⟨hq, -, -, -, h⟩
  · simp [h]
  · simp [h]
  · simp [h]
  · rw [h]
    exact State.activateHead_not_stuck _ (s.setMapped_inv true hs fun _ => hq).of_view e

theorem commandRule_not_stuck (i : Instr) (s : State) (hs : s.Inv) (e : Fault) : commandRule i s ≠ .stuck e := by
  cases i with
  | openDevice => rcases s.openDevice_cases with ⟨-, h⟩ | ⟨-, -, h⟩ | ⟨-, -, h⟩ <;> simp [commandRule, h]
  | closeDevice => rcases s.closeDevice_cases with ⟨-, h⟩ | ⟨-, -, h⟩ <;> simp [commandRule, h]
  | query w ht stride type aux visual bpp =>
    rcases s.queryDevice_cases w ht stride type aux visual bpp with
      ⟨-, h⟩ | ⟨-, -, -, h⟩ | ⟨-, -, -, -, h⟩ | ⟨-, -, -, -, h⟩ <;> simp [commandRule, h]
  | mapDevice => exact s.mapDevice_not_stuck hs e
  | activate => exact s.activateHead_not_stuck hs e
  | pixWrite x y pixel => exact s.withPixel_not_stuck x y _ hs e
  | pixRead x y => exact s.withPixel_not_stuck x y _ hs e
  | dirtyAdd x y w ht =>
    rcases s.dirtyAdd_cases x y w ht with ⟨-, h⟩ | ⟨-, -, h⟩ | ⟨-, -, -, h⟩ <;> simp [commandRule, h]
  | dirtyClear => rcases s.dirtyClear_cases with ⟨-, h⟩ | ⟨-, h⟩ <;> simp [commandRule, h]
  | pwBase => rcases s.pwBase_cases with ⟨-, h⟩ | ⟨-, h⟩ <;> simp [commandRule, h]
  | pwWrite c m off => exact s.planarWrite_not_stuck off c m hs e
  | rastArea x y w ht => exact s.rasterArea_not_stuck x y w ht hs e
  | flush => exact s.flushHead_not_stuck hs e
  | unmapDevice | deactivate | palAssign | palPush | palRead => exact nofun

theorem exec_fault {i : Instr} {s : State} {f : Fault} (h : exec i s = .fault f) :
    commandRule i { s with result := 0 } = .stuck f := by
  rw [exec_eq, runCommand] at h
  cases hrule : commandRule i { s with result := 0 } with
  | done _ t => rw [hrule] at h; cases h
  | raised c t => rw [hrule] at h; cases h
  | stuck e => rw [hrule] at h; cases h; rfl

/-- Only a command can stop the model. -/
theorem step_fault {s : State} {f : Fault} (h : step s = .fault f) :
    ∃ i rest, exec i { s with inbox := rest } = .fault f := by
  cases hi : s.inbox with
  | nil => rw [step, State.fetch, hi] at h; cases h
  | cons m rest =>
    cases m with
    | write w =>
      rcases Bool.eq_false_or_eq_true s.fault with hf | hf
      · rw [step_discards s w rest hi hf] at h; cases h
      · cases hd : decode w with
        | error e => rw [step_illegal s w rest e hi hf hd] at h; cases h
        | ok i => exact ⟨i, rest, (step_command s w rest i hi hf hd).symm.trans h⟩
    | vgaReset => rw [step_vgaReset s rest hi] at h; cases h
    | vramChange p off b => rw [step_vramChange s rest p off b hi] at h; split_ifs at h
    | regChange r => rw [step_regChange s rest r hi] at h; split_ifs at h
    | dacChange k => rw [step_dacChange s rest k hi] at h; split_ifs at h
    | powerOn => rw [step_powerOn s rest hi] at h; cases h

/-- Settles O16: only a command could stop the model, and no command's rule does in the invariant. -/
theorem noStepLeavesTheModel : Obligations.NoStepLeavesTheModel := by
  intro s hs f h
  obtain ⟨i, rest, hexec⟩ := step_fault h
  exact commandRule_not_stuck i _ hs.of_view f (exec_fault hexec)

/-! ### RAST_AREA that draws nothing -/

/-- Settles O54: the checks in order, each raising with nothing done but RESULT <- 0. -/
theorem rastAreaFaults : Obligations.RastAreaFaults := by
  refine fun s x y w h => ⟨fun hm => ?_, fun hm hout => ?_, fun hm hx hy hb => ?_, fun hm hx hy hb hempty => ?_⟩
  · exact exec_raised (.rastArea ..) s _ _ (State.rasterArea_raises_unmapped _ x y w h hm)
  · exact exec_raised (.rastArea ..) s _ _ (State.rasterArea_raises_outOfArea _ x y w h hm hout)
  · exact exec_raised (.rastArea ..) s _ _ (State.rasterArea_raises_baseState _ x y w h hm hx hy hb)
  · exact exec_done (.rastArea ..) s _ (State.rasterArea_empty _ x y w h hm hb hx hy hempty)

/-! ### A flush that draws nothing -/

theorem State.flushHead_of_inactive (s : State) (ha : s.active = false) : s.flushHead = .done () s := by
  simp [flushHead, ha]

theorem State.flushHead_raises (s : State) (ha : s.active = true) (hm : s.mapped = false) :
    s.flushHead = .raised .unmapped s := by
  simp [flushHead, ha, hm]

/-- With nothing to rasterize, a flush is its steps 1 to 3, and the region is cleared (R231). -/
theorem State.flushHead_of_no_rects (s : State) (ha : s.active = true) (hm : s.mapped = true)
    (hr : s.regionRects = []) : s.flushHead = .done () { s.flushStart with dirty := [] } := by
  simp [flushHead, ha, hm, flushOver, hr, rasterRects, Run.andThen]

/-- The events of steps 1 to 3 of a flush, with the device open or closed (R225). -/
theorem State.flushStart_events (s : State) :
    s.flushStart.trace = s.trace ++ [.ttyGraphics, .regWrite .esr s.launch.params.baseEsr,
      .regWrite .mode s.launch.params.baseMode, .regWrite .rot s.launch.params.baseRotate,
      .regWrite .mapMask s.launch.params.baseMapMask] ++
      (if s.isOpen = true ∧ s.palette.size ≠ 0 then
        [.palLoad s.palette.size ((List.range s.palette.size).map s.palette.entry)] else []) := by
  have hbase : (s.emit .ttyGraphics).writeBase.trace = s.trace ++ [.ttyGraphics, .regWrite .esr s.launch.params.baseEsr,
      .regWrite .mode s.launch.params.baseMode, .regWrite .rot s.launch.params.baseRotate,
      .regWrite .mapMask s.launch.params.baseMapMask] := by
    simp [writeBase_trace]
  unfold flushStart
  split
  · next hpush =>
    rw [State.setPalette_of_open _ (by simpa using hpush.1) (by simpa using hpush.2), hbase]
    simp [Palette.entries]
  · next hidle =>
    rw [State.setPalette_of_idle _ (by simpa [imp_iff_not_or] using hidle), hbase, List.append_nil]

/-- Settles O59: such a flush is its steps 1 to 3, which reach no plane. -/
theorem emptyFlushWritesNoVram : Obligations.EmptyFlushWritesNoVram := by
  intro s ha hm hr
  have hdone := exec_done .flush s _ (State.flushHead_of_no_rects { s with result := 0 } ha hm hr)
  refine ⟨_, hdone, ?_, ?_, State.flushStart_events { s with result := 0 }⟩
  · simp [State.flushStart_frame]
  · simp [State.flushStart_frame]

/-- Settles O58: an inactive flush makes no check, and an active one checks the mapping first. -/
theorem inactiveOrUnmappedFlush : Obligations.InactiveOrUnmappedFlush := by
  refine fun s => ⟨fun ha => ?_, fun ha hm => ?_⟩
  · exact exec_done .flush s _ (State.flushHead_of_inactive _ ha)
  · exact exec_raised .flush s _ _ (State.flushHead_raises _ ha hm)

end Sys2Proof.Machine
end

section
/-! SUPPORT. What RAST_AREA and FLUSH leave of a head they draw on, and the two statements (45_flush.md R220 to
R232). -/

namespace Sys2Proof.Machine

/-- RasterArea of a rectangle inside a head that is ready to be drawn completes. -/
theorem State.Drawable.rasterArea_done {s : State} {sf : Surface} (hs : s.Drawable sf) {x0 y0 w h : Nat}
    (hx : x0 + w ≤ s.width) (hy : y0 + h ≤ s.height) :
    ∃ t, s.rasterArea x0 y0 w h = .done () t ∧ s.RasterStep t :=
  s.rasterArea_done x0 y0 w h hs.inv.params hs.mapped hs.base hs.inv.geometry (hs.inv.surface_isSome hs.mapped) hx hy

theorem State.RasterStep.sameHead {s t : State} (h : s.RasterStep t) : s.sameHead t := by
  simp [State.sameHead, h.fields]

/-- A command on a mapped head in base state runs its rule on a head ready to be drawn. -/
theorem State.Inv.drawable {s : State} {sf : Surface} (hs : s.Inv) (hm : s.mapped = true) (hb : s.baseValid = true)
    (hsf : s.surface = some sf) : State.Drawable { s with result := 0 } sf :=
  ⟨hs.of_view, hm, hb, hsf⟩

/-- Settles O53: RasterArea of one rectangle draws its pixels and is a raster step. -/
theorem rastAreaCommitsEveryPixel : Obligations.RastAreaCommitsEveryPixel := by
  intro s sf x0 y0 w h hs hm hb hsf hx hy
  have hdraw := hs.drawable hm hb hsf
  obtain ⟨t, ht, hstep⟩ := hdraw.rasterArea_done hx hy
  have hf := hstep.fields
  have hr : State.holdsRect { s with result := 0 } ⟨x0, y0, w, h⟩ := ⟨hx, hy⟩
  refine ⟨t, exec_done (.rastArea x0 y0 w h) s t ht, by simp [hf], hstep.sameHead, by simp [hf], by simp [hf],
    by simp [hf], by simp [hf], by simp [hf], by simp [hf], ⟨hstep.palette.size_le, hstep.palette.kept⟩,
    fun hstd x y h1 h2 h3 h4 => ?_, fun hstd x y hxw _ hout => ?_, fun p off hp hno => ?_⟩
  · have hdrawn := hdraw.rasterArea_drawn hstd hr ht ((Rect.covers_iff _ x y).mpr ⟨h1, h2, h3, h4⟩)
    rw [hdrawn.index, hstep.surf]
    rfl
  · refine hdraw.rasterArea_index_of_not_covers hstd hr ht hxw ?_
    rwa [← Bool.not_eq_true, Rect.covers_iff]
  · exact State.rasterArea_planeByte { s with result := 0 } t x0 y0 w h off p hs.params ht hp
      fun x y h1 h2 h3 h4 hoff => hno ⟨x, y, h1, h2, h3, h4, hoff⟩

/-- Settles O57: FLUSH is FlushHead(), run from RESULT 0. -/
theorem flushCommitsTheDirtyRegion : Obligations.FlushCommitsTheDirtyRegion := by
  intro s sf hs ha hm hsf
  obtain ⟨t, ht, hfl⟩ := State.flushHead_commits { s with result := 0 } sf hs.of_view ha hm hsf
  exact ⟨t, exec_done .flush s t ht, hfl.result, hfl.active.trans ha, hfl.dirty, hfl.head, hfl.base, hfl.trace,
    hfl.palette, fun hstd => ⟨hfl.drawn hstd, fun x y hx _ => hfl.kept hstd x y hx⟩, hfl.dac, hfl.bytes⟩

end Sys2Proof.Machine
end

section
/-! SUPPORT. The events of a rasterized scanline: the pushes of its insertions, then four events for each byte and
colour with a mask bit; and the statements about their order and their number (42_palette.md R152, 45_flush.md R220
to R229). -/

namespace Sys2Proof.Machine

/-! ### The pushes of insertions (R152, R156) -/

/-- The pushes of the insertions that grew a palette of `n` entries to `P`, one for each new entry. -/
def Palette.pushesFrom (P : Palette) (n : Nat) : List Event :=
  (List.range' (n + 1) (P.size - n)).map fun m => Event.palLoad m ((List.range m).map P.entry)

theorem Palette.pushesFrom_self (P : Palette) : P.pushesFrom P.size = [] := by
  simp [pushesFrom]

/-- A palette that grew again was first pushed with the entries it still has. -/
theorem Palette.pushesFrom_append {k : Params} {P Q : Palette} (n : Nat) (hn : n ≤ P.size) (h : P.Grows k Q) :
    P.pushesFrom n ++ Q.pushesFrom P.size = Q.pushesFrom n := by
  have hsize := h.size_le
  have hsplit : List.range' (n + 1) (Q.size - n) =
      List.range' (n + 1) (P.size - n) ++ List.range' (P.size + 1) (Q.size - P.size) := by
    rw [show P.size + 1 = n + 1 + (P.size - n) by omega, List.range'_append_1]
    congr 1
    omega
  have hold : P.pushesFrom n =
      (List.range' (n + 1) (P.size - n)).map fun m => Event.palLoad m ((List.range m).map Q.entry) := by
    refine List.map_congr_left fun m hm => congrArg (Event.palLoad m) (List.map_congr_left fun i hi => ?_)
    rw [List.mem_range'_1] at hm
    rw [List.mem_range] at hi
    exact (h.kept i (by omega)).symm
  rw [hold, pushesFrom, pushesFrom, hsplit, List.map_append]

theorem State.assignIndex_trace (s : State) (p : Pixel) (ho : s.isOpen = true) :
    (s.assignIndex p).2.trace = s.trace ++ (s.assignIndex p).2.palette.pushesFrom s.palette.size := by
  rcases s.assignIndex_state p with h | ⟨-, h⟩ <;> rw [h]
  · simp [Palette.pushesFrom_self]
  · rw [s.insertColor_of_open p ho]
    simp [Palette.pushesFrom, Palette.entries]

theorem State.maskPixels_trace (s : State) (sf : Surface) (y : Nat) (xs : List Nat) (ho : s.isOpen = true) :
    (s.maskPixels sf y xs).trace = s.trace ++ (s.maskPixels sf y xs).palette.pushesFrom s.palette.size := by
  induction xs generalizing s with
  | nil => simp [State.maskPixels, Palette.pushesFrom_self]
  | cons x xs ih =>
    have hfirst : (s.maskPixel sf y x).trace =
        s.trace ++ (s.maskPixel sf y x).palette.pushesFrom s.palette.size := s.assignIndex_trace _ ho
    have hopen : (s.maskPixel sf y x).isOpen = true := by simp [(s.rasterStep_maskPixel sf y x).fields, ho]
    have hgrows := ((s.maskPixel sf y x).rasterStep_maskPixels sf y xs).palette
    have hsize := (s.rasterStep_maskPixel sf y x).palette.size_le
    rw [State.maskPixels, ih _ hopen, hfirst, List.append_assoc, Palette.pushesFrom_append _ hsize hgrows]

/-! ### The planar writes of a scanline (R222) -/

/-- The four events of the planar write of colour `p.1` to byte `p.2` of a row that starts at `base`, where the mask has
a bit there. -/
def maskedWriteEvents (base : Nat) (mask data : Nat → Nat → Byte) (p : Nat × Nat) : List Event :=
  if mask p.1 p.2 = 0 then []
  else [.regWrite .sr (BitVec.ofNat 8 p.1), .regWrite .bm (mask p.1 p.2), .vramRead (base + p.2),
    .vramWrite (base + p.2) (data p.1 p.2)]

theorem maskedWriteEvents_of_zero {base : Nat} {mask data : Nat → Nat → Byte} {p : Nat × Nat} (h : mask p.1 p.2 = 0) :
    maskedWriteEvents base mask data p = [] := if_pos h

theorem maskedWriteEvents_of_ne_zero {base : Nat} {mask data : Nat → Nat → Byte} {p : Nat × Nat}
    (h : mask p.1 p.2 ≠ 0) : maskedWriteEvents base mask data p =
      [.regWrite .sr (BitVec.ofNat 8 p.1), .regWrite .bm (mask p.1 p.2), .vramRead (base + p.2),
        .vramWrite (base + p.2) (data p.1 p.2)] := if_neg h

/-- `data` with the byte `d` at one pair. -/
def setData (data : Nat → Nat → Byte) (c bi : Nat) (d : Byte) : Nat → Nat → Byte :=
  fun c' bi' => if c' = c ∧ bi' = bi then d else data c' bi'

theorem setData_of_mem {c bi : Nat} {ps : List (Nat × Nat)} (hnot : (c, bi) ∉ ps) (data : Nat → Nat → Byte) (d : Byte) :
    ∀ p ∈ ps, setData data c bi d p.1 p.2 = data p.1 p.2 :=
  fun p hp => if_neg fun h => hnot (by rwa [← h.1, ← h.2])

theorem maskedWriteEvents_congr (base : Nat) (mask data data' : Nat → Nat → Byte) (ps : List (Nat × Nat))
    (h : ∀ p ∈ ps, data' p.1 p.2 = data p.1 p.2) :
    ps.flatMap (maskedWriteEvents base mask data') = ps.flatMap (maskedWriteEvents base mask data) :=
  List.flatMap_congr fun p hp => by simp only [maskedWriteEvents, h p hp]

theorem setWidth_ofNat_of_lt_16 {c : Nat} (hc : c < 16) : (BitVec.ofNat 4 c).setWidth 8 = BitVec.ofNat 8 c := by
  apply BitVec.eq_of_toNat_eq
  simp only [BitVec.toNat_setWidth, BitVec.toNat_ofNat]
  omega

theorem State.writeMasks_trace (s t : State) (y : Nat) (ps : List (Nat × Nat)) (hcolour : ∀ p ∈ ps, p.1 < 16)
    (hnodup : ps.Nodup) (hor : s.launch.params.rmwOrValue.getLsbD 0 = true) (h : s.writeMasks y ps = .done () t) :
    ∃ data : Nat → Nat → Byte, (∀ c bi, (data c bi).getLsbD 0 = true) ∧
      t.trace = s.trace ++ ps.flatMap (maskedWriteEvents (y * s.rowStride) (maskByte s.mask) data) := by
  induction ps generalizing s with
  | nil =>
    cases h
    exact ⟨fun _ _ => 1, fun _ _ => by simp, by simp⟩
  | cons p ps ih =>
    obtain ⟨c, bi⟩ := p
    obtain ⟨hc, hcs⟩ := List.forall_mem_cons.mp hcolour
    obtain ⟨hnot, hnodup⟩ := List.nodup_cons.mp hnodup
    simp only [State.writeMasks] at h
    cases hz : maskByte s.mask c bi == 0 <;> rw [hz] at h
    · obtain ⟨_, u, hu, hrest⟩ := Run.andThen_done _ _ _ _ h
      obtain rfl := State.planarWrite_done_inv hu
      obtain ⟨data, hbit, htrace⟩ := ih _ hcs hnodup (by simpa using hor) hrest
      obtain ⟨d, hd, hfour⟩ :=
        s.planarEffects_trace (y * s.rowStride + bi) (BitVec.ofNat 4 c) (maskByte s.mask c bi)
      refine ⟨setData data c bi d, fun c' bi' => ?_, ?_⟩
      · unfold setData
        split
        · exact hd hor
        · exact hbit c' bi'
      · have hmask : maskByte s.mask c bi ≠ 0 := by simpa using hz
        rw [htrace, hfour, List.flatMap_cons, maskedWriteEvents_congr _ _ _ _ ps (setData_of_mem hnot data d),
          maskedWriteEvents_of_ne_zero (p := (c, bi)) hmask]
        simp [setData, setWidth_ofNat_of_lt_16 hc]
    · obtain ⟨data, hbit, htrace⟩ := ih s hcs hnodup hor h
      have hmask : maskByte s.mask c bi = 0 := by simpa using hz
      exact ⟨data, hbit, by rw [htrace, List.flatMap_cons, maskedWriteEvents_of_zero hmask, List.nil_append]⟩

theorem scanlineBytes_nodup (k : Params) (x0 w : Nat) : (scanlineBytes k x0 w).Nodup := by
  refine List.nodup_flatMap.mpr ⟨fun c _ => List.Nodup.map (Prod.mk_right_injective c) (List.nodup_range' 1), ?_⟩
  refine List.nodup_range.imp fun {c d} hne => List.disjoint_left.mpr fun p hp hq => hne ?_
  obtain ⟨_, -, rfl⟩ := List.mem_map.mp hp
  obtain ⟨_, -, heq⟩ := List.mem_map.mp hq
  exact (congrArg Prod.fst heq).symm

/-! ### The masks of a scanline (R221) -/

/-- The mask of the span's pixels in byte `bi` whose index is `c`. -/
def spanMask (idx : Nat → Nat) (x0 w c bi : Nat) : Byte :=
  ((List.range' x0 w).filter fun x => x / 8 == bi && idx x == c).foldl (fun m x => m ||| 0x80 >>> (x % 8)) 0

/-- Bit 7 - k of the mask bit R69 gives a pixel is set exactly when k = x mod 8. -/
theorem shiftedMaskBit_getLsbD (x k : Nat) (hk : k < 8) :
    (((0x80 >>> (x % 8) : Nat) : Byte)).getLsbD (7 - k) = decide (x % 8 = k) := by
  have key : ∀ a < 8, ∀ b < 8, (((0x80 >>> a : Nat) : Byte)).getLsbD (7 - b) = decide (a = b) := by decide
  exact key _ (Nat.mod_lt _ (by decide)) _ hk

theorem foldl_pixelBits_getLsbD (xs : List Nat) (m : Byte) (k : Nat) (hk : k < 8) :
    (xs.foldl (fun (m : Byte) x => m ||| 0x80 >>> (x % 8)) m).getLsbD (7 - k) = true ↔
      m.getLsbD (7 - k) = true ∨ ∃ x ∈ xs, x % 8 = k := by
  induction xs generalizing m with
  | nil => simp
  | cons x xs ih =>
    rw [List.foldl_cons, ih, BitVec.getLsbD_or, shiftedMaskBit_getLsbD x k hk]
    simp [or_assoc]

theorem spanMask_getLsbD (idx : Nat → Nat) (x0 w c bi k : Nat) (hk : k < 8) :
    (spanMask idx x0 w c bi).getLsbD (7 - k) = true ↔
      ∃ x, x0 ≤ x ∧ x < x0 + w ∧ x / 8 = bi ∧ x % 8 = k ∧ idx x = c := by
  rw [spanMask, foldl_pixelBits_getLsbD _ _ _ hk]
  simp only [BitVec.ofNat_eq_ofNat, BitVec.getLsbD_zero, Bool.false_eq_true, false_or, List.mem_filter,
    List.mem_range'_1, Bool.and_eq_true, beq_iff_eq]
  constructor
  · rintro ⟨x, ⟨⟨h1, h2⟩, h3, h4⟩, h5⟩
    exact ⟨x, h1, h2, h3, h5, h4⟩
  · rintro ⟨x, h1, h2, h3, h4, h5⟩
    exact ⟨x, ⟨⟨h1, h2⟩, h3, h5⟩, h4⟩

/-- Bytes with the same pixel bits are equal. -/
theorem byte_eq_of_pixelBits {a b : Byte} (h : ∀ k < 8, a.getLsbD (7 - k) = true ↔ b.getLsbD (7 - k) = true) :
    a = b := by
  refine BitVec.eq_of_getLsbD_eq fun i hi => Bool.eq_iff_iff.mpr ?_
  have := h (7 - i) (by omega)
  rwa [show 7 - (7 - i) = i by omega] at this

theorem State.Drawable.maskByte_buildMasks {s : State} {sf : Surface} (hs : s.Drawable sf)
    (hstd : s.launch.params.Standard) (y x0 w c bi : Nat) (hx : x0 + w ≤ s.width) :
    maskByte (s.buildMasks sf y x0 w).mask c bi =
      spanMask (fun x => ((s.buildMasks sf y x0 w).assignIndex (s.surf sf x y)).1) x0 w c bi := by
  have hbytes : ∀ x ∈ List.range' x0 w, x / 8 < s.rowStride := fun x hmem =>
    span_byte_lt hx hs.inv.geometry.stride_ge (List.mem_range'_1.mp hmem).2
  obtain ⟨-, hbits⟩ := State.maskPixels_bit { s with mask := zeroMask s.rowStride } sf y s.rowStride (List.range' x0 w)
    (maskShape_zero _) hs.inv.params hstd.mask_bit hs.inv.palette.size_le hbytes
  refine byte_eq_of_pixelBits fun k hk => ?_
  rw [spanMask_getLsbD _ _ _ _ _ _ hk]
  refine (hbits c bi k hk).trans ?_
  simp only [maskByte_zero, BitVec.ofNat_eq_ofNat, BitVec.getLsbD_zero, Bool.false_eq_true, false_or,
    List.mem_range'_1, and_assoc]
  rfl

/-! ### The events of a scanline -/

/-- A nonempty rectangle's rows, also where there are none. -/
theorem State.Drawable.rasterArea_rows {s : State} {sf : Surface} (hs : s.Drawable sf) {x0 y0 w h : Nat} (hw : 0 < w)
    (hx : x0 + w ≤ s.width) (hy : y0 + h ≤ s.height) :
    s.rasterArea x0 y0 w h = s.rasterRows sf x0 w (List.range' y0 h) := by
  cases h with
  | zero => exact s.rasterArea_empty x0 y0 w 0 hs.mapped hs.base hx hy (.inr rfl)
  | succ h => exact s.rasterArea_rows sf x0 y0 w (h + 1) hs.mapped hs.base hx hy hw (Nat.succ_pos h) hs.surface

theorem State.rasterRows_singleton (s : State) (sf : Surface) (x0 w y : Nat) :
    s.rasterRows sf x0 w [y] = s.rasterRow sf x0 w y := by
  rw [rasterRows]
  cases s.rasterRow sf x0 w y with
  | done _ t => rfl
  | raised c t => rfl
  | stuck e => rfl

/-- A RasterArea of one row is that scanline. -/
theorem State.Drawable.rasterArea_one_row {s : State} {sf : Surface} (hs : s.Drawable sf) {x0 y w : Nat} (hw : 0 < w)
    (hx : x0 + w ≤ s.width) (hy : y + 1 ≤ s.height) : s.rasterArea x0 y w 1 = s.rasterRow sf x0 w y := by
  rw [hs.rasterArea_rows hw hx hy, List.range'_one, State.rasterRows_singleton]

/-- The events of a scanline (R222): the pushes of its insertions, then its planar writes, colour-major. -/
theorem State.Drawable.rasterArea_row_trace {s t : State} {sf : Surface} (hs : s.Drawable sf)
    (hstd : s.launch.params.Standard) {x0 y w : Nat} (hw : 0 < w) (hx : x0 + w ≤ s.width) (hy : y + 1 ≤ s.height)
    (ht : s.rasterArea x0 y w 1 = .done () t) :
    ∃ data : Nat → Nat → Byte, (∀ c bi, (data c bi).getLsbD 0 = true) ∧
      t.trace = s.trace ++ t.palette.pushesFrom s.palette.size ++
        (scanlineBytes s.launch.params x0 w).flatMap (maskedWriteEvents (y * s.rowStride)
          (spanMask (fun x => (t.assignIndex (s.surf sf x y)).1) x0 w) data) := by
  have hk := hs.inv.params
  have hopen : s.isOpen = true := hs.inv.lifecycle.queried_open (hs.inv.lifecycle.mapped_queried hs.mapped)
  have hstep := (hs.rasterArea ht).2
  have hbuild := s.rasterStep_buildMasks sf y x0 w
  have hrow : s.rasterRow sf x0 w y = .done () t := (hs.rasterArea_one_row hw hx hy).symm.trans ht
  have hpalette := s.rasterRow_palette t sf x0 w y hrow
  obtain ⟨data, hbit, htrace⟩ := State.writeMasks_trace _ t y _ (fun p hp => ((mem_scanlineBytes hk ..).mp hp).1)
    (scanlineBytes_nodup s.launch.params x0 w) (by simpa [hbuild.params] using hstd.or_value) hrow
  have hmasks : maskByte (s.buildMasks sf y x0 w).mask =
      spanMask (fun x => (t.assignIndex (s.surf sf x y)).1) x0 w := by
    funext c bi
    rw [hs.maskByte_buildMasks hstd y x0 w c bi hx]
    congr 1
    funext x
    exact (State.assignIndex_congr _ _ _ hpalette (hstep.params.trans hbuild.params.symm)).symm
  have hpushes : (s.buildMasks sf y x0 w).trace = s.trace ++ t.palette.pushesFrom s.palette.size := by
    rw [hpalette]
    exact State.maskPixels_trace { s with mask := zeroMask s.rowStride } sf y _ hopen
  rw [hmasks, hpushes, show (s.buildMasks sf y x0 w).rowStride = s.rowStride by simp [hbuild.fields]] at htrace
  exact ⟨data, hbit, htrace⟩

/-! ### Scanlines go top to bottom -/

theorem State.rasterRows_append (s : State) (sf : Surface) (x0 w : Nat) (ys zs : List Nat) :
    s.rasterRows sf x0 w (ys ++ zs) = (s.rasterRows sf x0 w ys).andThen fun _ t => t.rasterRows sf x0 w zs := by
  induction ys generalizing s with
  | nil => rfl
  | cons y ys ih =>
    simp only [List.cons_append, State.rasterRows]
    cases s.rasterRow sf x0 w y with
    | done _ t => exact ih t
    | raised c t => rfl
    | stuck e => rfl

/-- One row more is one more RasterArea of that row. -/
theorem State.Drawable.rasterArea_succ {s t : State} {sf : Surface} (hs : s.Drawable sf) {x0 y0 w h : Nat}
    (hx : x0 + w ≤ s.width) (hy : y0 + (h + 1) ≤ s.height) (ht : s.rasterArea x0 y0 w h = .done () t) :
    s.rasterArea x0 y0 w (h + 1) = t.rasterArea x0 (y0 + h) w 1 := by
  obtain ⟨hdraw, hstep⟩ := hs.rasterArea ht
  have hf := hstep.fields
  have hxt : x0 + w ≤ t.width := by simpa [hf] using hx
  have hyt : y0 + h + 1 ≤ t.height := by simpa [hf, Nat.add_assoc] using hy
  rcases Nat.eq_zero_or_pos w with rfl | hw
  · rw [s.rasterArea_empty x0 y0 0 h hs.mapped hs.base hx (by omega) (.inl rfl)] at ht
    cases ht
    rw [s.rasterArea_empty x0 y0 0 (h + 1) hs.mapped hs.base hx hy (.inl rfl),
      s.rasterArea_empty x0 (y0 + h) 0 1 hs.mapped hs.base hx hyt (.inl rfl)]
  · rw [hs.rasterArea_rows hw hx (by omega)] at ht
    rw [hs.rasterArea_rows hw hx hy, hdraw.rasterArea_rows hw hxt hyt, List.range'_1_concat,
      State.rasterRows_append, ht]
    rfl

/-- Settles O56: a one-row rectangle is its scanline, and every further row a rectangle of its own. -/
theorem rastAreaEventOrder : Obligations.RastAreaEventOrder := by
  intro s t sf x0 y0 w hs hstd hm hb hsf hx
  have hdraw := hs.drawable hm hb hsf
  have hpixels : s.launch.params.pixelsPerByte = 8 := hs.params.pixels
  refine ⟨fun hw hy hexec => ?_, fun h hy hexec => ?_⟩
  · obtain ⟨u, hu, -⟩ := hdraw.rasterArea_done hx hy
    cases (exec_done (.rastArea x0 y0 w 1) s u hu).symm.trans hexec
    obtain ⟨data, hbit, htrace⟩ := hdraw.rasterArea_row_trace hstd hw hx hy hu
    refine ⟨data, hbit, htrace.trans ?_⟩
    simp only [scanlineBytes, Config.maskRows, byteColumn, hpixels, List.flatMap_assoc, List.flatMap_map]
    rfl
  · obtain ⟨u, hu, hstep⟩ := hdraw.rasterArea_done hx (show y0 + h ≤ s.height by omega)
    cases (exec_done (.rastArea x0 y0 w h) s u hu).symm.trans hexec
    have hresult : ({ t with result := 0 } : State) = t := by
      have : t.result = 0 := by simp [hstep.fields]
      rw [← this]
    have hnext := hdraw.rasterArea_succ (h := h) hx hy hu
    rw [exec_eq, exec_eq, runCommand, runCommand]
    simp only [commandRule, hresult, hnext]
    rfl

/-! ### How many planar writes (R229) -/

/-- The event is a VRAM write: the last of a planar write's four. -/
def Event.isVramWrite : Event → Bool
  | .vramWrite _ _ => true
  | _ => false

/-- How many VRAM writes the events hold. -/
def vramWrites (es : List Event) : Nat := es.countP Event.isVramWrite

theorem vramWrites_append (es fs : List Event) : vramWrites (es ++ fs) = vramWrites es + vramWrites fs :=
  List.countP_append

theorem vramWrites_flatMap {α : Type} (l : List α) (f : α → List Event) :
    vramWrites (l.flatMap f) = (l.map fun a => vramWrites (f a)).sum :=
  List.countP_flatMap

theorem vramWrites_pushesFrom (P : Palette) (n : Nat) : vramWrites (P.pushesFrom n) = 0 := by
  simp [vramWrites, Palette.pushesFrom, Event.isVramWrite]

theorem vramWrites_maskedWriteEvents (base : Nat) (mask data : Nat → Nat → Byte) (p : Nat × Nat) :
    vramWrites (maskedWriteEvents base mask data p) = if mask p.1 p.2 = 0 then 0 else 1 := by
  unfold maskedWriteEvents
  split
  · rfl
  · rfl

/-- The indices of the span's pixels in byte `bi`. -/
def byteIndices (idx : Nat → Nat) (x0 w bi : Nat) : List Nat :=
  ((List.range' x0 w).filter fun x => x / 8 == bi).map idx

/-- The bytes of a row that hold pixels of the span (R223). -/
def spanBytes (x0 w : Nat) : List Nat := List.range' (x0 / 8) ((x0 + w - 1) / 8 + 1 - x0 / 8)

/-- The number of distinct indices in each byte of the span, added up. -/
def distinctIndices (idx : Nat → Nat) (x0 w : Nat) : Nat :=
  ((spanBytes x0 w).map fun bi => (byteIndices idx x0 w bi).dedup.length).sum

theorem mem_byteIndices (idx : Nat → Nat) (x0 w bi c : Nat) :
    c ∈ byteIndices idx x0 w bi ↔ ∃ x, x0 ≤ x ∧ x < x0 + w ∧ x / 8 = bi ∧ idx x = c := by
  simp [byteIndices, List.mem_range'_1, and_assoc]

theorem distinctIndices_congr {idx idx' : Nat → Nat} {x0 w : Nat} (h : ∀ x, x0 ≤ x → x < x0 + w → idx x = idx' x) :
    distinctIndices idx x0 w = distinctIndices idx' x0 w := by
  have hbyte (bi : Nat) : byteIndices idx x0 w bi = byteIndices idx' x0 w bi :=
    List.map_congr_left fun x hmem => by
      have := List.mem_range'_1.mp (List.mem_of_mem_filter hmem)
      exact h x this.1 this.2
  simp only [distinctIndices, hbyte]

/-- A colour's mask is zero where no span pixel of the byte has the colour. -/
theorem spanMask_eq_zero_iff (idx : Nat → Nat) (x0 w c bi : Nat) :
    spanMask idx x0 w c bi = 0 ↔ c ∉ byteIndices idx x0 w bi := by
  rw [mem_byteIndices]
  constructor
  · rintro hzero ⟨x, h1, h2, h3, h4⟩
    have hbit := (spanMask_getLsbD idx x0 w c bi (x % 8) (Nat.mod_lt _ (by decide))).mpr ⟨x, h1, h2, h3, rfl, h4⟩
    simp [hzero] at hbit
  · refine fun hnone => byte_eq_of_pixelBits fun k hk => ?_
    rw [spanMask_getLsbD _ _ _ _ _ _ hk]
    refine ⟨fun ⟨x, h1, h2, h3, _, h5⟩ => absurd ⟨x, h1, h2, h3, h5⟩ hnone, fun hbit => ?_⟩
    simp at hbit

/-- Counting the numbers below 16 that a list holds is counting its distinct members. -/
theorem sum_mem_eq_dedup_length (l : List Nat) (h : ∀ c ∈ l, c < 16) :
    ((List.range 16).map fun c => if c ∉ l then 0 else 1).sum = l.dedup.length := by
  have hset : (List.range 16).toFinset.filter (· ∈ l) = l.toFinset := by
    ext c
    simpa using h c
  rw [← List.sum_toFinset _ List.nodup_range, ← List.card_toFinset, ← hset, Finset.card_filter]
  simp only [ite_not]

/-- The writes of a scanline: one for each byte and distinct index. -/
theorem vramWrites_scanline {k : Params} (hk : k.Ok) (idx : Nat → Nat) (hidx : ∀ x, idx x < 16) (x0 w base : Nat)
    (data : Nat → Nat → Byte) :
    vramWrites ((scanlineBytes k x0 w).flatMap (maskedWriteEvents base (spanMask idx x0 w) data)) =
      distinctIndices idx x0 w := by
  have hpairs : scanlineBytes k x0 w = (List.range 16).flatMap fun c => (spanBytes x0 w).map fun bi => (c, bi) := by
    simp only [scanlineBytes, spanBytes, byteColumn, hk.pixels]
    rfl
  have hcolours (bi : Nat) : ((List.range 16).map fun c => if spanMask idx x0 w c bi = 0 then 0 else 1).sum =
      (byteIndices idx x0 w bi).dedup.length := by
    simp only [spanMask_eq_zero_iff]
    refine sum_mem_eq_dedup_length _ fun c hc => ?_
    obtain ⟨x, -, -, -, rfl⟩ := (mem_byteIndices ..).mp hc
    exact hidx x
  calc vramWrites ((scanlineBytes k x0 w).flatMap (maskedWriteEvents base (spanMask idx x0 w) data))
      = ((List.range 16).map fun c =>
          ((spanBytes x0 w).map fun bi => if spanMask idx x0 w c bi = 0 then 0 else 1).sum).sum := by
        simp only [hpairs, List.flatMap_assoc, List.flatMap_map, vramWrites_flatMap, vramWrites_maskedWriteEvents]
    _ = ((spanBytes x0 w).map fun bi =>
          ((List.range 16).map fun c => if spanMask idx x0 w c bi = 0 then 0 else 1).sum).sum := by
        simpa using Multiset.sum_map_sum_map (List.range 16 : Multiset Nat) (spanBytes x0 w : Multiset Nat)
          (f := fun c bi => if spanMask idx x0 w c bi = 0 then 0 else 1)
    _ = distinctIndices idx x0 w := by simp only [hcolours, distinctIndices]

theorem State.Inv.assignIndex_lt_16 {s : State} (hs : s.Inv) (p : Pixel) : (s.assignIndex p).1 < 16 :=
  calc (s.assignIndex p).1 < (s.assignIndex p).2.palette.size := s.assignIndex_lt p hs.params
    _ ≤ s.launch.params.paletteCapacity := s.assignIndex_size_le p hs.palette.size_le
    _ ≤ 16 := capacity_le_16 hs.params

theorem State.Drawable.vramWrites_row {s t : State} {sf : Surface} (hs : s.Drawable sf)
    (hstd : s.launch.params.Standard) {x0 y w : Nat} (hw : 0 < w) (hx : x0 + w ≤ s.width) (hy : y + 1 ≤ s.height)
    (ht : s.rasterArea x0 y w 1 = .done () t) :
    vramWrites t.trace = vramWrites s.trace + distinctIndices (fun x => (t.assignIndex (s.surf sf x y)).1) x0 w := by
  obtain ⟨data, -, htrace⟩ := hs.rasterArea_row_trace hstd hw hx hy ht
  have hidx (x : Nat) := (hs.rasterArea ht).1.inv.assignIndex_lt_16 (s.surf sf x y)
  rw [htrace, vramWrites_append, vramWrites_append, vramWrites_pushesFrom, vramWrites_scanline hs.inv.params _ hidx,
    Nat.add_zero]

/-- A colour that needs no insertion keeps its index while the rasterizer goes on (R160). -/
theorem State.RasterStep.assignIndex_of_settled {s t : State} (h : s.RasterStep t) (hk : s.launch.params.Ok) {p : Pixel}
    (hp : s.palette.Settled s.launch.params p) : (t.assignIndex p).1 = (s.assignIndex p).1 := by
  refine State.assignIndex_stable s t p p hk h.params ⟨rfl, rfl, rfl⟩ ?_
  rw [s.assignIndex_of_settled p hk hp]
  exact h.palette

/-- The writes of a rectangle, row by row, with the indices its last row leaves. -/
theorem State.Drawable.vramWrites_rasterArea {s t : State} {sf : Surface} (hs : s.Drawable sf)
    (hstd : s.launch.params.Standard) {x0 y0 w h : Nat} (hw : 0 < w) (hx : x0 + w ≤ s.width) (hy : y0 + h ≤ s.height)
    (ht : s.rasterArea x0 y0 w h = .done () t) :
    vramWrites t.trace = vramWrites s.trace +
      ((List.range' y0 h).map fun y => distinctIndices (fun x => (t.assignIndex (s.surf sf x y)).1) x0 w).sum := by
  induction h generalizing t with
  | zero =>
    cases (s.rasterArea_empty x0 y0 w 0 hs.mapped hs.base hx hy (.inr rfl)).symm.trans ht
    rfl
  | succ h ih =>
    have hy' : y0 + h ≤ s.height := by omega
    obtain ⟨u, hu, hstep⟩ := hs.rasterArea_done hx hy'
    have hdraw := (hs.rasterArea hu).1
    have hf := hstep.fields
    have hrow : u.rasterArea x0 (y0 + h) w 1 = .done () t := (hs.rasterArea_succ hx hy hu).symm.trans ht
    have hearlier : ∀ y ∈ List.range' y0 h, distinctIndices (fun x => (u.assignIndex (s.surf sf x y)).1) x0 w =
        distinctIndices (fun x => (t.assignIndex (s.surf sf x y)).1) x0 w := fun y hmem => by
      obtain ⟨h1, h2⟩ := List.mem_range'_1.mp hmem
      refine distinctIndices_congr fun x h3 h4 => ?_
      have hdrawn := hs.rasterArea_drawn (r := ⟨x0, y0, w, h⟩) hstd ⟨hx, hy'⟩ hu
        ((Rect.covers_iff ..).mpr ⟨h3, h4, h1, h2⟩)
      have hsettled := hdrawn.settled
      rw [hstep.surf] at hsettled
      exact ((hdraw.rasterArea hrow).2.assignIndex_of_settled hdraw.inv.params hsettled).symm
    have hlast := hdraw.vramWrites_row (hstep.params ▸ hstd) hw (by simpa [hf] using hx)
      (by simpa [hf, Nat.add_assoc] using hy) hrow
    simp only [hstep.surf] at hlast
    rw [hlast, ih hy' hu, List.map_congr_left hearlier, List.range'_1_concat, List.map_append, List.sum_append,
      Nat.add_assoc]
    simp

/-- Settles O55, by induction on the rows: each scanline makes one write for each byte and distinct index. -/
theorem rastAreaWriteCount : Obligations.RastAreaWriteCount := by
  intro s t sf x0 y0 w h hs hstd hm hb hsf hx hy hw hexec
  have hdraw := hs.drawable hm hb hsf
  obtain ⟨u, hu, hstep⟩ := hdraw.rasterArea_done hx hy
  cases (exec_done (.rastArea x0 y0 w h) s u hu).symm.trans hexec
  have hcount := hdraw.vramWrites_rasterArea hstd hw hx hy hu
  have htest : (fun e : Event => match e with | .vramWrite _ _ => true | _ => false) = Event.isVramWrite := by
    funext e
    cases e <;> rfl
  obtain ⟨es, htrace⟩ := hstep.trace
  have hnew : t.trace = s.trace ++ es := htrace.symm
  rw [hnew, vramWrites_append] at hcount
  rw [hnew, List.drop_left]
  exact (congrArg (List.countP · es) htest).trans (Nat.add_left_cancel hcount)

end Sys2Proof.Machine
end

section
/-! SUPPORT. What the environment's moves do to the VGA side, and the statements about them and about a halted block
(60_exceptions.md R258 and R261). -/

namespace Sys2Proof.Machine

/-! ### The changes of an inactive head's VGA (R261) -/

theorem step_vramChange_of_inactive {s : State} {rest : List Move} {p : Fin 4} {off : Nat} {b : Byte}
    (h : s.inbox = .vramChange p off b :: rest) (ha : s.active = false) (hoff : off < s.launch.params.vramPlaneBytes) :
    step s = .next { s with inbox := rest, vga := s.vga.setPlaneByte p.val off b } := by
  rw [step_vramChange s rest p off b h, if_pos hoff, if_neg (by simp [ha])]

theorem step_regChange_of_inactive {s : State} {rest : List Move} {r : VgaReg} (h : s.inbox = .regChange r :: rest)
    (ha : s.active = false) : step s = .next { s with inbox := rest, vga := s.vga.setReg r none } := by
  rw [step_regChange s rest r h, if_neg (by simp [ha])]

theorem step_dacChange_of_inactive {s : State} {rest : List Move} {i : Fin 16} (h : s.inbox = .dacChange i :: rest)
    (ha : s.active = false) :
    step s = .next { s with inbox := rest, vga := { s.vga with dac := s.vga.dac.set i none } } := by
  rw [step_dacChange s rest i h, if_neg (by simp [ha])]

/-! ### What a move leaves of the VGA side (R261, R42) -/

/-- The block's own state is no part of a move's effects. -/
theorem State.sameBlock_setVga (s : State) (rest : List Move) (v : Vga) :
    s.sameBlock { s with inbox := rest, vga := v } := by
  simp [sameBlock]

theorem Vga.reg_setReg (v : Vga) (r q : VgaReg) (c : Option Byte) :
    (v.setReg r c).reg q = if q = r then c else v.reg q := by
  cases r <;> cases q <;> rfl

theorem Vga.reg_setPlaneByte (v : Vga) (p off : Nat) (b : Byte) (r : VgaReg) :
    (v.setPlaneByte p off b).reg r = v.reg r := by
  cases r <;> rfl

theorem Vga.reg_reset (v : Vga) (r : VgaReg) : v.reset.reg r = none := by
  cases r <;> rfl

theorem Vga.latch_reset (v : Vga) (k : Fin 4) : v.reset.latch[k] = none := by
  simp [reset, unknown]

theorem Vga.dac_reset (v : Vga) (k : Fin 16) : v.reset.dac[k] = none := by
  simp [reset, unknown]

theorem Vga.sameBytesOutside_of_vram {v w : Vga} (stored : Nat → Prop) (h : w.vram = v.vram)
    (ht : w.vramTag = v.vramTag) : v.sameBytesOutside w stored :=
  fun p off _ _ => Vga.planeByte_of_vram v w p off h ht

theorem Vga.baseValid_reset (k : Params) (v : Vga) : v.reset.baseValid k = false := rfl

/-- A base register that becomes unknown ends the base state (R42). -/
theorem Vga.baseValid_forgetReg (k : Params) (v : Vga) {r : VgaReg}
    (h : r = .esr ∨ r = .mode ∨ r = .rot ∨ r = .mapMask) : (v.setReg r none).baseValid k = false := by
  rcases h with rfl | rfl | rfl | rfl <;> simp [baseValid]

/-- SR and BM are no base registers. -/
theorem Vga.baseValid_setReg_of_sr_or_bm (k : Params) (v : Vga) {r : VgaReg} (c : Option Byte) (h : r = .sr ∨ r = .bm) :
    (v.setReg r c).baseValid k = v.baseValid k := by
  rcases h with rfl | rfl <;> rfl

/-- Settles O9: each move is one update of the VGA side, and its effects are that update's. -/
theorem environmentMovesChangeOnlyTheVga : Obligations.EnvironmentMovesChangeOnlyTheVga := by
  refine fun s rest => ⟨fun h => ?_, fun ha p off b h hoff => ?_, fun ha r h => ?_, fun ha i h => ?_⟩
  · exact ⟨_, step_vgaReset s rest h, rfl, s.sameBlock_setVga .., rfl, rfl, rfl, s.vga.reg_reset,
      s.vga.baseValid_reset _, s.vga.latch_reset, s.vga.dac_reset, Vga.sameBytesOutside_of_vram _ rfl rfl⟩
  · refine ⟨_, step_vramChange_of_inactive h ha hoff, rfl, s.sameBlock_setVga .., rfl, rfl, rfl,
      s.vga.planeByte_setPlaneByte_same .., fun q o hq hne => ?_, s.vga.reg_setPlaneByte _ _ _, rfl, rfl, rfl⟩
    rw [Vga.planeByte_setPlaneByte _ _ _ _ _ _ p.isLt hq, if_neg hne]
  · obtain ⟨hlatch, hvram, htag, hdac⟩ := s.vga.setReg_frame r none
    exact ⟨_, step_regChange_of_inactive h ha, rfl, s.sameBlock_setVga .., rfl, rfl, rfl,
      (s.vga.reg_setReg r r none).trans (if_pos rfl), fun q hq => (s.vga.reg_setReg r q none).trans (if_neg hq),
      s.vga.baseValid_forgetReg _, s.vga.baseValid_setReg_of_sr_or_bm _ _, hlatch, hdac,
      Vga.sameBytesOutside_of_vram _ hvram htag⟩
  · refine ⟨_, step_dacChange_of_inactive h ha, rfl, s.sameBlock_setVga .., rfl, rfl, rfl,
      Vector.getElem_set_self i.isLt, fun j hj => ?_, fun r => ?_, rfl, rfl, Vga.sameBytesOutside_of_vram _ rfl rfl⟩
    · exact Vector.getElem_set_ne i.isLt j.isLt fun e => hj (Fin.ext e.symm)
    · cases r <;> rfl

/-! ### Refusals (R261, I27) -/

/-- A word is executed, faulted or discarded, never refused. -/
theorem step_write_not_refused (s : State) (w : Word) (rest : List Move) (h : s.inbox = .write w :: rest)
    (r : Refusal) : step s ≠ .refused r := by
  cases hf : s.fault with
  | true => rw [step_discards s w rest h hf]; exact nofun
  | false =>
    cases hd : decode w with
    | error e => rw [step_illegal s w rest e h hf hd]; exact nofun
    | ok i => rw [step_command s w rest i h hf hd]; exact exec_not_refused i _ r

/-- Settles O10: each kind of move has its own equation, and only the three changes ask whether the head is active. -/
theorem activeHeadAdmitsOnlyVgaReset : Obligations.ActiveHeadAdmitsOnlyVgaReset := by
  intro s m rest h
  refine ⟨fun ha => ?_, ?_⟩
  · cases m with
    | write w => simp [step_write_not_refused s w rest h]
    | vgaReset => simp [step_vgaReset s rest h]
    | vramChange p off b => simp [step_vramChange s rest p off b h, ha]
    | regChange r => simp [step_regChange s rest r h, ha]
    | dacChange i => simp [step_dacChange s rest i h, ha]
    | powerOn => simp [step_powerOn s rest h]
  · rintro p off b rfl hoff
    rw [step_vramChange s rest p off b h, if_neg (Nat.not_lt.mpr hoff)]

/-! ### A halted block (R258) -/

/-- Settles O8: a halted step keeps the fault, and a read of RESULT or STATUS does not see the inbox. -/
theorem haltedBlockDiscardsWords : Obligations.HaltedBlockDiscardsWords := by
  refine fun s rest hf => ⟨fun w h => ⟨step_discards s w rest h hf, rfl, rfl⟩, fun h => ?_,
    fun p off b h ha hoff => ?_⟩
  · refine ⟨_, step_vgaReset s rest h, hf, ?_⟩
    rw [State.status_bit_baseValid]
    exact s.vga.baseValid_reset _
  · exact ⟨_, step_vramChange_of_inactive h ha hoff, hf, s.vga.planeByte_setPlaneByte_same ..⟩

end Sys2Proof.Machine
end

section
/-! SUPPORT. That a command's rule keeps the fault flag, which faults it can raise in the invariant, and the two
statements about them (60_exceptions.md R250 to R257). -/

namespace Sys2Proof.Machine

/-! ### No rule writes the fault flag (R256, R257) -/

theorem rasterClosed_fault (b : Bool) : RasterClosed (·.fault = b) where
  mask _ _ h := h
  assign t p h := by simpa using h
  planar t off c m h _ _ _ := by simpa using h

theorem State.flushHead_fault (s : State) : s.flushHead.Ends (·.fault = s.fault) :=
  (rasterClosed_fault s.fault).flushHead (fun t h => by simpa [State.flushStart_frame] using h) (fun _ h => h) s rfl

theorem State.activateHead_fault (s : State) : s.activateHead.Ends (·.fault = s.fault) := by
  rcases s.activateHead_cases with ⟨-, e⟩ | ⟨-, e⟩ <;> rw [e]
  · exact rfl
  · exact State.flushHead_fault _

theorem State.mapDevice_fault (s : State) : s.mapDevice.Ends (·.fault = s.fault) := by
  rcases s.mapDevice_cases with ⟨-, e⟩ | ⟨-, -, -, e⟩ | ⟨-, -, -, -, e⟩ | ⟨-, -, -, -, e⟩ <;> rw [e]
  · exact rfl
  · exact rfl
  · exact rfl
  · exact State.activateHead_fault _

/-- Only the fault entry and power-on write `fault`: every rule, completed or raised, keeps it. -/
theorem commandRule_fault (i : Instr) (s : State) : (commandRule i s).Ends (·.fault = s.fault) := by
  cases i with
  | openDevice => rcases s.openDevice_cases with ⟨-, e⟩ | ⟨-, -, e⟩ | ⟨-, -, e⟩ <;> simp [commandRule, Run.Ends, e]
  | closeDevice => rcases s.closeDevice_cases with ⟨-, e⟩ | ⟨-, -, e⟩ <;> simp [commandRule, Run.Ends, e]
  | query w ht stride type aux visual bpp =>
    rcases s.queryDevice_cases w ht stride type aux visual bpp with
      ⟨-, e⟩ | ⟨-, -, -, e⟩ | ⟨-, -, -, -, e⟩ | ⟨-, -, -, -, e⟩ <;> simp [commandRule, Run.Ends, e]
  | mapDevice => exact s.mapDevice_fault
  | activate => exact s.activateHead_fault
  | pixWrite x y pixel => exact s.withPixel_ends x y _ rfl fun _ => rfl
  | pixRead x y => exact s.withPixel_ends x y _ rfl fun _ => rfl
  | dirtyAdd x y w ht =>
    rcases s.dirtyAdd_cases x y w ht with ⟨-, e⟩ | ⟨-, -, e⟩ | ⟨-, -, -, e⟩ <;> simp [commandRule, Run.Ends, e]
  | dirtyClear => rcases s.dirtyClear_cases with ⟨-, e⟩ | ⟨-, e⟩ <;> simp [commandRule, Run.Ends, e]
  | palAssign p => exact (rasterClosed_fault s.fault).assign s p rfl
  | palPush => simp [commandRule, Run.Ends]
  | pwBase => rcases s.pwBase_cases with ⟨-, e⟩ | ⟨-, e⟩ <;> simp [commandRule, Run.Ends, e]
  | pwWrite c m off => exact s.planarWrite_ends off c m rfl ((rasterClosed_fault s.fault).planar s off c m rfl)
  | rastArea x y w ht => exact (rasterClosed_fault s.fault).rasterArea s x y w ht rfl
  | flush => exact s.flushHead_fault
  | unmapDevice | deactivate | palRead => exact rfl

/-- Settles O13: a rule keeps `fault` and the fault entry sets it; of the ways a halted step can go, only power-on
writes the fault state. -/
theorem onlyResetLeavesTheFault : Obligations.OnlyResetLeavesTheFault := by
  refine ⟨fun i s t hf h => ?_, fun s t m rest hf hm hst => ?_⟩
  · exact exec_ends (P := (·.fault = true)) h ((commandRule_fault i _).mono fun _ hu => hu.trans hf) fun _ _ _ _ => rfl
  · rcases step_cases s t hst with ⟨hi, -⟩ | ⟨rest, ⟨w, hi, hw⟩ | ⟨hi, rfl⟩ | ⟨p, off, b, hi, -, -, rfl⟩ |
      ⟨r, hi, -, rfl⟩ | ⟨k, hi, -, rfl⟩ | ⟨hi, rfl⟩⟩ <;> cases hm.symm.trans hi
    · rcases hw with ⟨-, rfl⟩ | ⟨hrunning, -⟩ | ⟨hrunning, -⟩
      · exact ⟨hf, rfl, rfl⟩
      · exact absurd (hf.symm.trans hrunning) nofun
      · exact absurd (hf.symm.trans hrunning) nofun
    · exact ⟨hf, rfl, rfl⟩
    · exact ⟨hf, rfl, rfl⟩
    · exact ⟨hf, rfl, rfl⟩
    · exact ⟨hf, rfl, rfl⟩
    · exact rfl

/-! ### What a rule can raise (R251, R255) -/

/-- If the run ends in a raise, the fault is one of these. -/
def Run.RaisesOnly {α : Type} (r : Run α) (causes : List FaultCode) : Prop :=
  match r with
  | .done _ _ => True
  | .raised c _ => c ∈ causes
  | .stuck _ => True

@[simp] theorem Run.raisesOnly_done {α : Type} (a : α) (s : State) (causes : List FaultCode) :
    (Run.done a s).RaisesOnly causes := trivial

@[simp] theorem Run.raisesOnly_raised {α : Type} (c : FaultCode) (s : State) (causes : List FaultCode) :
    (Run.raised c s : Run α).RaisesOnly causes ↔ c ∈ causes := Iff.rfl

@[simp] theorem Run.raisesOnly_stuck {α : Type} (e : Fault) (causes : List FaultCode) :
    (Run.stuck e : Run α).RaisesOnly causes := trivial

theorem State.withPixel_raisesOnly (s : State) (x y : Nat) (rule : Surface → State) :
    (s.withPixel x y rule).RaisesOnly [.sequence, .outOfArea] := by
  rcases s.withPixel_cases x y rule with ⟨-, e⟩ | ⟨-, -, e⟩ | ⟨-, -, -, -, e⟩ | ⟨sf, -, -, -, -, e⟩ <;> simp [e]

theorem State.planarWrite_raisesOnly (s : State) (off : Nat) (c : BitVec 4) (m : Byte) :
    (s.planarWrite off c m).RaisesOnly [.unmapped, .baseState, .outOfMap] := by
  rcases s.planarWrite_cases off c m with ⟨-, e⟩ | ⟨-, -, e⟩ | ⟨-, -, -, e⟩ | ⟨-, -, -, -, e⟩ | ⟨-, -, -, -, e⟩ <;>
    simp [e]

/-- In the invariant RasterArea raises by its own checks only: past them it completes, and no planar write of it
raises. -/
theorem State.rasterArea_raisesOnly (s : State) (x y w h : Nat) (hs : s.Inv) :
    (s.rasterArea x y w h).RaisesOnly [.unmapped, .outOfArea, .baseState] := by
  cases hm : s.mapped with
  | false => simp [s.rasterArea_raises_unmapped x y w h hm]
  | true =>
    by_cases harea : x + w ≤ s.width ∧ y + h ≤ s.height
    · cases hb : s.baseValid with
      | false => simp [s.rasterArea_raises_baseState x y w h hm harea.1 harea.2 hb]
      | true =>
        obtain ⟨t, ht, -⟩ :=
          s.rasterArea_done x y w h hs.params hm hb hs.geometry (hs.surface_isSome hm) harea.1 harea.2
        simp [ht]
    · simp [s.rasterArea_raises_outOfArea x y w h hm (by omega)]

/-- In the invariant a flush of a mapped head completes, so only the mapping check can raise. -/
theorem State.flushHead_raisesOnly (s : State) (hs : s.Inv) : s.flushHead.RaisesOnly [.unmapped] := by
  rcases s.flushHead_cases with ⟨-, e⟩ | ⟨-, -, e⟩ | ⟨ha, hm, -⟩
  · simp [e]
  · simp [e]
  · obtain ⟨t, e, -⟩ := s.flushHead_done ha hm hs
    simp [e]

/-- Activate() flushes a mapped active head, and that flush completes. -/
theorem State.activateHead_raisesOnly (s : State) (hs : s.Inv) : s.activateHead.RaisesOnly [.sequence] := by
  rcases s.activateHead_cases with ⟨-, e⟩ | ⟨hm, e⟩
  · simp [e]
  · obtain ⟨t, hdone, -⟩ := State.flushHead_done { s with active := true, dirty := s.dirty ++ [s.fullArea] } rfl hm
      (s.addFullArea_inv hs hm)
    simp [e, hdone]

theorem State.mapDevice_raisesOnly (s : State) (hs : s.Inv) : s.mapDevice.RaisesOnly [.sequence] := by
  rcases s.mapDevice_cases with ⟨-, e⟩ | ⟨-, -, -, e⟩ | ⟨-, -, -, -, e⟩ | ⟨hq, -, -, -, e⟩
  · simp [e]
  · simp [e]
  · simp [e]
  · rw [e]
    exact State.activateHead_raisesOnly _ (s.setMapped_inv true hs fun _ => hq).of_view

/-- In the invariant every rule raises only what its row of R251's table lists. -/
theorem commandRule_raisesOnly (i : Instr) (s : State) (hs : s.Inv) :
    (commandRule i s).RaisesOnly (faultCauses i.opcode) := by
  cases i with
  | openDevice =>
    rcases s.openDevice_cases with ⟨-, e⟩ | ⟨-, -, e⟩ | ⟨-, -, e⟩ <;>
      simp [commandRule, e, faultCauses, Instr.opcode]
  | closeDevice =>
    rcases s.closeDevice_cases with ⟨-, e⟩ | ⟨-, -, e⟩ <;> simp [commandRule, e, faultCauses, Instr.opcode]
  | query w ht stride type aux visual bpp =>
    rcases s.queryDevice_cases w ht stride type aux visual bpp with
      ⟨-, e⟩ | ⟨-, -, -, e⟩ | ⟨-, -, -, -, e⟩ | ⟨-, -, -, -, e⟩ <;>
      simp [commandRule, e, faultCauses, Instr.opcode]
  | mapDevice => exact s.mapDevice_raisesOnly hs
  | activate => exact s.activateHead_raisesOnly hs
  | pixWrite x y pixel => exact s.withPixel_raisesOnly x y _
  | pixRead x y => exact s.withPixel_raisesOnly x y _
  | dirtyAdd x y w ht =>
    rcases s.dirtyAdd_cases x y w ht with ⟨-, e⟩ | ⟨-, -, e⟩ | ⟨-, -, -, e⟩ <;>
      simp [commandRule, e, faultCauses, Instr.opcode]
  | dirtyClear =>
    rcases s.dirtyClear_cases with ⟨-, e⟩ | ⟨-, e⟩ <;> simp [commandRule, e, faultCauses, Instr.opcode]
  | pwBase =>
    rcases s.pwBase_cases with ⟨-, e⟩ | ⟨-, e⟩ <;> simp [commandRule, e, faultCauses, Instr.opcode]
  | pwWrite c m off => exact s.planarWrite_raisesOnly off c m
  | rastArea x y w ht => exact s.rasterArea_raisesOnly x y w ht hs
  | flush => exact s.flushHead_raisesOnly hs
  | unmapDevice | deactivate | palAssign | palPush | palRead => exact trivial

/-- Settles O17: a rule that completes leaves `fault` clear, so a command that faults raised, and its rule raises
only its row's faults. -/
theorem commandsRaiseOnlyTheirCauses : Obligations.CommandsRaiseOnlyTheirCauses := by
  intro i s t hs hf hexec ht
  have hfault := commandRule_fault i { s with result := 0 }
  have hraises := commandRule_raisesOnly i { s with result := 0 } hs.of_view
  rcases exec_next i s t hexec with e | ⟨c, u, e, rfl⟩
  · rw [e] at hfault
    exact absurd (ht.symm.trans (hfault.trans hf)) nofun
  · rw [e] at hraises
    exact ⟨rfl, c, hraises, rfl⟩

end Sys2Proof.Machine
end

section
/-! SUPPORT. What a command reaches of the VGA side without a mapping, and the statement about it (60_exceptions.md
R262). -/

namespace Sys2Proof.Machine

/-- From `s` to `t` nothing of the VGA side changed but the DAC, and no event that needs the mapping was emitted. -/
structure State.VgaUnreached (s t : State) : Prop where
  vga : t.vga = { s.vga with dac := t.vga.dac } := by rfl
  trace : ∃ es, t.trace = s.trace ++ es ∧ ∀ e ∈ es, e.needsMapping = false := by
    exact ⟨[], (List.append_nil _).symm, nofun⟩

theorem State.VgaUnreached.trans {s t u : State} (h : s.VgaUnreached t) (g : t.VgaUnreached u) : s.VgaUnreached u where
  vga := g.vga.trans (congrArg (fun v => { v with dac := u.vga.dac }) h.vga)
  trace := by
    obtain ⟨es, he, hes⟩ := h.trace
    obtain ⟨fs, hf, hfs⟩ := g.trace
    exact ⟨es ++ fs, by rw [hf, he, List.append_assoc], List.forall_mem_append.mpr ⟨hes, hfs⟩⟩

theorem State.VgaUnreached.reg {s t : State} (h : s.VgaUnreached t) (r : VgaReg) : t.vga.reg r = s.vga.reg r := by
  rw [h.vga]
  cases r <;> rfl

/-- The push reaches the DAC, which needs no mapping. -/
theorem State.setPalette_unreached (s : State) : s.VgaUnreached s.setPalette := by
  by_cases h : s.isOpen = false ∨ s.palette.size = 0
  · rw [s.setPalette_of_idle h]
    exact {}
  · rw [s.setPalette_of_open (by simpa using fun ho => h (.inl ho)) fun hz => h (.inr hz)]
    exact { trace := ⟨[.palLoad s.palette.size s.palette.entries], rfl, by simp [Event.needsMapping]⟩ }

theorem State.assignIndex_unreached (s : State) (p : Pixel) : s.VgaUnreached (s.assignIndex p).2 := by
  rcases s.assignIndex_state p with e | ⟨-, e⟩ <;> rw [e]
  · exact {}
  · have hinsert : s.VgaUnreached { s with palette := s.palette.insert s.launch.params p } := {}
    exact hinsert.trans (State.setPalette_unreached _)

theorem State.palAssign_unreached (s : State) (p : Pixel) : s.VgaUnreached (s.palAssign p) :=
  (s.assignIndex_unreached p).trans {}

/-- Unmapped, the rules that would reach the VGA side raise before they do, and the others do not reach it. -/
theorem commandRule_unreached (i : Instr) (s : State) (hm : s.mapped = false) (hi : i ≠ .mapDevice) :
    (commandRule i s).Ends s.VgaUnreached := by
  cases i with
  | openDevice => rcases s.openDevice_cases with ⟨-, e⟩ | ⟨-, -, e⟩ | ⟨-, -, e⟩ <;> rw [commandRule, e] <;> exact {}
  | closeDevice => rcases s.closeDevice_cases with ⟨-, e⟩ | ⟨-, -, e⟩ <;> rw [commandRule, e] <;> exact {}
  | query w ht stride type aux visual bpp =>
    rcases s.queryDevice_cases w ht stride type aux visual bpp with
      ⟨-, e⟩ | ⟨-, -, -, e⟩ | ⟨-, -, -, -, e⟩ | ⟨-, -, -, -, e⟩ <;> simp only [commandRule, e] <;> exact {}
  | mapDevice => exact absurd rfl hi
  | unmapDevice => exact show s.VgaUnreached s.unmapDevice from {}
  | activate => rw [commandRule, s.activateHead_raises hm]; exact {}
  | deactivate => exact show s.VgaUnreached s.deactivate from {}
  | pixWrite x y pixel => exact s.withPixel_ends x y _ {} fun _ => {}
  | pixRead x y => exact s.withPixel_ends x y _ {} fun _ => {}
  | dirtyAdd x y w ht =>
    rcases s.dirtyAdd_cases x y w ht with ⟨-, e⟩ | ⟨-, -, e⟩ | ⟨-, -, -, e⟩ <;> simp only [commandRule, e] <;> exact {}
  | dirtyClear => rcases s.dirtyClear_cases with ⟨-, e⟩ | ⟨-, e⟩ <;> rw [commandRule, e] <;> exact {}
  | palAssign p => exact s.palAssign_unreached p
  | palPush => exact s.setPalette_unreached
  | palRead k => exact show s.VgaUnreached (s.palRead k) from {}
  | pwBase => rw [commandRule, s.pwBase_raises hm]; exact {}
  | pwWrite c m off => simp only [commandRule, s.planarWrite_raises_unmapped off c m hm]; exact {}
  | rastArea x y w ht => simp only [commandRule, s.rasterArea_raises_unmapped x y w ht hm]; exact {}
  | flush =>
    rcases s.flushHead_cases with ⟨-, e⟩ | ⟨-, -, e⟩ | ⟨-, hmapped, -⟩
    · rw [commandRule, e]; exact {}
    · rw [commandRule, e]; exact {}
    · exact absurd (hm.symm.trans hmapped) nofun

/-- Settles O21: unmapped, no rule but MAP's reaches the VGA side, and neither does the fault entry. -/
theorem withoutMappingNoVgaAccess : Obligations.WithoutMappingNoVgaAccess := by
  intro i s t hm hi hexec
  have hstart : s.VgaUnreached { s with result := 0 } := {}
  have h : s.VgaUnreached t :=
    exec_ends hexec ((commandRule_unreached i { s with result := 0 } hm hi).mono fun _ hu => hstart.trans hu)
      fun _ _ _ hu => hu.trans {}
  refine ⟨h.trace, h.reg, ?_, Vga.sameBytesOutside_of_vram _ ?_ ?_⟩ <;> rw [h.vga]

end Sys2Proof.Machine
end

section
/-! SUPPORT. The state after reset and after power-on, and the statements about them (00_scope.md R6,
70_reset_and_hazards.md R280 and R281). -/

namespace Sys2Proof.Machine

/-! ### The parts of the reset state (R281) -/

theorem Palette.slots_empty (k : Fin 16) :
    Palette.empty.red[k] = 0 ∧ Palette.empty.green[k] = 0 ∧ Palette.empty.blue[k] = 0 := by
  simp [empty]

/-- A VGA reset of an unknown VGA side tells nothing new, so what it makes unknown already is. -/
theorem Vga.reset_unknown (tag : Nat) : (Vga.unknown tag).reset = Vga.unknown tag := rfl

theorem Vga.reg_unknown (tag : Nat) (r : VgaReg) : (Vga.unknown tag).reg r = none :=
  reset_unknown tag ▸ reg_reset _ r

theorem Vga.latch_unknown (tag : Nat) (k : Fin 4) : (Vga.unknown tag).latch[k] = none :=
  reset_unknown tag ▸ latch_reset _ k

theorem Vga.dac_unknown (tag : Nat) (k : Fin 16) : (Vga.unknown tag).dac[k] = none :=
  reset_unknown tag ▸ dac_reset _ k

/-- With nothing stored, a plane's byte is the draw of the initial contents at its address (R44). -/
theorem Vga.planeByte_unknown (tag p off : Nat) :
    (Vga.unknown tag).planeByte p off = Config.initialVram tag (off * 4 + p) := rfl

theorem State.baseValid_reset : State.reset.baseValid = false :=
  Vga.baseValid_reset Params.default (Vga.unknown 0)

/-- Every field of STATUS is 0 at reset, so their sum is. -/
theorem State.status_reset : State.reset.status = 0 := by
  refine BitVec.eq_of_toNat_eq ?_
  rw [State.reset.status_toNat (Nat.zero_le _), State.baseValid_reset]
  rfl

/-- Settles O12: the VGA side by what is known of an unknown one, STATUS by its fields, the rest as reset sets it. -/
theorem resetStateIsAsListed : Obligations.ResetStateIsAsListed :=
  ⟨rfl, rfl, State.status_reset,
    rfl, rfl, rfl, rfl,
    rfl, rfl, rfl, rfl,
    Palette.slots_empty, rfl,
    rfl, rfl,
    Vga.reg_unknown 0, State.baseValid_reset, Vga.latch_unknown 0,
    Vga.planeByte_unknown 0, Vga.dac_unknown 0,
    rfl, rfl, rfl, rfl,
    rfl,
    rfl⟩

/-! ### The invariant at reset -/

/-- A launch that fixes nothing has the parameters' defaults, which meet their demands (R6). -/
theorem Launch.allOpen_params_ok : Launch.allOpen.params.Ok := by
  constructor <;> decide

/-- Settles O14: the reset state is where the run of an open launch with nothing to come starts. -/
theorem resetMeetsTheInvariant : Obligations.ResetMeetsTheInvariant :=
  State.start_inv Launch.allOpen [] Launch.allOpen_params_ok

/-! ### Power-on (R280) -/

/-- Power-on gives every element of the block its reset value, whatever it was. -/
theorem State.powerOn_sameBlock (s : State) : State.reset.sameBlock s.powerOn := by
  simp [sameBlock, powerOn]

/-- Settles O11: the step is power-on in the state that has taken the move. -/
theorem powerOnGivesTheResetState : Obligations.PowerOnGivesTheResetState := by
  intro s rest h
  obtain ⟨hinbox, hlaunch⟩ := State.powerOn_frame { s with inbox := rest }
  exact ⟨_, step_powerOn s rest h, State.powerOn_sameBlock _, rfl, rfl, hinbox, hlaunch⟩

end Sys2Proof.Machine
end
